-- ==== Sys2Proof/Word.lean ====
section
/-! DEFINITION. The unit of every stream and buffer: the byte (00_scope.md R14). -/

namespace Sys2Proof

/-- A byte; bit 0 is its least-significant bit (R14). -/
abbrev Byte := BitVec 8

end Sys2Proof
end

