-- ==== Sys2Proof/Config.lean ====
section
/-! DEFINITION. What the deployment fixes (10_state.md R42) and the values the spec leaves free (93, I3, I4, I8). -/

namespace Sys2Proof

/-- The read-only constants of R42 that a rule reads. They are carried in the machine's state, and no step changes
them, so that every statement holds for every configuration (log 10). -/
structure Config where
  /-- `CAPACITY_BYTES`, the capacity of each vector buffer (R9). -/
  capacityBytes : Nat
  /-- `ADVERTISED_N`, the number the getinfo response reports (R10). It may differ from `CAPACITY_BYTES` (R147). -/
  advertisedN : Nat
  deriving DecidableEq, Repr

namespace Config

/-- `MAX_BITS = 8 * CAPACITY_BYTES` (R9). -/
def maxBits (c : Config) : Nat := 8 * c.capacityBytes

/-- The width of `SE_I`, which counts from 0 to `MAX_BITS` (10_state.md R38): 15 bits for `MAX_BITS = 16384` (log 17). -/
def seIBits (c : Config) : Nat := c.maxBits.log2 + 1

/-- The deployment's values: `CAPACITY_BYTES = 2048` (R9) and `ADVERTISED_N = CAPACITY_BYTES` (R10, D4). -/
def deployment : Config := { capacityBytes := 2048, advertisedN := 2048 }

/-- The four line roles of the GPIO Line Interface (42_gpio_interface.md R210). -/
inductive LineRole where
  | tck | tms | tdi | tdo
  deriving DecidableEq, Repr

/-- `PIN_MAP`: the physical line of each role, a deployment constant of which the spec gives no value and which no
rule reads (R11, I3; log 11). -/
opaque pinMap : LineRole → Nat

/-- FREE VALUE: the level T presents at a TDO read for which the script lists none (R213, I4; log 5). The argument is
the counter `State.freeIdx`. -/
opaque freeTdoLevel : Nat → Bool

/-- FREE VALUE: the padding bits of one TDO response (R161, D10, I8; log 6). The argument is the counter
`State.freeIdx`. -/
opaque freePadding : Nat → Byte

end Config

end Sys2Proof
end

