-- ==== Sys2Proof/Machine/Operands.lean ====
section
/-! DEFINITION. Operand assembly and the pure arithmetic of the rules: byte order, exact ceiling, the two views of a
bit vector, decimal spelling, the response strings, the padding of a TDO vector. Nothing here reads the state. -/

namespace Sys2Proof.Machine

/-- `le32([b0, b1, b2, b3]) = b0 + 256*b1 + 65536*b2 + 16777216*b3` (R15): the first byte received is bits [7:0], the
fourth is bits [31:24] (R73). -/
def le32 (b0 b1 b2 b3 : Byte) : BitVec 32 :=
  BitVec.ofNat 32 (b0.toNat + 256 * b1.toNat + 65536 * b2.toNat + 16777216 * b3.toNat)

/-- `le32bytes(v) = [v[7:0], v[15:8], v[23:16], v[31:24]]` (30_encoding.md R126). -/
def le32bytes (v : BitVec 32) : Vector Byte 4 :=
  #v[v.extractLsb' 0 8, v.extractLsb' 8 8, v.extractLsb' 16 8, v.extractLsb' 24 8]

/-- `ceil_div8(n) = (n + 7) div 8` over the naturals: it never wraps (R15, R16, D7). -/
def ceilDiv8 (n : Nat) : Nat := (n + 7) / 8

/-- `bit(v, k)` of a byte (R14). -/
def bitOf (v : Byte) (k : Nat) : Bool := v.getLsbD k

/-- The byte `v` with bit `k` replaced by `s` and its other seven bits unchanged (R17, `BitWrite`). -/
def withBit (v : Byte) (k : Nat) (s : Bool) : Byte :=
  if s then v ||| (1#8 <<< k) else v &&& ~~~(1#8 <<< k)

/-- Bit `i` of a vector held in bytes: position `i mod 8` of byte `i div 8` (R71). A byte that is not there counts
as 0x00. -/
def vectorBit (bytes : List Byte) (i : Nat) : Bool := bitOf (bytes.getD (i / 8) 0) (i % 8)

/-- The byte whose bit `k` is the `k`-th listed level, at most eight of them, the rest 0 (R71). -/
def byteOfBits : List Bool → Byte
  | [] => 0
  | b :: bs => (byteOfBits bs <<< 1) ||| (if b then 1 else 0)

/-- The bytes of the vector whose bits are listed in shift order, with padding bits 0 (R71, R127). -/
def packBits (bits : List Bool) : List Byte :=
  (List.range (ceilDiv8 bits.length)).map fun j => byteOfBits ((bits.drop (8 * j)).take 8)

/-- The mask of the significant bits of a vector's last byte, `(1 << (bit_count mod 8)) - 1`
(95_test_vectors.md section 0; for a bit_count that is no multiple of 8). -/
def significantMask (bitCount : Nat) : Byte := (1#8 <<< (bitCount % 8)) - 1

/-- One byte whose significant bits are those of `v` and whose padding bits are those of `free`. -/
def mergePadding (bitCount : Nat) (free v : Byte) : Byte :=
  (v &&& significantMask bitCount) ||| (free &&& ~~~(significantMask bitCount))

/-- Whether a vector of `bitCount` bits has padding bits in its last byte (00_scope.md R20). -/
def hasPadding (bitCount : Nat) : Bool := bitCount % 8 != 0

/-- The response bytes of a TDO vector of `bitCount` bits: its bytes, where the padding bits of the last one are taken
from `free` (R161: they are unspecified, any value, per response). -/
def withFreePadding (bitCount : Nat) (free : Byte) (bytes : List Byte) : List Byte :=
  if hasPadding bitCount then
    match bytes.getLast? with
    | none => bytes
    | some v => bytes.dropLast ++ [mergePadding bitCount free v]
  else bytes

/-- The decimal ASCII digits of `n` in front of `acc`, the last digit first; `fuel` above `n` is always enough. -/
def decDigits : Nat → Nat → List Byte → List Byte
  | 0, _, acc => acc
  | fuel + 1, n, acc =>
    let acc := BitVec.ofNat 8 (0x30 + n % 10) :: acc
    if n / 10 = 0 then acc else decDigits fuel (n / 10) acc

/-- `dec(v)`: the decimal ASCII spelling of `v`, no sign, no leading zeros (30_encoding.md R116, D5). -/
def dec (v : Nat) : List Byte := decDigits (v + 1) v []

/-- `"xvcServer_v1.0:"` in ASCII (R111, R146). -/
def versionText : List Byte :=
  [0x78, 0x76, 0x63, 0x53, 0x65, 0x72, 0x76, 0x65, 0x72, 0x5F, 0x76, 0x31, 0x2E, 0x30, 0x3A]

/-- The GETINFO response, `"xvcServer_v1.0:" ++ dec(ADVERTISED_N) ++ "\n"` (40_dispatcher.md R146). -/
def getinfoResponse (advertisedN : Nat) : List Byte := versionText ++ dec advertisedN ++ [0x0A]

end Sys2Proof.Machine
end

