-- ==== Sys2Proof/Syntax.lean ====
section
/-! DEFINITION. The commands as data: one constructor per row of spec/opcode_table.json. An instruction is one whole
frame (30_encoding.md R110), so no byte of a frame is dropped; the suffix bytes, which the block reads and discards
(R119), are carried for that reason only (log 12). -/

namespace Sys2Proof

/-- One command frame (30_encoding.md R112 to R117). -/
inductive Instr where
  /-- `getinfo:`, format GE: tag 0x6765, 6 suffix bytes (R112). -/
  | getinfo (suffix : Vector Byte 6)
  /-- `settck:`, format SE: tag 0x7365, 5 suffix bytes, the period in nanoseconds as a u32 (R113). -/
  | settck (suffix : Vector Byte 5) (period : BitVec 32)
  /-- `shift:`, format SH: tag 0x7368, 4 suffix bytes, the bit count as a u32, then the TMS and the TDI vector, both
  absent when the byte length is above the capacity (R114, R115, R121). -/
  | shift (suffix : Vector Byte 4) (bitCount : BitVec 32) (tms tdi : List Byte)
  /-- Any other 2-byte tag, first byte received first (R117, R122). -/
  | invalid (tag : Vector Byte 2)
  deriving DecidableEq, Repr

/-- The command a 2-byte tag selects, compared byte for byte (30_encoding.md R117, R143). -/
inductive Command where
  | getinfo | settck | shift
  deriving DecidableEq, Repr

end Sys2Proof
end

