-- ==== Sys2Proof/WellFormed.lean ====
section
/-! DEFINITION. Which instructions are frames of the block. The capacity is a parameter (R9), since the length of an
oversize frame depends on it (R121). -/

namespace Sys2Proof

namespace WellFormed

/-- The three tags that are not invalid, as a check of syntax (R117); the decoder has its own table. -/
def tagIsCommand (tag : Vector Byte 2) : Bool :=
  tag == #v[0x67, 0x65] || tag == #v[0x73, 0x65] || tag == #v[0x73, 0x68]

/-- The vectors of a shift frame are exactly `L = ceil_div8(bit_count)` bytes each when `L ≤ CAPACITY_BYTES` (R115,
R126), and absent otherwise (R121). -/
def vectorsFit (capacity : Nat) (bitCount : BitVec 32) (tms tdi : List Byte) : Bool :=
  if Machine.ceilDiv8 bitCount.toNat ≤ capacity then
    tms.length == Machine.ceilDiv8 bitCount.toNat && tdi.length == Machine.ceilDiv8 bitCount.toNat
  else tms.isEmpty && tdi.isEmpty

end WellFormed

/-- The check a frame passes. -/
def Instr.wellFormed (capacity : Nat) : Instr → Bool
  | .getinfo _ => true
  | .settck _ _ => true
  | .shift _ bitCount tms tdi => WellFormed.vectorsFit capacity bitCount tms tdi
  | .invalid tag => !WellFormed.tagIsCommand tag

/-- `i` is a frame of a block whose buffers hold `capacity` bytes each. -/
abbrev WellFormed (capacity : Nat) (i : Instr) : Prop := i.wellFormed capacity = true

end Sys2Proof
end

