-- ==== Sys2Proof/Decode.lean ====
section
/-! DEFINITION. The decoder of command frames from stream bytes, total and rejecting by name; then the encoder, written
from the same tables of 30_encoding.md, and the assembly syntax of R126 and R127. -/

namespace Sys2Proof

/-- Why bytes are not (yet) a frame: the stream holds too few of them. Every 2-byte tag is a command or invalid
(R124), so nothing else can be wrong with them. -/
inductive DecodeError where
  | truncatedTag | truncatedGetinfo | truncatedSettck | truncatedShiftHeader | truncatedTms | truncatedTdi
  deriving DecidableEq, Repr

/-- The opcode map of R117, the same the dispatch step reads (R143). -/
def commandOfTag (t0 t1 : Byte) : Option Command :=
  if t0 = 0x67 ∧ t1 = 0x65 then some .getinfo
  else if t0 = 0x73 ∧ t1 = 0x65 then some .settck
  else if t0 = 0x73 ∧ t1 = 0x68 then some .shift
  else none

/-- The 6 bytes after the tag of format GE (R112). -/
def decodeGetinfo : List Byte → Except DecodeError (Instr × List Byte)
  | a :: b :: c :: d :: e :: f :: rest => .ok (.getinfo #v[a, b, c, d, e, f], rest)
  | _ => .error .truncatedGetinfo

/-- The 9 bytes after the tag of format SE (R113, C2). -/
def decodeSettck : List Byte → Except DecodeError (Instr × List Byte)
  | a :: b :: c :: d :: e :: p0 :: p1 :: p2 :: p3 :: rest =>
    .ok (.settck #v[a, b, c, d, e] (Machine.le32 p0 p1 p2 p3), rest)
  | _ => .error .truncatedSettck

/-- The payload of format SH, once its header is read (R115, R121). -/
def decodePayload (capacity : Nat) (suffix : Vector Byte 4) (bitCount : BitVec 32) (bytes : List Byte) :
    Except DecodeError (Instr × List Byte) :=
  let len := Machine.ceilDiv8 bitCount.toNat
  if len ≤ capacity then
    if bytes.length < len then .error .truncatedTms
    else if bytes.length < 2 * len then .error .truncatedTdi
    else .ok (.shift suffix bitCount (bytes.take len) ((bytes.drop len).take len), bytes.drop (2 * len))
  else .ok (.shift suffix bitCount [] [], bytes)

/-- The 8 header bytes after the tag of format SH (R114, C3), then the payload. -/
def decodeShift (capacity : Nat) : List Byte → Except DecodeError (Instr × List Byte)
  | a :: b :: c :: d :: n0 :: n1 :: n2 :: n3 :: rest =>
    decodePayload capacity #v[a, b, c, d] (Machine.le32 n0 n1 n2 n3) rest
  | _ => .error .truncatedShiftHeader

/-- The frame at the front of the stream and the bytes after it (R121). -/
def decode (capacity : Nat) : List Byte → Except DecodeError (Instr × List Byte)
  | t0 :: t1 :: rest =>
    match commandOfTag t0 t1 with
    | some .getinfo => decodeGetinfo rest
    | some .settck => decodeSettck rest
    | some .shift => decodeShift capacity rest
    | none => .ok (.invalid #v[t0, t1], rest)
  | _ => .error .truncatedTag

/-- The frame of an instruction: its bytes, the first one sent first (R112 to R117). -/
def encode : Instr → List Byte
  | .getinfo suffix => [0x67, 0x65] ++ suffix.toList
  | .settck suffix period => [0x73, 0x65] ++ suffix.toList ++ (Machine.le32bytes period).toList
  | .shift suffix bitCount tms tdi =>
    [0x73, 0x68] ++ suffix.toList ++ (Machine.le32bytes bitCount).toList ++ tms ++ tdi
  | .invalid tag => tag.toList

/-- The number of bytes the block consumes for a frame (R121): 8, 11, 10 + 2L or 10, 2. -/
def frameLength (capacity : Nat) : Instr → Nat
  | .getinfo _ => 8
  | .settck _ _ => 11
  | .shift _ bitCount _ _ =>
    let len := Machine.ceilDiv8 bitCount.toNat
    if len ≤ capacity then 10 + 2 * len else 10
  | .invalid _ => 2

/-! ### Words numbered as spec/opcode_table.json numbers them -/

/-- Byte `j` of a table word of `nbits` bits: bytes 0 and 1 are the tag word `TW = 256 * TAG[0] + TAG[1]` (R118), so
byte 0 is bits 15 to 8 and byte 1 bits 7 to 0; byte `j ≥ 2` is bits `8j + 7` to `8j` (log 14). Bits above `nbits`
are 0. -/
def tableByte (nbits w j : Nat) : Byte :=
  let v := w % 2 ^ nbits
  if j = 0 then BitVec.ofNat 8 (v / 256)
  else if j = 1 then BitVec.ofNat 8 v
  else BitVec.ofNat 8 (v / 2 ^ (8 * j))

/-- The first `n` frame bytes of a table word. -/
def tableBytes (nbits w n : Nat) : List Byte := (List.range n).map (tableByte nbits w)

/-- How many bytes the frame of a table word has, read from its first 10 bytes as R121 says. -/
def tableFrameLength (capacity nbits w : Nat) : Nat :=
  match commandOfTag (tableByte nbits w 0) (tableByte nbits w 1) with
  | some .getinfo => 8
  | some .settck => 11
  | some .shift =>
    let bitCount :=
      Machine.le32 (tableByte nbits w 6) (tableByte nbits w 7) (tableByte nbits w 8) (tableByte nbits w 9)
    let len := Machine.ceilDiv8 bitCount.toNat
    if len ≤ capacity then 10 + 2 * len else 10
  | none => 2

/-- The whole frame of a table word, every bit above `nbits` being 0. -/
def tableFrame (capacity nbits w : Nat) : List Byte := tableBytes nbits w (tableFrameLength capacity nbits w)

/-- The instruction the decoder reads from a table word, for the deployment's capacity. -/
def decodeTableWord (nbits w : Nat) : Option Instr :=
  match decode Config.deployment.capacityBytes (tableFrame Config.deployment.capacityBytes nbits w) with
  | .ok (i, _) => some i
  | .error _ => none

/-! ### Assembly syntax (30_encoding.md R126, R127) -/

namespace Assembly

/-- `"tinfo:"` (R112). -/
def tinfo : Vector Byte 6 := #v[0x74, 0x69, 0x6E, 0x66, 0x6F, 0x3A]
/-- `"ttck:"` (R113). -/
def ttck : Vector Byte 5 := #v[0x74, 0x74, 0x63, 0x6B, 0x3A]
/-- `"ift:"` (R114). -/
def ift : Vector Byte 4 := #v[0x69, 0x66, 0x74, 0x3A]

/-- `GETINFO`. -/
def getinfo : Instr := .getinfo tinfo
/-- `SETTCK p`. -/
def settck (p : BitVec 32) : Instr := .settck ttck p

/-- `SHIFT n, T, D`: an assembly error unless `T` and `D` are each exactly `ceil_div8(n)` bytes. -/
def shift (n : BitVec 32) (t d : List Byte) : Option Instr :=
  if t.length = Machine.ceilDiv8 n.toNat ∧ d.length = Machine.ceilDiv8 n.toNat then some (.shift ift n t d) else none

/-- `ceil_div8(n)` bytes of 0x00. -/
def zeros (n : BitVec 32) : List Byte := List.replicate (Machine.ceilDiv8 n.toNat) 0

/-- `TMSONLY n, T` expands to `SHIFT n, T, Z`. -/
def tmsonly (n : BitVec 32) (t : List Byte) : Option Instr := shift n t (zeros n)
/-- `TDIONLY n, D` expands to `SHIFT n, Z, D`. -/
def tdionly (n : BitVec 32) (d : List Byte) : Option Instr := shift n (zeros n) d

/-- `SHIFTBITS t_0 … / d_0 …`, the bits in shift order; an error unless both lists have one length that fits a u32. -/
def shiftbits (t d : List Bool) : Option Instr :=
  if t.length = d.length ∧ t.length < 2 ^ 32 then
    shift (BitVec.ofNat 32 t.length) (Machine.packBits t) (Machine.packBits d)
  else none

end Assembly

end Sys2Proof
end

