-- ==== Sys2Proof/Machine/State.lean ====
section
/-! DEFINITION. The state as plain data: everything 10_state.md R30 lists, under the spec's register names, and beside
it the model's own fields: the environment's answers to come (00_scope.md R8, log 3), the observable trace (R19, log
18), and the control points the pseudocode keeps implicitly (log 9). -/

namespace Sys2Proof.Machine

/-- The dispatcher's 13 states (10_state.md R31). -/
inductive DState where
  | sWait | sTag | sGeSfx | sGeRsp | sSeArg | sSeRsp | sShHdr | sShChk | sShTms | sShTdi | sShRun | sShRsp | sEnd
  deriving DecidableEq, Repr

/-- The 4-bit encoding of `DSTATE` (R31). Values 13 to 15 are unused. -/
def DState.code : DState → BitVec 4
  | .sWait => 0 | .sTag => 1 | .sGeSfx => 2 | .sGeRsp => 3 | .sSeArg => 4 | .sSeRsp => 5 | .sShHdr => 6
  | .sShChk => 7 | .sShTms => 8 | .sShTdi => 9 | .sShRun => 10 | .sShRsp => 11 | .sEnd => 12

/-- The termination reasons (60_exceptions.md R230). -/
inductive Reason where
  | none | tagRxEnd | rxFail | txFail | shortWrite | badTag | oversize
  deriving DecidableEq, Repr

/-- The reason codes of R230. -/
def Reason.code : Reason → Nat
  | .none => 0 | .tagRxEnd => 1 | .rxFail => 2 | .txFail => 3 | .shortWrite => 4 | .badTag => 5 | .oversize => 6

/-- The source's three error classes (R231 to R233). -/
inductive ErrorClass where
  | transportError | protocolViolation | shortWrite
  deriving DecidableEq, Repr

/-- The class of each reason (R230); `NONE` has none. -/
def Reason.errorClass : Reason → Option ErrorClass
  | .none => Option.none
  | .tagRxEnd | .rxFail | .txFail => some .transportError
  | .shortWrite => some .shortWrite
  | .badTag | .oversize => some .protocolViolation

/-- The destinations of a Frame Reader transfer (R37, 20_memory.md R80). -/
inductive FrDst where
  | tag | sink | period | hdr | tmsBuf | tdiBuf
  deriving DecidableEq, Repr

/-- The serializer's phases (R38, 41_shift_engine.md R187). The register names the operation W performs next. -/
inductive SePhase where
  | pIdleIn | pDrive | pSample | pRaise | pIdleOut | pDone
  deriving DecidableEq, Repr

/-- The three vector buffers (R41). -/
inductive Buf where
  | tms | tdi | tdo
  deriving DecidableEq, Repr

/-- The levels of the three output latches, or their levels after an update: `(TCK, TMS, TDI)` (R39). -/
structure Lines where
  tck : Bool
  tms : Bool
  tdi : Bool
  deriving DecidableEq, Repr

/-- A set of output lines, an operand of `GpioSetClr` (42_gpio_interface.md R211). -/
structure LineSet where
  tck : Bool
  tms : Bool
  tdi : Bool
  deriving DecidableEq, Repr

/-- The events of the observable trace (00_scope.md R19). -/
inductive Event where
  | sessionStart
  | sessionEnd (reason : Reason)
  /-- `Rx(m, r, bytes)`: a read asked for `m` bytes and returned `r` and the bytes. -/
  | rx (m : Nat) (r : Int) (bytes : List Byte)
  /-- `Tx(bytes, k)`: a write offered the bytes and returned `k`. -/
  | tx (bytes : List Byte) (k : Int)
  /-- `SetClr(S, C, lines_after)`. -/
  | setClr (s c : LineSet) (linesAfter : Lines)
  | sample (level : Bool)
  deriving DecidableEq, Repr

/-- One answer of H to a `StreamWrite` (20_memory.md R90): the count it returns and, for a count of 0 or below, how
many bytes of the response H has all the same (R88, I7). -/
structure WriteAnswer where
  k : Int
  delivered : Nat
  deriving DecidableEq, Repr

/-- H's side of the active session's stream (log 3, log 22). `rx` is what H sends and W has not consumed; `splits`
holds how many bytes the reads to come return, when H answers with less than everything asked for; `rxEnd` is the
non-positive result after the last byte, `some e` for the result `-e`, `none` when H never answers; `writes` holds the
answers to the writes to come; `got` is the TX stream, the bytes H has of this session. -/
structure Link where
  rx : List Byte
  splits : List Nat
  rxEnd : Option Nat
  writes : List WriteAnswer
  got : List Byte
  deriving DecidableEq, Repr

/-- A stream A will hand W: its opaque handle and H's side of it (60_exceptions.md R246). -/
structure Offer where
  handle : Nat
  link : Link
  deriving DecidableEq, Repr

/-- T's side: the TDO levels of the reads to come, oldest first (R213), or the wire-loopback test double (R218). -/
inductive Target where
  | levels (script : List Bool)
  | wireLoopback
  deriving DecidableEq, Repr

/-- One buffer's contents: index and byte, indices strictly rising, no entry equal to what an unlisted index reads as
(`Memory.wf` in Machine/Ops.lean). -/
abbrev Memory := List Host.Cell

/-- The machine's state. -/
structure State where
  /-- The configuration constants (R42; log 10). -/
  cfg : Config
  /-- `DSTATE`, the program counter's role (R31). -/
  dstate : DState
  /-- `SESS_ACTIVE` (R32). -/
  sessActive : Bool
  /-- `STREAM` (R32). -/
  stream : Option Nat
  /-- `TAG` (R33). -/
  tag : Vector Byte 2
  /-- `PERIOD` (R34). -/
  period : Vector Byte 4
  /-- `BITCNT` (R35). -/
  bitCnt : BitVec 32
  /-- `BYTELEN` (R36). -/
  byteLen : BitVec 30
  /-- `HDR`, the 8-byte destination of the header transfer (20_memory.md R80; log 9). -/
  hdr : Vector Byte 8
  /-- `FR_DST` (R37). -/
  frDst : FrDst
  /-- `FR_N` (R37). -/
  frN : Nat
  /-- `FR_GOT` (R37). -/
  frGot : Nat
  /-- W is inside the transfer or the serializer run of the current `DSTATE` (log 9). -/
  busy : Bool
  /-- `SE_I`, a register of `Config.seIBits` bits, 15 in the deployment (R38; log 17). -/
  seI : Nat
  /-- `SE_PHASE` (R38). -/
  sePhase : SePhase
  /-- `L_TCK`, `L_TMS`, `L_TDI` (R39). -/
  lines : Lines
  /-- `TMS_BUF` (R41). -/
  tmsBuf : Memory
  /-- `TDI_BUF` (R41). -/
  tdiBuf : Memory
  /-- `TDO_BUF` (R41). -/
  tdoBuf : Memory
  /-- `LAST_REASON` (R44). -/
  lastReason : Reason
  /-- The reason a raised termination carries to its `S_END` step (60_exceptions.md R236; log 9). -/
  endReason : Reason
  /-- A's streams to come (log 3). -/
  offers : List Offer
  /-- H's side of the active session (log 3). -/
  link : Link
  /-- T's side (log 5, log 7). -/
  target : Target
  /-- Counts the free values drawn (log 5, log 6). -/
  freeIdx : Nat
  /-- The observable trace, oldest event first (R19; log 18). -/
  trace : List Event
  deriving DecidableEq, Repr

/-- The faults. No run of the block reaches one: 60_exceptions.md R235 gives it no fault beyond termination. -/
inductive Fault where
  /-- Raised by a buffer access at an index at or above `CAPACITY_BYTES`, which does not exist (20_memory.md R91, R92;
  log 20). Safe: the machine stops where the spec gives no access. -/
  | bufferIndex (buf : Buf) (index : Nat)
  /-- Raised by a transfer into TAG, PERIOD or HDR past the register's last byte (log 20). Safe, as above. -/
  | transferIndex (dst : FrDst) (index : Nat)
  deriving DecidableEq, Repr

/-- The refusals. -/
inductive Refusal where
  /-- An instruction without a meaning yet. Safe. -/
  | notModelled (mnemonic : String)
  /-- `GpioSetClr(S, C)` with `S ∩ C ≠ ∅` (42_gpio_interface.md R212, 93 I17). Safe: no run makes the call. -/
  | overlappingSetClr
  /-- A serializer run with `n > MAX_BITS` (41_shift_engine.md R189, 93 I16). Safe: no run makes the call. -/
  | shiftTooLong
  /-- A `StreamWrite` answered with a count above the request (20_memory.md R90, 93 I18). Safe: the answer is outside
  the draw's range. -/
  | writeAboveRequest
  deriving DecidableEq, Repr

/-- A session's stream of which nothing is known yet: no bytes, no answers. -/
def Link.empty : Link := { rx := [], splits := [], rxEnd := none, writes := [], got := [] }

/-- The machine right after reset (10_state.md R46, 70_reset_and_hazards.md R270): `DSTATE`, `SESS_ACTIVE`, `STREAM` and
`LAST_REASON` are the spec's; every other register is unspecified there, and holds the value log 1 names. -/
def State.reset : State where
  cfg := Config.deployment
  dstate := .sWait
  sessActive := false
  stream := none
  tag := #v[0, 0]
  period := #v[0, 0, 0, 0]
  bitCnt := 0
  byteLen := 0
  hdr := #v[0, 0, 0, 0, 0, 0, 0, 0]
  frDst := .sink
  frN := 0
  frGot := 0
  busy := false
  seI := 0
  sePhase := .pDone
  lines := { tck := false, tms := false, tdi := false }
  tmsBuf := []
  tdiBuf := []
  tdoBuf := []
  lastReason := .none
  endReason := .none
  offers := []
  link := Link.empty
  target := .levels []
  freeIdx := 0
  trace := []

/-- What an operation of the machine answers: a value, a fault or a refusal. -/
abbrev Result (α : Type) := Host.Outcome α Fault Refusal

end Sys2Proof.Machine
end

