-- ==== Sys2Proof/Machine/Flags.lean ====
section
/-! DEFINITION. The block has no status flags and no condition codes, and no command sets or reads one (10_state.md
R43, D34). "The only outcome a command reports is whether the session goes on or terminates" (R43): this file holds
the outcomes of a transfer and of a response write, from which that is decided. -/

namespace Sys2Proof.Machine

/-- Where a Frame Reader transfer stands after one turn of its loop (20_memory.md R80). -/
inductive Progress where
  /-- A read returned bytes; the loop goes on. -/
  | more
  /-- `FR_GOT = FR_N`: the transfer returns `OK`. -/
  | done
  /-- A read returned a non-positive result: the transfer returns `FAIL(r)`. -/
  | failed
  /-- H has not answered the read: W waits in it (R84). -/
  | waiting
  deriving DecidableEq, Repr

/-- The results of `RespWrite` (20_memory.md R86), and the two cases that are not results. -/
inductive WriteOutcome where
  | ok
  /-- `FAIL_TRANSPORT(k)`, `k ≤ 0`: TransportError (60_exceptions.md R231). -/
  | failTransport
  /-- `FAIL_SHORT(k)`, `0 < k < n`: ShortWrite (60_exceptions.md R233). -/
  | failShort
  /-- `k > n`: not in the range of the draw (R90, I18). -/
  | outOfRange
  deriving DecidableEq, Repr

/-- How `RespWrite` reads the count `k` of a write of `n` bytes, `n ≥ 1` (R86, R90). -/
def classifyWrite (n : Nat) (k : Int) : WriteOutcome :=
  if k = n then .ok
  else if k ≤ 0 then .failTransport
  else if k < n then .failShort
  else .outOfRange

end Sys2Proof.Machine
end

