-- ==== Sys2Proof/Machine/Ops.lean ====
section
/-! DEFINITION. The named operations every command is made of: sequencing of results, the buffers, the registers a
transfer fills, the streams, the GPIO lines, and the block's one exceptional transfer, termination, with the session
start beside it (60_exceptions.md R241: there is no return from a termination but the next session). -/

namespace Sys2Proof.Machine

/-- Do `f` with the value of `o`; a fault or a refusal stops. -/
def andThen {α β : Type} (o : Result α) (f : α → Result β) : Result β :=
  match o with
  | .next a => f a
  | .fault r => .fault r
  | .refused r => .refused r

/-! ### Memory: one buffer's bytes -/

namespace Memory

/-- What an index that is not listed reads as: the reset contents of a buffer, which the spec leaves unspecified
(10_state.md R46, I10; log 2). -/
def unlisted : Byte := 0

/-- The byte at an index. -/
def read : Memory → Nat → Byte
  | [], _ => unlisted
  | (a, v) :: rest, j => if a = j then v else read rest j

/-- The memory with byte `j` replaced by `v`, in canonical form again. -/
def write : Memory → Nat → Byte → Memory
  | [], j, v => if v = unlisted then [] else [(j, v)]
  | (a, w) :: rest, j, v =>
    if j < a then if v = unlisted then (a, w) :: rest else (j, v) :: (a, w) :: rest
    else if j = a then if v = unlisted then rest else (j, v) :: rest
    else (a, w) :: write rest j v

/-- Every entry has an index at or above `lo` and below `hi`, indices rise strictly, and no entry holds what an
unlisted index reads as. -/
def wfFrom (hi : Nat) : Nat → Memory → Bool
  | _, [] => true
  | lo, (a, v) :: rest => decide (lo ≤ a) && decide (a < hi) && v != unlisted && wfFrom hi (a + 1) rest

/-- The canonical form of a buffer of `capacity` bytes. -/
def wf (capacity : Nat) (m : Memory) : Bool := wfFrom capacity 0 m

end Memory

/-- The contents of a buffer. -/
def State.buf (s : State) : Buf → Memory
  | .tms => s.tmsBuf
  | .tdi => s.tdiBuf
  | .tdo => s.tdoBuf

/-- The state with a buffer's contents replaced. -/
def State.setBuf (s : State) (b : Buf) (m : Memory) : State :=
  match b with
  | .tms => { s with tmsBuf := m }
  | .tdi => { s with tdiBuf := m }
  | .tdo => { s with tdoBuf := m }

/-- `BUF_X[j]` (00_scope.md R17); an index that does not exist faults (20_memory.md R92). -/
def bufRead (b : Buf) (j : Nat) (s : State) : Result Byte :=
  if j < s.cfg.capacityBytes then .next (Memory.read (s.buf b) j) else .fault (.bufferIndex b j)

/-- `BUF_X[j] <- v` (R17). -/
def bufWrite (b : Buf) (j : Nat) (v : Byte) (s : State) : Result State :=
  if j < s.cfg.capacityBytes then .next (s.setBuf b (Memory.write (s.buf b) j v)) else .fault (.bufferIndex b j)

/-- `MemRead(X, j, n)`: bytes `j` to `j + n - 1` (R17). -/
def memRead (b : Buf) : Nat → Nat → State → Result (List Byte)
  | _, 0, _ => .next []
  | j, n + 1, s => andThen (bufRead b j s) fun v => andThen (memRead b (j + 1) n s) fun vs => .next (v :: vs)

/-- `MemWrite(X, j, n, bytes)`: bytes `j` to `j + n - 1` take the listed values (R17). -/
def memWrite (b : Buf) : Nat → List Byte → State → Result State
  | _, [], s => .next s
  | j, v :: vs, s => andThen (bufWrite b j v s) fun s => memWrite b (j + 1) vs s

/-- `BitRead(X, i) = bit(BUF_X[i div 8], i mod 8)` (R17, 20_memory.md R71). -/
def bitRead (b : Buf) (i : Nat) (s : State) : Result Bool :=
  andThen (bufRead b (i / 8) s) fun v => .next (bitOf v (i % 8))

/-- `BitWrite(X, i, s)`: bit `i mod 8` of `BUF_X[i div 8]` takes the level, the byte's other bits stay (R17). -/
def bitWrite (b : Buf) (i : Nat) (level : Bool) (s : State) : Result State :=
  andThen (bufRead b (i / 8) s) fun v => bufWrite b (i / 8) (withBit v (i % 8) level) s

/-! ### The trace and the state register -/

/-- `emit E` (00_scope.md R18). -/
def State.emit (s : State) (e : Event) : State := { s with trace := s.trace ++ [e] }

/-- `state <- S_x` (R18), W being outside any transfer or serializer run of the new state. -/
def State.goto (s : State) (d : DState) : State := { s with dstate := d, busy := false }

/-! ### Termination: the block's trap (60_exceptions.md section 2) -/

/-- `raise Terminate(reason)` sets `DSTATE <- S_END` (40_dispatcher.md R166, R236). -/
def State.raise (s : State) (reason : Reason) : State := { s.goto .sEnd with endReason := reason }

/-- The termination step `S_END` (R236): `LAST_REASON <- reason`, `SessionEnd(reason)`, the stream goes back to A, and W
is in `S_WAIT`. Lines, buffers and command registers stay. -/
def State.endSession (s : State) : State :=
  { s.goto .sWait with
    lastReason := s.endReason
    sessActive := false
    stream := none
    trace := s.trace ++ [.sessionEnd s.endReason] }

/-- Taking a termination as a whole: the raise and then its `S_END` step. -/
def State.terminate (s : State) (reason : Reason) : State := (s.raise reason).endSession

/-- `SessionStart(stream)` (40_dispatcher.md R140): A hands W a stream. The session's TX stream is empty then. -/
def State.startSession (s : State) (o : Offer) : State :=
  { s.goto .sTag with
    sessActive := true
    stream := some o.handle
    link := { o.link with got := [] }
    trace := s.trace ++ [.sessionStart] }

/-! ### The RX stream -/

/-- What H answers to `StreamRead(m)` (20_memory.md R81): the next bytes with the stream as it is then, the result
`-e ≤ 0`, or nothing (R84). -/
inductive ReadAnswer where
  | bytes (data : List Byte) (after : Link)
  | stop (e : Nat)
  | silent
  deriving DecidableEq, Repr

/-- How many bytes a read of `m` returns: what the script says, but at least 1 and at most `m`, and no more than H
sends; everything asked for when the script says nothing (R81, R82; log 22). -/
def Link.readCount (l : Link) (m : Nat) : Nat := min (min (max (l.splits.headD m) 1) m) l.rx.length

/-- `StreamRead(m)`, `m ≥ 1` (R81): it consumes the bytes it returns. -/
def streamRead (m : Nat) (l : Link) : ReadAnswer :=
  match l.rx with
  | [] =>
    match l.rxEnd with
    | some e => .stop e
    | none => .silent
  | _ :: _ => .bytes (l.rx.take (l.readCount m))
      { l with rx := l.rx.drop (l.readCount m), splits := l.splits.tail }

/-- `dst[j] <- v` (R80): a byte of a transfer reaches its destination; `SINK` discards it. -/
def storeByte (dst : FrDst) (j : Nat) (v : Byte) (s : State) : Result State :=
  match dst with
  | .sink => .next s
  | .tag => if h : j < 2 then .next { s with tag := s.tag.set j v h } else .fault (.transferIndex dst j)
  | .period => if h : j < 4 then .next { s with period := s.period.set j v h } else .fault (.transferIndex dst j)
  | .hdr => if h : j < 8 then .next { s with hdr := s.hdr.set j v h } else .fault (.transferIndex dst j)
  | .tmsBuf => bufWrite .tms j v s
  | .tdiBuf => bufWrite .tdi j v s

/-- `for k in 0 .. r-1: dst[j + k] <- bytes[k]` (R80). -/
def storeBytes (dst : FrDst) : Nat → List Byte → State → Result State
  | _, [], s => .next s
  | j, v :: vs, s => andThen (storeByte dst j v s) fun s => storeBytes dst (j + 1) vs s

/-! ### The TX stream -/

/-- What H has of a response of which the write returned `a.k` (R88): all of it, exactly the first `k` bytes, or, for
`k ≤ 0`, the prefix the answer says. -/
def WriteAnswer.received (a : WriteAnswer) (bytes : List Byte) : List Byte :=
  if 0 < a.k then bytes.take a.k.toNat else bytes.take a.delivered

/-- The state after H answered a write of `bytes` with `a`: the answer is used up, H has its bytes, and `Tx(bytes, k)`
is in the trace (R86). -/
def State.wrote (s : State) (bytes : List Byte) (a : WriteAnswer) : State :=
  { s with
    link := { s.link with writes := s.link.writes.tail, got := s.link.got ++ a.received bytes }
    trace := s.trace ++ [.tx bytes a.k] }

/-- The response write of a state `S_*_RSP` (R86, R87, 40_dispatcher.md R145, R148, R162): with nothing to write it goes
on; otherwise it is one `StreamWrite`, which goes on to the next frame when H takes every byte, and terminates with
`TX_FAIL` or `SHORT_WRITE` when not. While H does not answer, W waits (R89). -/
def respWrite (bytes : List Byte) (s : State) : Result State :=
  if bytes.isEmpty then .next (s.goto .sTag)
  else
    match s.link.writes with
    | [] => .next s
    | a :: _ =>
      match classifyWrite bytes.length a.k with
      | .ok => .next ((s.wrote bytes a).goto .sTag)
      | .failTransport => .next ((s.wrote bytes a).raise .txFail)
      | .failShort => .next ((s.wrote bytes a).raise .shortWrite)
      | .outOfRange => .refused .writeAboveRequest

/-! ### The GPIO lines (42_gpio_interface.md) -/

/-- `S ∩ C = ∅` (R212). -/
def LineSet.disjoint (s c : LineSet) : Bool := !(s.tck && c.tck) && !(s.tms && c.tms) && !(s.tdi && c.tdi)

/-- The level of one line after an update: high if set, low if cleared, else unchanged (R211, R219). -/
def levelAfter (inS inC old : Bool) : Bool := if inS then true else if inC then false else old

/-- The lines after `GpioSetClr(S, C)`, all in one update (R211). -/
def Lines.update (l : Lines) (s c : LineSet) : Lines :=
  { tck := levelAfter s.tck c.tck l.tck, tms := levelAfter s.tms c.tms l.tms, tdi := levelAfter s.tdi c.tdi l.tdi }

/-- `GpioSetClr(S, C)` (R211); a call whose sets meet is refused (R212, I17). -/
def gpioSetClr (sset cset : LineSet) (s : State) : Result State :=
  if sset.disjoint cset then
    .next { s with
      lines := s.lines.update sset cset
      trace := s.trace ++ [.setClr sset cset (s.lines.update sset cset)] }
  else .refused .overlappingSetClr

/-- `GpioRead()` (R213): the level T presents, and the state after it. The script's next level; `L_TDI` under the wire
loopback (R218); a free value when the script is used up (log 5). -/
def gpioRead (s : State) : Bool × State :=
  match s.target with
  | .levels (b :: rest) => (b, { s.emit (.sample b) with target := .levels rest })
  | .levels [] =>
    (Config.freeTdoLevel s.freeIdx, { s.emit (.sample (Config.freeTdoLevel s.freeIdx)) with freeIdx := s.freeIdx + 1 })
  | .wireLoopback => (s.lines.tdi, s.emit (.sample s.lines.tdi))

end Sys2Proof.Machine
end

