-- ==== Sys2Proof/Machine/FrameReader.lean ====
section
/-! DEFINITION. The Frame Reader (20_memory.md section 4): the exact-count accumulation loop, one underlying read at a
time, and a transfer as a whole. -/

namespace Sys2Proof.Machine

/-- `FR_DST <- dst; FR_N <- n; FR_GOT <- 0` (R80): a transfer begins. -/
def frStart (dst : FrDst) (n : Nat) (s : State) : State :=
  { s with frDst := dst, frN := n, frGot := 0, busy := true }

/-- One turn of the loop of R80: a read of exactly the remaining count (R82), its bytes stored and counted; or the end
of the loop. A transfer of 0 bytes reads nothing (R83). -/
def frTurn (s : State) : Result (Progress × State) :=
  if s.frGot < s.frN then
    match streamRead (s.frN - s.frGot) s.link with
    | .silent => .next (.waiting, s)
    | .stop e => .next (.failed, s.emit (.rx (s.frN - s.frGot) (-(e : Int)) []))
    | .bytes data after =>
      andThen
        (storeBytes s.frDst s.frGot data
          ({ s with link := after }.emit (.rx (s.frN - s.frGot) data.length data)))
        fun t => .next (.more, { t with frGot := s.frGot + data.length })
  else .next (.done, s)

/-- The loop of R80, at most `fuel` turns. -/
def frLoop : Nat → State → Result (Progress × State)
  | 0, s => .next (.more, s)
  | fuel + 1, s =>
    andThen (frTurn s) fun r =>
      match r.1 with
      | .more => frLoop fuel r.2
      | _ => .next r

/-- `FrameRead(dst, n)` (R80). Every turn but the last stores at least one byte, so `n + 1` turns are enough. -/
def frameRead (dst : FrDst) (n : Nat) (s : State) : Result (Progress × State) := frLoop (n + 1) (frStart dst n s)

/-- What the caller does with a transfer: `OK` goes on with `onDone`, `FAIL(r)` terminates the session with `reason`
(R85), and otherwise W stays in the transfer. -/
def frSettle (reason : Reason) (onDone : State → State) (r : Progress × State) : Result State :=
  match r.1 with
  | .done => .next (onDone r.2)
  | .failed => .next (r.2.raise reason)
  | .more => .next r.2
  | .waiting => .next r.2

/-- A state of the dispatcher that is one transfer, run as a whole. -/
def transfer (dst : FrDst) (n : Nat) (reason : Reason) (onDone : State → State) (s : State) : Result State :=
  andThen (frameRead dst n s) (frSettle reason onDone)

/-- One atomic action of W in such a state: the transfer begins, or its loop takes one turn. -/
def transferTick (dst : FrDst) (n : Nat) (reason : Reason) (onDone : State → State) (s : State) : Result State :=
  if s.busy then andThen (frTurn s) (frSettle reason onDone) else .next (frStart dst n s)

end Sys2Proof.Machine
end

