-- ==== Sys2Proof/Machine/Serializer.lean ====
section
/-! DEFINITION. The serializer (41_shift_engine.md): the walk of `SE_PHASE` and `SE_I`, one GPIO operation at a time
(42_gpio_interface.md R214), and a run as a whole. -/

namespace Sys2Proof.Machine

/-- The idle update `GpioSetClr({TMS}, {TCK, TDI})` of steps 1 and 4 (R181, R191). -/
def idleUpdate (s : State) : Result State :=
  gpioSetClr { tck := false, tms := true, tdi := false } { tck := true, tms := false, tdi := true } s

/-- Step 2b: TMS to `t`, TDI to `d` and TCK to 0 in one update (R184, D11). -/
def driveUpdate (t d : Bool) (s : State) : Result State :=
  gpioSetClr { tck := false, tms := t, tdi := d } { tck := true, tms := !t, tdi := !d } s

/-- Step 2d: TCK to 1, and no other line named (R188, D12). -/
def raiseUpdate (s : State) : Result State :=
  gpioSetClr { tck := true, tms := false, tdi := false } { tck := false, tms := false, tdi := false } s

/-- `ShiftEngine(BITCNT)` is called: the serializer stands before step 1. A call above `MAX_BITS` is refused (R189,
I16). -/
def seStart (s : State) : Result State :=
  if s.bitCnt.toNat ≤ s.cfg.maxBits then .next { s with busy := true, sePhase := .pIdleIn } else .refused .shiftTooLong

/-- The phase the loop test `SE_I < n` leads to, for the bit index `i` (R180, R182). -/
def loopPhase (s : State) (i : Nat) : SePhase := if i < s.bitCnt.toNat then .pDrive else .pIdleOut

/-- What `SE_I` holds after `i` is written to it: a register of `Config.seIBits` bits, which `MAX_BITS` fits (10_state.md
R38), so no run sees it wrap. -/
def seIndex (c : Config) (i : Nat) : Nat := i % 2 ^ c.seIBits

/-- The operation `SE_PHASE` names, and the move to the next phase (R180, R187). `pDone` returns to the dispatcher,
which goes to `S_SH_RSP` (40_dispatcher.md R159). -/
def seTick (s : State) : Result State :=
  match s.sePhase with
  | .pIdleIn => andThen (idleUpdate s) fun s => .next { s with seI := 0, sePhase := loopPhase s 0 }
  | .pDrive =>
    andThen (bitRead .tms s.seI s) fun t => andThen (bitRead .tdi s.seI s) fun d =>
      andThen (driveUpdate t d s) fun s => .next { s with sePhase := .pSample }
  | .pSample =>
    andThen (bitWrite .tdo s.seI (gpioRead s).1 (gpioRead s).2) fun s => .next { s with sePhase := .pRaise }
  | .pRaise =>
    andThen (raiseUpdate s) fun s =>
      .next { s with seI := seIndex s.cfg (s.seI + 1), sePhase := loopPhase s (seIndex s.cfg (s.seI + 1)) }
  | .pIdleOut => andThen (idleUpdate s) fun s => .next { s with sePhase := .pDone }
  | .pDone => .next (s.goto .sShRsp)

/-- The serializer's operations until it returns to the dispatcher, at most `fuel` of them. -/
def seLoop : Nat → State → Result State
  | 0, s => .next s
  | fuel + 1, s => if s.dstate = .sShRun then andThen (seTick s) (seLoop fuel) else .next s

/-- State `S_SH_RUN` as a whole (40_dispatcher.md R159, R160): the two idle updates, three operations a bit, and the
return: `3n + 3` operations. -/
def runShRun (s : State) : Result State := andThen (seStart s) (seLoop (3 * s.bitCnt.toNat + 3))

end Sys2Proof.Machine
end

