-- ==== Sys2Proof/Machine/Dispatcher.lean ====
section
/-! DEFINITION. The dispatcher (40_dispatcher.md): what each of the 13 states does, as a whole (`run…`) and one atomic
action of W at a time (`tick`). Both are made of the same operations; they differ only in where they stop. -/

namespace Sys2Proof.Machine

/-! ### What follows each transfer -/

/-- `dispatch(TAG)` (R143): the state a tag leads to; an invalid tag terminates the session with `BAD_TAG` (R165). -/
def afterTag (s : State) : State :=
  match commandOfTag s.tag[0] s.tag[1] with
  | some .getinfo => s.goto .sGeSfx
  | some .settck => s.goto .sSeArg
  | some .shift => s.goto .sShHdr
  | none => s.raise .badTag

/-- `BITCNT <- le32(HDR[4..7])`, then `S_SH_CHK` (R154). -/
def afterHeader (s : State) : State :=
  { s.goto .sShChk with bitCnt := le32 s.hdr[4] s.hdr[5] s.hdr[6] s.hdr[7] }

/-! ### The states as a whole -/

/-- `S_TAG` (R141). -/
def runTag (s : State) : Result State := transfer .tag 2 .tagRxEnd afterTag s

/-- `S_GE_SFX` (R145). -/
def runGeSfx (s : State) : Result State := transfer .sink 6 .rxFail (·.goto .sGeRsp) s

/-- `S_GE_RSP` (R145, R146). -/
def runGeRsp (s : State) : Result State := respWrite (getinfoResponse s.cfg.advertisedN) s

/-- `S_SE_ARG` (R148, R149): 5 suffix bytes discarded, then 4 bytes into `PERIOD`. -/
def runSeArg (s : State) : Result State :=
  andThen (frameRead .sink 5 s) fun r =>
    match r.1 with
    | .done => transfer .period 4 .rxFail (·.goto .sSeRsp) r.2
    | _ => frSettle .rxFail id r

/-- `S_SE_RSP` (R148, R151): the four period bytes, unchanged and in the order received. -/
def runSeRsp (s : State) : Result State := respWrite s.period.toList s

/-- `S_SH_HDR` (R154). -/
def runShHdr (s : State) : Result State := transfer .hdr 8 .rxFail afterHeader s

/-- `S_SH_CHK` (R155, R156): `BYTELEN <- ceil_div8(BITCNT)`, exactly, and the capacity check. -/
def runShChk (s : State) : State :=
  let s := { s with byteLen := BitVec.ofNat 30 (ceilDiv8 s.bitCnt.toNat) }
  if s.cfg.capacityBytes < s.byteLen.toNat then s.raise .oversize else s.goto .sShTms

/-- `S_SH_TMS` (R157). -/
def runShTms (s : State) : Result State := transfer .tmsBuf s.byteLen.toNat .rxFail (·.goto .sShTdi) s

/-- `S_SH_TDI` (R158). -/
def runShTdi (s : State) : Result State := transfer .tdiBuf s.byteLen.toNat .rxFail (·.goto .sShRun) s

/-- The TDO response (R161, R162): `TDO_BUF[0 .. BYTELEN-1]`, the padding bits of its last byte being a free value. -/
def tdoResponse (s : State) : Result (List Byte) :=
  andThen (memRead .tdo 0 s.byteLen.toNat s) fun bytes =>
    .next (withFreePadding s.bitCnt.toNat (Config.freePadding s.freeIdx) bytes)

/-- One free value has been drawn. -/
def State.drewFree (s : State) : State := { s with freeIdx := s.freeIdx + 1 }

/-- `S_SH_RSP` (R162). Each response has padding bits of its own, so the counter of free values moves on. -/
def runShRsp (s : State) : Result State :=
  andThen (tdoResponse s) fun bytes => andThen (respWrite bytes s) fun t =>
    .next (if t.dstate = .sShRsp then t else t.drewFree)

/-- `S_WAIT` (R140): W takes the stream A offers, or waits (R255, D35). -/
def runWait (s : State) : State :=
  match s.offers with
  | [] => s
  | o :: rest => { s with offers := rest }.startSession o

/-- A command that raised a termination goes through its `S_END` step (R166, R236). -/
def finish (s : State) : Result State := .next (if s.dstate = .sEnd then s.endSession else s)

/-- Go on with `run` if the previous state led to `d`; a termination or a wait ends the command's path. -/
def follow (d : DState) (run : State → Result State) (o : Result State) : Result State :=
  andThen o fun s => if s.dstate = d then run s else .next s

/-! ### One atomic action of W -/

/-- One atomic action in `S_SE_ARG`: `FR_DST` says which of the two transfers W is in (R148, R149). -/
def seArgTick (s : State) : Result State :=
  if s.busy then
    if s.frDst = .sink then andThen (frTurn s) (frSettle .rxFail (frStart .period 4))
    else andThen (frTurn s) (frSettle .rxFail (·.goto .sSeRsp))
  else .next (frStart .sink 5 s)

/-- One atomic action of W (00_scope.md R8, 42_gpio_interface.md R214): a transfer begins or takes one turn, one
response write, the capacity check, one GPIO operation, the termination step, or the start of a session. While A or H
does not answer, the state stays (20_memory.md R84, R89; log 4). -/
def tick (s : State) : Result State :=
  match s.dstate with
  | .sWait => .next (runWait s)
  | .sTag => transferTick .tag 2 .tagRxEnd afterTag s
  | .sGeSfx => transferTick .sink 6 .rxFail (·.goto .sGeRsp) s
  | .sGeRsp => runGeRsp s
  | .sSeArg => seArgTick s
  | .sSeRsp => runSeRsp s
  | .sShHdr => transferTick .hdr 8 .rxFail afterHeader s
  | .sShChk => .next (runShChk s)
  | .sShTms => transferTick .tmsBuf s.byteLen.toNat .rxFail (·.goto .sShTdi) s
  | .sShTdi => transferTick .tdiBuf s.byteLen.toNat .rxFail (·.goto .sShRun) s
  | .sShRun => if s.busy then seTick s else seStart s
  | .sShRsp => runShRsp s
  | .sEnd => .next s.endSession

/-- `k` atomic actions of W. -/
def ticks : Nat → State → Result State
  | 0, s => .next s
  | k + 1, s => andThen (tick s) (ticks k)

end Sys2Proof.Machine
end

