-- ==== Sys2Proof/Machine/Fetch.lean ====
section
/-! DEFINITION. Where a command comes from: the frame boundary, the frame that stands there, and the placing of a frame
on the RX stream. -/

namespace Sys2Proof.Machine

/-- W is at a frame boundary: in `S_TAG`, with no byte of a tag read yet (40_dispatcher.md R142). -/
def State.atFrameBoundary (s : State) : Bool := decide (s.dstate = .sTag) && !s.busy

/-- The state with the RX stream replaced. -/
def State.withRx (s : State) (bytes : List Byte) : State := { s with link := { s.link with rx := bytes } }

/-- The frame at W's frame boundary, when H sends all of it, and the bytes after it (30_encoding.md R121). -/
def frameAt (s : State) : Option (Instr × List Byte) :=
  if s.atFrameBoundary then
    match decode s.cfg.capacityBytes s.link.rx with
    | .ok r => some r
    | .error _ => none
  else none

/-- W stands at a frame boundary and `frame` is what H sends next, before the bytes already on the stream. -/
def State.beginFrame (s : State) (frame : List Byte) : State :=
  { s with dstate := .sTag, busy := false, link := { s.link with rx := frame ++ s.link.rx } }

/-- Which stream a session placed by hand has: the one there is, else handle 0. -/
def State.someStream (s : State) : Nat := s.stream.getD 0

end Sys2Proof.Machine
end

