-- ==== Sys2Proof/Machine/Getinfo.lean ====
section
/-! DEFINITION. GETINFO (40_dispatcher.md section 2). -/

namespace Sys2Proof.Machine

/-- GETINFO (R145): the tag, the 6 suffix bytes discarded, the fixed response. -/
def execGetinfo (suffix : Vector Byte 6) (s : State) : Result State :=
  andThen (follow .sGeRsp runGeRsp (follow .sGeSfx runGeSfx (runTag (s.beginFrame (encode (.getinfo suffix)))))) finish

end Sys2Proof.Machine
end

