-- ==== Sys2Proof/Machine/Invalid.lean ====
section
/-! DEFINITION. An invalid tag (40_dispatcher.md section 5). -/

namespace Sys2Proof.Machine

/-- INVALID (R165): the tag, and `raise Terminate(BAD_TAG)`, with the termination step after it. -/
def execInvalid (tag : Vector Byte 2) (s : State) : Result State :=
  andThen (runTag (s.beginFrame (encode (.invalid tag)))) finish

end Sys2Proof.Machine
end

