-- ==== Sys2Proof/Machine/Settck.lean ====
section
/-! DEFINITION. SETTCK (40_dispatcher.md section 3). -/

namespace Sys2Proof.Machine

/-- SETTCK (R148): the tag, 5 suffix bytes discarded, the 4 period bytes into `PERIOD`, and their echo. -/
def execSettck (suffix : Vector Byte 5) (period : BitVec 32) (s : State) : Result State :=
  andThen
    (follow .sSeRsp runSeRsp (follow .sSeArg runSeArg (runTag (s.beginFrame (encode (.settck suffix period))))))
    finish

end Sys2Proof.Machine
end

