-- ==== Sys2Proof/Machine/Shift.lean ====
section
/-! DEFINITION. SHIFT (40_dispatcher.md section 4). -/

namespace Sys2Proof.Machine

/-- SHIFT (R153, R164): the tag, the header, the capacity check, the TMS and the TDI vector, the serializer, the TDO
response. -/
def execShift (suffix : Vector Byte 4) (bitCount : BitVec 32) (tms tdi : List Byte) (s : State) : Result State :=
  andThen
    (follow .sShRsp runShRsp <|
      follow .sShRun runShRun <|
      follow .sShTdi runShTdi <|
      follow .sShTms runShTms <|
      follow .sShChk (fun s => .next (runShChk s)) <|
      follow .sShHdr runShHdr <|
      runTag (s.beginFrame (encode (.shift suffix bitCount tms tdi))))
    finish

end Sys2Proof.Machine
end

