-- ==== Sys2Proof/Machine/Dispatch.lean ====
section
/-! DEFINITION. The meaning of each command, W being at a frame boundary. -/

namespace Sys2Proof.Machine

def exec (i : Instr) (s : State) : Host.Outcome State Fault Refusal :=
  match i with
  | .getinfo suffix => Sys2Proof.Machine.execGetinfo suffix s
  | .settck suffix period => Sys2Proof.Machine.execSettck suffix period s
  | .shift suffix bitCount tms tdi => Sys2Proof.Machine.execShift suffix bitCount tms tdi s
  | .invalid tag => Sys2Proof.Machine.execInvalid tag s

end Sys2Proof.Machine
end

