-- ==== Sys2Proof/Machine/Step.lean ====
section
/-! DEFINITION. One step of the machine. -/

namespace Sys2Proof.Machine

/-- One step of W. At a frame boundary where H sends a whole frame, the step is that command, from its tag to its
response or its termination (40_dispatcher.md R167); anywhere else it is one atomic action of W (log 8). -/
def step (s : State) : Host.Outcome State Fault Refusal :=
  match frameAt s with
  | some (i, rest) => exec i (s.withRx rest)
  | none => tick s

/-- `s` with a session whose RX stream starts with the frame of the table word `w`, W being at its frame boundary: what
A and H do before a command runs (log 15). -/
def State.withFetchWord (s : State) (nbits w : Nat) : State :=
  { s.beginFrame (tableFrame s.cfg.capacityBytes nbits w) with sessActive := true, stream := some s.someStream }

end Sys2Proof.Machine
end

