-- ==== Sys2Proof/Machine/Environment.lean ====
section
/-! DEFINITION. What the agents outside the block can do to it between two steps of W (00_scope.md R8, 60_exceptions.md
R246, R257), and the reset event (70_reset_and_hazards.md R270). Each changes the environment's side of the state
only; the reset changes the block's. -/

namespace Sys2Proof.Machine

/-- H sends bytes on the active session's stream (R257); they follow what it sent before. -/
def State.hostSends (s : State) (bytes : List Byte) : State :=
  { s with link := { s.link with rx := s.link.rx ++ bytes } }

/-- H sends bytes piece by piece (R81, R257): each piece after so many atomic actions of W more. -/
def State.hostSendsInPieces : List (Nat × List Byte) → State → Result State
  | [], s => .next s
  | (k, bytes) :: later, s => andThen (ticks k s) fun t => State.hostSendsInPieces later (t.hostSends bytes)

/-- H closes the stream (`e = 0`, R126 `EOF`) or the stream fails (`e > 0`): the read after the last byte returns `-e`
(20_memory.md R81). -/
def State.hostCloses (s : State) (e : Nat) : State := { s with link := { s.link with rxEnd := some e } }

/-- H decides how the reads to come are split (R81, R257). -/
def State.hostSplits (s : State) (counts : List Nat) : State :=
  { s with link := { s.link with splits := s.link.splits ++ counts } }

/-- H answers one more write (R90). -/
def State.hostAnswersWrite (s : State) (a : WriteAnswer) : State :=
  { s with link := { s.link with writes := s.link.writes ++ [a] } }

/-- A has one more stream to hand to W (R246); W takes it in `S_WAIT` only (R247). -/
def State.acceptorOffers (s : State) (o : Offer) : State := { s with offers := s.offers ++ [o] }

/-- T will present these levels next (42_gpio_interface.md R213). -/
def State.targetPresents (s : State) (levels : List Bool) : State :=
  match s.target with
  | .levels script => { s with target := .levels (script ++ levels) }
  | .wireLoopback => { s with target := .levels levels }

/-- The test double of R218 takes T's place. -/
def State.withWireLoopback (s : State) : State := { s with target := .wireLoopback }

/-- Power-on or hardware reset (70_reset_and_hazards.md R270), at any time (R274): the session is abandoned, the registers
take their reset values, and a new trace begins (R256). Reset drives no line and writes no buffer (R270, 10_state.md R39,
R41), so both hold what they held. The configuration (R42), A's streams, T and the counter of free values are not the
block's and stay (log 23). -/
def State.hardReset (s : State) : State :=
  { State.reset with
    cfg := s.cfg, lines := s.lines, tmsBuf := s.tmsBuf, tdiBuf := s.tdiBuf, tdoBuf := s.tdoBuf
    offers := s.offers, target := s.target, freeIdx := s.freeIdx }

end Sys2Proof.Machine
end

