-- ==== Sys2Proof/Safety.lean ====
section
/-! DEFINITION. What counts as a good state and a safe run, and the vocabulary claims speak of the trace in
(00_scope.md R19). -/

namespace Sys2Proof.Machine

/-! ### The trace -/

/-- The bytes a stream read returned. -/
def Event.rxData : Event → List Byte
  | .rx _ _ data => data
  | _ => []

/-- A stream read, whatever it returned. -/
def Event.isRx : Event → Bool
  | .rx _ _ _ => true
  | _ => false

/-- A stream read that returned bytes, in the range of its draw (20_memory.md R81): at least 1, at most what was asked. -/
def Event.isRead : Event → Bool
  | .rx m r data => decide (r = data.length) && decide (0 < data.length) && decide (data.length ≤ m)
  | _ => false

/-- A stream write. -/
def Event.isTx : Event → Bool
  | .tx _ _ => true
  | _ => false

/-- A GPIO event. -/
def Event.isGpio : Event → Bool
  | .setClr _ _ _ => true
  | .sample _ => true
  | _ => false

/-- A `GpioSetClr` event. -/
def Event.isSetClr : Event → Bool
  | .setClr _ _ _ => true
  | _ => false

/-- A TDO sample. -/
def Event.isSample : Event → Bool
  | .sample _ => true
  | _ => false

/-- The events are successful stream reads, and the bytes they returned are exactly `bytes`, in order. -/
structure Receives (events : List Event) (bytes : List Byte) : Prop where
  allReads : ∀ e ∈ events, e.isRead = true
  bytesAre : events.flatMap Event.rxData = bytes

/-- The idle levels `(TCK, TMS, TDI) = (0, 1, 0)` (R20, 41_shift_engine.md R181). -/
def Lines.idle : Lines := { tck := false, tms := true, tdi := false }

/-- The idle update's event (R181, R191). -/
def idleEvent : Event :=
  .setClr { tck := false, tms := true, tdi := false } { tck := true, tms := false, tdi := true } Lines.idle

/-- The three events of one bit (R192): `SetClr(0,t,d)`, `Sample(s)`, `SetClr(1,t,d)`, with the sets of R180. -/
def bitEvents (t d s : Bool) : List Event :=
  [.setClr { tck := false, tms := t, tdi := d } { tck := true, tms := !t, tdi := !d } { tck := false, tms := t, tdi := d },
   .sample s,
   .setClr { tck := true, tms := false, tdi := false } { tck := false, tms := false, tdi := false }
     { tck := true, tms := t, tdi := d }]

/-- The events of a shift whose bit `i` drives `t i` and `d i` and samples `s i`, for `i < n` (R192). -/
def shiftEvents (n : Nat) (t d s : Nat → Bool) : List Event :=
  [idleEvent] ++ (List.range n).flatMap (fun i => bitEvents (t i) (d i) (s i)) ++ [idleEvent]

/-- How many rising edges of TCK the updates make, TCK being at `tck` before them. -/
def risingEdges : Bool → List Event → Nat
  | _, [] => 0
  | tck, .setClr _ _ l :: rest => (if !tck && l.tck then 1 else 0) + risingEdges l.tck rest
  | tck, _ :: rest => risingEdges tck rest

/-- How many falling edges of TCK the updates make. -/
def fallingEdges : Bool → List Event → Nat
  | _, [] => 0
  | tck, .setClr _ _ l :: rest => (if tck && !l.tck then 1 else 0) + fallingEdges l.tck rest
  | tck, _ :: rest => fallingEdges tck rest

/-- Bit `i` of a buffer (20_memory.md R71). -/
def Memory.bit (m : Memory) (i : Nat) : Bool := bitOf (Memory.read m (i / 8)) (i % 8)

/-! ### Good states -/

/-- What W is inside of when `busy` is set, state by state: the transfer of 40_dispatcher.md, or the serializer at a bit
index below its bound (41_shift_engine.md R187). -/
def State.BusyFits (s : State) : Prop :=
  match s.dstate with
  | .sTag => s.frDst = .tag ∧ s.frN = 2 ∧ s.frGot ≤ s.frN
  | .sGeSfx => s.frDst = .sink ∧ s.frN = 6 ∧ s.frGot ≤ s.frN
  | .sSeArg => ((s.frDst = .sink ∧ s.frN = 5) ∨ (s.frDst = .period ∧ s.frN = 4)) ∧ s.frGot ≤ s.frN
  | .sShHdr => s.frDst = .hdr ∧ s.frN = 8 ∧ s.frGot ≤ s.frN
  | .sShTms => s.frDst = .tmsBuf ∧ s.frN = s.byteLen.toNat ∧ s.frGot ≤ s.frN
  | .sShTdi => s.frDst = .tdiBuf ∧ s.frN = s.byteLen.toNat ∧ s.frGot ≤ s.frN
  | .sShRun =>
    match s.sePhase with
    | .pIdleIn => True
    | .pDrive => s.seI < s.bitCnt.toNat
    | .pSample => s.seI < s.bitCnt.toNat
    | .pRaise => s.seI < s.bitCnt.toNat
    | .pIdleOut => s.seI = s.bitCnt.toNat
    | .pDone => s.seI = s.bitCnt.toNat
  | _ => False

/-- The states between the capacity check and the end of a shift. -/
def DState.afterCheck : DState → Bool
  | .sShTms => true
  | .sShTdi => true
  | .sShRun => true
  | .sShRsp => true
  | _ => false

/-- The invariant of the machine. -/
structure State.Inv (s : State) : Prop where
  /-- The buffers are canonical and hold nothing at an index that does not exist (20_memory.md R92). -/
  tmsWf : Memory.wf s.cfg.capacityBytes s.tmsBuf = true
  tdiWf : Memory.wf s.cfg.capacityBytes s.tdiBuf = true
  tdoWf : Memory.wf s.cfg.capacityBytes s.tdoBuf = true
  /-- `SESS_ACTIVE` is 1 exactly outside `S_WAIT`, and `STREAM` is held exactly then (10_state.md R32). -/
  session : s.sessActive = decide (s.dstate ≠ .sWait)
  streamHeld : s.stream.isSome = s.sessActive
  /-- W is inside an operation only in a state that has one, and its registers are that operation's. -/
  busyFits : s.busy = true → s.BusyFits
  /-- After the capacity check the byte length is the exact ceiling and fits the buffers (40_dispatcher.md R155, R156). -/
  lengthChecked : s.dstate.afterCheck = true →
    s.byteLen.toNat = ceilDiv8 s.bitCnt.toNat ∧ s.byteLen.toNat ≤ s.cfg.capacityBytes
  /-- `SE_I` fits its register in every state, not only inside a shift (10_state.md R38). -/
  indexFits : s.seI < 2 ^ s.cfg.seIBits

/-- The serializer is between its two idle updates, or before the first. -/
def State.midShift (s : State) : Bool :=
  decide (s.dstate = .sShRun) && s.busy && decide (s.sePhase ≠ .pDone)

/-- The idle invariant of 41_shift_engine.md R196: once a line has been driven, the lines are idle outside a shift. -/
def State.IdleOutsideShifts (s : State) : Prop :=
  s.midShift = false → s.trace.any Event.isSetClr = true → s.lines = Lines.idle

/-- How many bytes the response to a frame has (30_encoding.md R116); an oversize shift has none (R156). -/
def responseLength (c : Config) : Instr → Nat
  | .getinfo _ => (getinfoResponse c.advertisedN).length
  | .settck _ _ => 4
  | .shift _ bitCount _ _ => if ceilDiv8 bitCount.toNat ≤ c.capacityBytes then ceilDiv8 bitCount.toNat else 0
  | .invalid _ => 0

/-- A safe run: no number of steps reaches a fault (60_exceptions.md R235). -/
def State.Safe (s : State) : Prop := ∀ (k : Nat) (r : Fault), Sys2Proof.core.run k s ≠ .fault r

end Sys2Proof.Machine
end

