-- ==== Sys2Proof/Certificates/Slice0/Obligations.lean ====
section
/-! DEFINITION. The statements for the provers, from the numbered rules of spec/. Where a statement speaks of a whole
next state it does so by one equation, `{ s with … }`: what the equation does not list is unchanged (the frame). -/

open Sys2Proof Sys2Proof.Machine

/-! ### Reset -/

/-- Reset leaves W waiting for a session (R46, R270): no session, no stream, no reason, an empty trace, the
configuration untouched. It drives no line and writes no buffer (R270, R39, R41): the three lines and every byte of the
three buffers are what they were, whatever they were. Then W stays as it is until A offers a stream, and takes the first
one offered. The reset values are the spec's own decision D2 (log 26); the values of the registers R46 calls unspecified
are not spoken of here (log 1). The model's choices are that the levels and contents R270 calls unspecified after a
reset are those before it, that a reset keeps A's streams to come, so that W takes the first of them afterwards (log
23), and that the trace is kept in the state, which a reset empties (log 18, log 23). That a wait answers the same state
is log 4 (DEDUCED). -/
def Obligations.ResetWaitsForASession : Prop :=
  State.reset.hardReset = State.reset ∧
  ∀ s : State,
    s.hardReset.dstate = .sWait ∧ s.hardReset.sessActive = false ∧ s.hardReset.stream = none ∧
    s.hardReset.lastReason = .none ∧ s.hardReset.trace = [] ∧ s.hardReset.cfg = s.cfg ∧
    s.hardReset.lines = s.lines ∧ (∀ b, s.hardReset.buf b = s.buf b) ∧
    (s.offers = [] → step s.hardReset = .next s.hardReset) ∧
    ∀ o rest, s.offers = o :: rest → ∃ t, step s.hardReset = .next t ∧ t.dstate = .sTag ∧ t.sessActive = true ∧
      t.stream = some o.handle ∧ t.trace = [.sessionStart]

/-- The state after reset meets the invariant and the idle invariant. So does the state after a reset at any time, whatever
W was doing; since a reset keeps the buffers (R270, log 23), they must be canonical before it, and nothing else is asked.
-/
def Obligations.ResetMeetsInvariant : Prop :=
  State.reset.Inv ∧ State.reset.IdleOutsideShifts ∧
  ∀ s : State, s.hardReset.IdleOutsideShifts ∧
    ((∀ b, Memory.wf s.cfg.capacityBytes (s.buf b) = true) → s.hardReset.Inv)

/-! ### Encoding -/

/-- Frames written out byte by byte from 30_encoding.md and 95_test_vectors.md decode to the commands they stand for: in
order W1's GETINFO, V-C3's SETTCK, W3's SHIFT, V-C3's SHIFT of 3 bits, W5's oversize header, and V-C1's invalid tag "GE".
The last byte of the W3, the W5 and the V-C1 line is the host's next byte, which is not consumed. -/
def Obligations.SpecFramesDecode : Prop :=
  decode 2048 [0x67, 0x65, 0x74, 0x69, 0x6E, 0x66, 0x6F, 0x3A] =
    .ok (.getinfo #v[0x74, 0x69, 0x6E, 0x66, 0x6F, 0x3A], []) ∧
  decode 2048 [0x73, 0x65, 0x74, 0x74, 0x63, 0x6B, 0x3A, 0x78, 0x56, 0x34, 0x12] =
    .ok (.settck #v[0x74, 0x74, 0x63, 0x6B, 0x3A] 0x12345678, []) ∧
  decode 2048 [0x73, 0x68, 0x69, 0x66, 0x74, 0x3A, 0x08, 0x00, 0x00, 0x00, 0x00, 0xAA, 0x67] =
    .ok (.shift #v[0x69, 0x66, 0x74, 0x3A] 8 [0x00] [0xAA], [0x67]) ∧
  decode 2048 [0x73, 0x68, 0x69, 0x66, 0x74, 0x3A, 0x03, 0x00, 0x00, 0x00, 0x05, 0x06] =
    .ok (.shift #v[0x69, 0x66, 0x74, 0x3A] 3 [0x05] [0x06], []) ∧
  decode 2048 [0x73, 0x68, 0x69, 0x66, 0x74, 0x3A, 0x01, 0x40, 0x00, 0x00, 0x55] =
    .ok (.shift #v[0x69, 0x66, 0x74, 0x3A] 16385 [] [], [0x55]) ∧
  decode 2048 [0x47, 0x45, 0x74] = .ok (.invalid #v[0x47, 0x45], [0x74])

/-- Decoding the frame of a well-formed command gives the command back, with every operand, and the bytes after the
frame untouched: for every command, capacity and operand. -/
def Obligations.DecodeOfEncode : Prop :=
  ∀ (capacity : Nat) (i : Instr) (rest : List Byte), WellFormed capacity i →
    decode capacity (encode i ++ rest) = .ok (i, rest)

/-- The other direction: what the decoder gives is well formed, and its frame is the bytes the decoder consumed, so no
byte of a frame is dropped or changed. -/
def Obligations.EncodeOfDecode : Prop :=
  ∀ (capacity : Nat) (bytes : List Byte) (i : Instr) (rest : List Byte), decode capacity bytes = .ok (i, rest) →
    WellFormed capacity i ∧ encode i ++ rest = bytes

/-- R121: how long a frame is, from its first bytes: 8 for "ge", 11 for "se", `10 + 2L` or 10 for "sh", 2 for any
other tag. -/
def Obligations.FrameLengthFromFirstBytes : Prop :=
  ∀ (capacity : Nat) (bytes : List Byte) (i : Instr) (rest : List Byte), decode capacity bytes = .ok (i, rest) →
    ∃ frame, bytes = frame ++ rest ∧
      (bytes.take 2 = [0x67, 0x65] → frame.length = 8) ∧
      (bytes.take 2 = [0x73, 0x65] → frame.length = 11) ∧
      (bytes.take 2 = [0x73, 0x68] → frame.length =
        if ((le32 (bytes.getD 6 0) (bytes.getD 7 0) (bytes.getD 8 0) (bytes.getD 9 0)).toNat + 7) / 8 ≤ capacity
        then 10 + 2 * (((le32 (bytes.getD 6 0) (bytes.getD 7 0) (bytes.getD 8 0) (bytes.getD 9 0)).toNat + 7) / 8)
        else 10) ∧
      (bytes.take 2 ≠ [0x67, 0x65] → bytes.take 2 ≠ [0x73, 0x65] → bytes.take 2 ≠ [0x73, 0x68] → frame.length = 2)

/-- R117: the first two bytes alone select the command, byte for byte; R119: the suffix bytes are not compared, so any
suffix decodes, of GETINFO, of SETTCK before any period, and of SHIFT before any bit count with its vectors behind it,
or with none above the capacity. That the rule for GETINFO holds for all three is the spec's own decision (D6, log 12).
-/
def Obligations.TagSelectsCommand : Prop :=
  (∀ (capacity : Nat) (t0 t1 : Byte) (bytes : List Byte) (i : Instr) (rest : List Byte),
    decode capacity (t0 :: t1 :: bytes) = .ok (i, rest) →
      ((∃ x, i = .getinfo x) ↔ t0 = 0x67 ∧ t1 = 0x65) ∧
      ((∃ x p, i = .settck x p) ↔ t0 = 0x73 ∧ t1 = 0x65) ∧
      ((∃ x n t d, i = .shift x n t d) ↔ t0 = 0x73 ∧ t1 = 0x68) ∧
      (i = .invalid #v[t0, t1] ↔
        ¬ (t0 = 0x67 ∧ t1 = 0x65) ∧ ¬ (t0 = 0x73 ∧ t1 = 0x65) ∧ ¬ (t0 = 0x73 ∧ t1 = 0x68))) ∧
  (∀ (capacity : Nat) (a b c d e f : Byte) (rest : List Byte),
    decode capacity (0x67 :: 0x65 :: a :: b :: c :: d :: e :: f :: rest) = .ok (.getinfo #v[a, b, c, d, e, f], rest)) ∧
  (∀ (capacity : Nat) (a b c d e p0 p1 p2 p3 : Byte) (rest : List Byte),
    decode capacity (0x73 :: 0x65 :: a :: b :: c :: d :: e :: p0 :: p1 :: p2 :: p3 :: rest) =
      .ok (.settck #v[a, b, c, d, e] (le32 p0 p1 p2 p3), rest)) ∧
  (∀ (capacity : Nat) (a b c d n0 n1 n2 n3 : Byte) (tms tdi rest : List Byte),
    (((le32 n0 n1 n2 n3).toNat + 7) / 8 ≤ capacity →
      tms.length = ((le32 n0 n1 n2 n3).toNat + 7) / 8 → tdi.length = ((le32 n0 n1 n2 n3).toNat + 7) / 8 →
      decode capacity (0x73 :: 0x68 :: a :: b :: c :: d :: n0 :: n1 :: n2 :: n3 :: (tms ++ tdi ++ rest)) =
        .ok (.shift #v[a, b, c, d] (le32 n0 n1 n2 n3) tms tdi, rest)) ∧
    (capacity < ((le32 n0 n1 n2 n3).toNat + 7) / 8 →
      decode capacity (0x73 :: 0x68 :: a :: b :: c :: d :: n0 :: n1 :: n2 :: n3 :: rest) =
        .ok (.shift #v[a, b, c, d] (le32 n0 n1 n2 n3) [] [], rest)))

/-- R15, R73: `le32` is the little-endian value of its four bytes, the first received being bits [7:0], and
`le32bytes` (R126) lists those bytes again. -/
def Obligations.Le32IsLittleEndian : Prop :=
  ∀ b0 b1 b2 b3 : Byte,
    (le32 b0 b1 b2 b3).toNat = b0.toNat + 256 * b1.toNat + 65536 * b2.toNat + 16777216 * b3.toNat ∧
    le32bytes (le32 b0 b1 b2 b3) = #v[b0, b1, b2, b3]

/-- R116: `dec(v)` is the decimal spelling of `v`: its base-10 digits, most significant first, digit `d` as the byte
`0x30 + d`, and one "0" for 0. The decimal spelling with no leading zeros is the spec's own choice (D5), and the bytes
of the digits are general knowledge (G1); the model follows both (log 25). -/
def Obligations.DecIsDecimal : Prop :=
  dec 0 = [0x30] ∧
  ∀ v : Nat, 0 < v → dec v = ((Nat.digits 10 v).reverse.map fun d => BitVec.ofNat 8 (0x30 + d))

/-- R146: the GETINFO response is the ASCII string "xvcServer_v1.0:<N>\n", `<N>` being `dec(ADVERTISED_N)`, of `16 +
digits` bytes; with `ADVERTISED_N = 2048` it is the 20 bytes R146 lists. The spelling of `<N>` is the spec's own choice
(D5) and the ASCII bytes are general knowledge (G1); the model follows both (log 25). -/
def Obligations.GetinfoResponseText : Prop :=
  (∀ n : Nat, getinfoResponse n = ("xvcServer_v1.0:".toList.map fun c => BitVec.ofNat 8 c.toNat) ++ dec n ++ [0x0A] ∧
    (getinfoResponse n).length = 16 + (dec n).length) ∧
  getinfoResponse 2048 = [0x78, 0x76, 0x63, 0x53, 0x65, 0x72, 0x76, 0x65, 0x72, 0x5F, 0x76, 0x31, 0x2E, 0x30, 0x3A,
    0x32, 0x30, 0x34, 0x38, 0x0A]

/-- R126, R127: `SHIFT n, T, D` is a frame exactly when both vectors have `ceil_div8(n)` bytes, and then it is well
formed; `SHIFTBITS` packs the listed bits in shift order into two vectors of `ceil_div8(n)` bytes each, with padding
bits 0. The assembly syntax is the spec's own decision D30 (log 26). -/
def Obligations.AssemblyExpandsToFrames : Prop :=
  (∀ (n : BitVec 32) (t d : List Byte), (Assembly.shift n t d).isSome =
    (decide (t.length = (n.toNat + 7) / 8) && decide (d.length = (n.toNat + 7) / 8))) ∧
  (∀ (capacity : Nat) (n : BitVec 32) (t d : List Byte) (i : Instr), (n.toNat + 7) / 8 ≤ capacity →
    Assembly.shift n t d = some i → WellFormed capacity i ∧
      encode i = [0x73, 0x68, 0x69, 0x66, 0x74, 0x3A] ++ (le32bytes n).toList ++ t ++ d) ∧
  (∀ (t d : List Bool), t.length = d.length → t.length < 2 ^ 32 → ∃ T D : List Byte,
    Assembly.shiftbits t d = some (.shift Assembly.ift (BitVec.ofNat 32 t.length) T D) ∧
    T.length = (t.length + 7) / 8 ∧ D.length = (t.length + 7) / 8 ∧
    (∀ i, vectorBit T i = t.getD i false) ∧ (∀ i, vectorBit D i = d.getD i false))

/-! ### The step -/

/-- At a frame boundary where H sends a whole frame, the step is that command, run on the state without the frame's
bytes; at a boundary without a whole frame, and away from a boundary, it is one atomic action of W (log 8). -/
def Obligations.StepRunsTheDecodedFrame : Prop :=
  (∀ (s : State) (i : Instr) (rest : List Byte), s.dstate = .sTag → s.busy = false →
    decode s.cfg.capacityBytes s.link.rx = .ok (i, rest) →
    step s = exec i { s with link := { s.link with rx := rest } }) ∧
  (∀ (s : State) (e : DecodeError), decode s.cfg.capacityBytes s.link.rx = .error e → step s = tick s) ∧
  (∀ s : State, s.dstate ≠ .sTag ∨ s.busy = true → step s = tick s)

/-- A command is a sequence of atomic actions of W and nothing else: from a frame boundary, some number of them answers
exactly what the command answers (00_scope.md R8, 40_dispatcher.md R164, 41_shift_engine.md R199). -/
def Obligations.CommandIsItsWorkerActions : Prop :=
  ∀ (s : State) (i : Instr) (rest : List Byte), s.dstate = .sTag → s.busy = false →
    decode s.cfg.capacityBytes s.link.rx = .ok (i, rest) →
    ∃ k, ticks k s = exec i { s with link := { s.link with rx := rest } }

/-- A table word placed for fetching runs first: every word is some command, and the next step is that command, in a
session at its frame boundary, for every state of the deployment's configuration. The numbering of the bytes after the
tag is the model's choice (log 14), and so is the session that `withFetchWord` places by hand, with handle 0 where there
is none (log 15). -/
def Obligations.TableWordRunsNext : Prop :=
  ∀ (s : State) (nbits w : Nat), s.cfg = Config.deployment →
    ∃ i, decodeTableWord nbits w = some i ∧
      step (s.withFetchWord nbits w) =
        exec i { s with dstate := .sTag, busy := false, sessActive := true, stream := some (s.stream.getD 0) }

/-- R45, the source's partial-read robustness: however H splits the reads, a command answers alike; only the read
events and the remaining splits differ, and the read events carry the same bytes. -/
def Obligations.ReadSplittingDoesNotMatter : Prop :=
  ∀ (s : State) (i : Instr) (splits : List Nat), WellFormed s.cfg.capacityBytes i →
    (∃ t u, exec i s = .next t ∧ exec i { s with link := { s.link with splits := splits } } = .next u ∧
      u = { t with link := { t.link with splits := u.link.splits }, trace := u.trace } ∧
      u.trace.filter (fun e => !e.isRx) = t.trace.filter (fun e => !e.isRx) ∧
      u.trace.flatMap Event.rxData = t.trace.flatMap Event.rxData) ∨
    (∃ r, exec i s = .refused r ∧ exec i { s with link := { s.link with splits := splits } } = .refused r)

/-- A frame that arrives in pieces, H sending the next piece after any number of W's atomic actions (R81, R84, R257):
W consumes what is there and waits inside the frame, and once the last piece is there, some number of atomic actions
answers what the command answers when the whole frame stands on the stream; only the read events and the remaining
splits differ, and the read events carry the same bytes. Pieces before the last leave the frame incomplete; the last
may hold bytes of later frames too. That W's wait keeps its state, and goes on from it, is log 4 (DEDUCED); that
unanswered reads may wait is the spec's own decision D27 (log 26). -/
def Obligations.FrameInPiecesIsTheWholeFrame : Prop :=
  ∀ (s : State) (pieces : List (Nat × List Byte)) (last : Nat × List Byte) (err : DecodeError) (i : Instr)
    (rest : List Byte), s.dstate = .sTag → s.busy = false → s.link.rxEnd = none →
    decode s.cfg.capacityBytes (s.link.rx ++ pieces.flatMap Prod.snd) = .error err →
    decode s.cfg.capacityBytes (s.link.rx ++ pieces.flatMap Prod.snd ++ last.2) = .ok (i, rest) →
    ∃ t k, State.hostSendsInPieces (pieces ++ [last]) s = .next t ∧
      ((∃ u v, ticks k t = .next u ∧ exec i { s with link := { s.link with rx := rest } } = .next v ∧
          u = { v with link := { v.link with splits := u.link.splits }, trace := u.trace } ∧
          u.trace.filter (fun e => !e.isRx) = v.trace.filter (fun e => !e.isRx) ∧
          u.trace.flatMap Event.rxData = v.trace.flatMap Event.rxData) ∨
        ∃ r, ticks k t = .refused r ∧ exec i { s with link := { s.link with rx := rest } } = .refused r)

/-! ### The commands -/

/-- R145, R146: GETINFO, when H takes the whole response. It reads its 8 frame bytes, writes the response, and is back at
the frame boundary; no register but TAG and the Frame Reader's, no line and no buffer byte changes. -/
def Obligations.GetinfoAnswersTheVersion : Prop :=
  ∀ (s : State) (suffix : Vector Byte 6) (a : WriteAnswer) (ws : List WriteAnswer),
    s.link.writes = a :: ws → a.k = (getinfoResponse s.cfg.advertisedN).length →
    ∃ evs splits, Receives evs (encode (.getinfo suffix)) ∧
      exec (.getinfo suffix) s = .next { s with
        dstate := .sTag, busy := false, tag := #v[0x67, 0x65]
        frDst := .sink, frN := 6, frGot := 6
        link := { s.link with splits := splits, writes := ws, got := s.link.got ++ getinfoResponse s.cfg.advertisedN }
        trace := s.trace ++ evs ++ [.tx (getinfoResponse s.cfg.advertisedN) a.k] }

/-- R148, R151: SETTCK, when H takes the whole echo. PERIOD takes the four period bytes in the order received, the same
four bytes go back, and no line, no serializer register and no buffer byte changes. -/
def Obligations.SettckEchoesThePeriod : Prop :=
  ∀ (s : State) (suffix : Vector Byte 5) (period : BitVec 32) (a : WriteAnswer) (ws : List WriteAnswer),
    s.link.writes = a :: ws → a.k = 4 →
    ∃ evs splits, Receives evs (encode (.settck suffix period)) ∧
      exec (.settck suffix period) s = .next { s with
        dstate := .sTag, busy := false, tag := #v[0x73, 0x65], period := le32bytes period
        frDst := .period, frN := 4, frGot := 4
        link := { s.link with splits := splits, writes := ws, got := s.link.got ++ (le32bytes period).toList }
        trace := s.trace ++ evs ++ [.tx (le32bytes period).toList a.k] }

/-- R153 to R164, R192, R197: SHIFT of at least one bit within the capacity, when H takes the whole response. The
buffers take the vectors, the serializer's events stand in the trace, `TDO_BUF` and the response hold the samples on
bits 0 to n-1, every other bit of `TDO_BUF` is unchanged, and the lines are idle. The response's padding bits and the
counter of free values are not spoken of (log 6). What T presents is the loopback's or the script's, where one is
given in full. A shift of 0 bits is ShiftOfZeroBits. -/
def Obligations.ShiftReturnsTheSamples : Prop :=
  ∀ (s : State) (suffix : Vector Byte 4) (n : BitVec 32) (tms tdi : List Byte) (a : WriteAnswer)
    (ws : List WriteAnswer),
    Memory.wf s.cfg.capacityBytes s.tmsBuf = true → Memory.wf s.cfg.capacityBytes s.tdiBuf = true →
    Memory.wf s.cfg.capacityBytes s.tdoBuf = true →
    0 < n.toNat → (n.toNat + 7) / 8 ≤ s.cfg.capacityBytes →
    tms.length = (n.toNat + 7) / 8 → tdi.length = (n.toNat + 7) / 8 →
    s.link.writes = a :: ws → a.k = ((n.toNat + 7) / 8 : Nat) →
    ∃ (evs : List Event) (splits : List Nat) (samples : List Bool) (tmsBuf tdiBuf tdoBuf : Memory) (resp : List Byte)
      (target : Target) (freeIdx : Nat),
      Receives evs (encode (.shift suffix n tms tdi)) ∧ samples.length = n.toNat ∧
      resp.length = (n.toNat + 7) / 8 ∧ (∀ i, i < n.toNat → vectorBit resp i = samples.getD i false) ∧
      (∀ j, Memory.read tmsBuf j = if j < (n.toNat + 7) / 8 then tms.getD j 0 else Memory.read s.tmsBuf j) ∧
      (∀ j, Memory.read tdiBuf j = if j < (n.toNat + 7) / 8 then tdi.getD j 0 else Memory.read s.tdiBuf j) ∧
      (∀ i, Memory.bit tdoBuf i = if i < n.toNat then samples.getD i false else Memory.bit s.tdoBuf i) ∧
      (s.target = .wireLoopback → ∀ i, i < n.toNat → samples.getD i false = vectorBit tdi i) ∧
      (∀ script, s.target = .levels script → n.toNat ≤ script.length →
        samples = script.take n.toNat ∧ target = .levels (script.drop n.toNat)) ∧
      exec (.shift suffix n tms tdi) s = .next { s with
        dstate := .sTag, busy := false, tag := #v[0x73, 0x68], hdr := suffix ++ le32bytes n
        bitCnt := n, byteLen := BitVec.ofNat 30 ((n.toNat + 7) / 8)
        frDst := .tdiBuf, frN := (n.toNat + 7) / 8, frGot := (n.toNat + 7) / 8
        seI := n.toNat, sePhase := .pDone, lines := Lines.idle
        tmsBuf := tmsBuf, tdiBuf := tdiBuf, tdoBuf := tdoBuf, target := target, freeIdx := freeIdx
        link := { s.link with splits := splits, writes := ws, got := s.link.got ++ resp }
        trace := s.trace ++ evs ++
          shiftEvents n.toNat (vectorBit tms) (vectorBit tdi) (fun i => samples.getD i false) ++ [.tx resp a.k] }

/-- R186, R163: SHIFT of 0 bits. It reads its 10 header bytes and no vector, makes exactly the two idle updates, writes
nothing, and is back at the frame boundary; no buffer byte changes, and no answer of H is used. That transfers and
responses of 0 bytes do nothing and the session goes on (R83, R87, R163) is the spec's own decision D8 (log 26). -/
def Obligations.ShiftOfZeroBits : Prop :=
  ∀ (s : State) (suffix : Vector Byte 4),
    ∃ evs splits freeIdx, Receives evs (encode (.shift suffix 0 [] [])) ∧
      exec (.shift suffix 0 [] []) s = .next { s with
        dstate := .sTag, busy := false, tag := #v[0x73, 0x68], hdr := suffix ++ le32bytes 0
        bitCnt := 0, byteLen := 0, frDst := .tdiBuf, frN := 0, frGot := 0
        seI := 0, sePhase := .pDone, lines := Lines.idle, freeIdx := freeIdx
        link := { s.link with splits := splits }
        trace := s.trace ++ evs ++ [idleEvent, idleEvent] }

/-- R156, R239: SHIFT above the capacity. The session ends with OVERSIZE after the 10 header bytes: no payload byte is
consumed, no buffer byte written, no line driven, no byte sent. -/
def Obligations.OversizeShiftEndsTheSession : Prop :=
  ∀ (s : State) (suffix : Vector Byte 4) (n : BitVec 32), s.cfg.capacityBytes < (n.toNat + 7) / 8 →
    ∃ evs splits, Receives evs (encode (.shift suffix n [] [])) ∧
      exec (.shift suffix n [] []) s = .next { s with
        dstate := .sWait, sessActive := false, stream := none, busy := false
        tag := #v[0x73, 0x68], hdr := suffix ++ le32bytes n
        bitCnt := n, byteLen := BitVec.ofNat 30 ((n.toNat + 7) / 8)
        frDst := .hdr, frN := 8, frGot := 8
        lastReason := .oversize, endReason := .oversize
        link := { s.link with splits := splits }
        trace := s.trace ++ evs ++ [.sessionEnd .oversize] }

/-- R165, R236: an invalid tag ends the session with BAD_TAG: the two tag bytes are consumed and no more, nothing is
written, no line is driven. -/
def Obligations.InvalidTagEndsTheSession : Prop :=
  ∀ (s : State) (tag : Vector Byte 2), tag ≠ #v[0x67, 0x65] → tag ≠ #v[0x73, 0x65] → tag ≠ #v[0x73, 0x68] →
    ∃ evs splits, Receives evs [tag[0], tag[1]] ∧
      exec (.invalid tag) s = .next { s with
        dstate := .sWait, sessActive := false, stream := none, busy := false
        tag := tag, frDst := .tag, frN := 2, frGot := 2
        lastReason := .badTag, endReason := .badTag
        link := { s.link with splits := splits }
        trace := s.trace ++ evs ++ [.sessionEnd .badTag] }

/-- R86, R88, R89, R90, R230: a command with a response makes one write of it, never a second, and H's answer decides
how the command ends: the whole count goes on, a smaller positive count is SHORT_WRITE after exactly that many bytes, a
count of 0 or below is TX_FAIL after a prefix that is H's choice (log 18), no answer waits (log 4), and a count above
the request, outside the draw's range, is refused (log 21). What H has after a failed or short write is the spec's own
decision D16; the waiting, the prefix as a part of H's answer and the refusal are the model's choices. -/
def Obligations.WriteAnswerDecidesTheCommand : Prop :=
  ∀ (s : State) (i : Instr), WellFormed s.cfg.capacityBytes i → 0 < responseLength s.cfg i →
    (s.link.writes = [] → ∃ t, exec i s = .next t ∧ tick t = .next t ∧ t.sessActive = s.sessActive ∧
      (t.dstate = .sGeRsp ∨ t.dstate = .sSeRsp ∨ t.dstate = .sShRsp) ∧ t.link.got = s.link.got) ∧
    (∀ a ws, s.link.writes = a :: ws →
      (a.k = responseLength s.cfg i → ∃ t resp evs, exec i s = .next t ∧ resp.length = responseLength s.cfg i ∧
        t.dstate = .sTag ∧ t.sessActive = s.sessActive ∧ t.link.got = s.link.got ++ resp ∧
        (∀ e ∈ evs, e.isTx = false) ∧ t.trace = s.trace ++ evs ++ [.tx resp a.k]) ∧
      (a.k < responseLength s.cfg i → ∃ t resp evs, exec i s = .next t ∧ resp.length = responseLength s.cfg i ∧
        t.dstate = .sWait ∧ t.sessActive = false ∧ t.stream = none ∧
        t.lastReason = (if a.k ≤ 0 then .txFail else .shortWrite) ∧
        t.link.got = s.link.got ++ (if a.k ≤ 0 then resp.take a.delivered else resp.take a.k.toNat) ∧
        (∀ e ∈ evs, e.isTx = false) ∧
        t.trace = s.trace ++ evs ++ [.tx resp a.k, .sessionEnd (if a.k ≤ 0 then .txFail else .shortWrite)]) ∧
      ((responseLength s.cfg i : Int) < a.k → exec i s = .refused .writeAboveRequest))

/-- R198: under the wire loopback, the response to a SHIFT equals the TDI vector on its significant bits, and byte for
byte when the bit count is a multiple of 8. The wire loopback is the spec's own choice of double (D13, log 7), and the
case of 0 bits rests on its decision D8 (log 26). -/
def Obligations.LoopbackReturnsTdi : Prop :=
  ∀ (s : State) (suffix : Vector Byte 4) (n : BitVec 32) (tms tdi : List Byte) (a : WriteAnswer)
    (ws : List WriteAnswer),
    s.Inv → s.target = .wireLoopback → (n.toNat + 7) / 8 ≤ s.cfg.capacityBytes →
    tms.length = (n.toNat + 7) / 8 → tdi.length = (n.toNat + 7) / 8 →
    s.link.writes = a :: ws → a.k = ((n.toNat + 7) / 8 : Nat) →
    ∃ t resp, exec (.shift suffix n tms tdi) s = .next t ∧ t.dstate = .sTag ∧ t.link.got = s.link.got ++ resp ∧
      resp.length = (n.toNat + 7) / 8 ∧ (∀ i, i < n.toNat → vectorBit resp i = vectorBit tdi i) ∧
      (n.toNat % 8 = 0 → resp = tdi)

/-- R115, R189: the padding bits of the TMS and the TDI vector are don't-care: two shifts whose vectors agree on bits 0
to n-1 make the same GPIO events, leave the same `TDO_BUF` and get the same answer to H. -/
def Obligations.ShiftIgnoresPaddingBits : Prop :=
  ∀ (s : State) (suffix : Vector Byte 4) (n : BitVec 32) (tms tdi tms' tdi' : List Byte),
    (n.toNat + 7) / 8 ≤ s.cfg.capacityBytes → Memory.wf s.cfg.capacityBytes s.tmsBuf = true →
    Memory.wf s.cfg.capacityBytes s.tdiBuf = true →
    tms.length = (n.toNat + 7) / 8 → tdi.length = (n.toNat + 7) / 8 →
    tms'.length = (n.toNat + 7) / 8 → tdi'.length = (n.toNat + 7) / 8 →
    (∀ i, i < n.toNat → vectorBit tms' i = vectorBit tms i ∧ vectorBit tdi' i = vectorBit tdi i) →
    (∃ t u, exec (.shift suffix n tms tdi) s = .next t ∧ exec (.shift suffix n tms' tdi') s = .next u ∧
      u.trace.filter Event.isGpio = t.trace.filter Event.isGpio ∧ u.tdoBuf = t.tdoBuf ∧
      u.link.got = t.link.got ∧ u.dstate = t.dstate ∧ u.lines = t.lines) ∨
    (∃ r, exec (.shift suffix n tms tdi) s = .refused r ∧ exec (.shift suffix n tms' tdi') s = .refused r)

/-- R168: what a command answers depends on its own frame, on H's answers, on T's samples, on the configuration and on the
unspecified TDO padding bits, and on nothing an earlier command left: two states that agree there, whatever their
registers, buffers, lines and traces, run the command to the same events, the same bytes for H and the same place of W.
The padding bits (R168's fourth item, log 6) and the TDO levels no script gives (log 5) are free values, numbered by the
model's counter `freeIdx`, which earlier commands move; so the two states must agree on it too, which says no more than
that the same free values are drawn in both. -/
def Obligations.ResponsesDependOnTheirOwnFrame : Prop :=
  ∀ (s u : State) (i : Instr), WellFormed s.cfg.capacityBytes i → s.Inv → u.Inv →
    u.cfg = s.cfg → u.link = s.link → u.target = s.target → u.freeIdx = s.freeIdx →
    (∃ s' u' evs, exec i s = .next s' ∧ exec i u = .next u' ∧ s'.trace = s.trace ++ evs ∧ u'.trace = u.trace ++ evs ∧
      u'.link = s'.link ∧ u'.target = s'.target ∧ u'.freeIdx = s'.freeIdx ∧ u'.dstate = s'.dstate) ∨
    (∃ r, exec i s = .refused r ∧ exec i u = .refused r)

/-! ### The dispatcher's states -/

/-- R143: dispatch maps TAG to the next state and writes nothing but the state register; an invalid tag raises BAD_TAG.
`busy` and `endReason` are the model's own fields (log 9). -/
def Obligations.DispatchGoesByTag : Prop :=
  ∀ s : State,
    (s.tag = #v[0x67, 0x65] → afterTag s = { s with dstate := .sGeSfx, busy := false }) ∧
    (s.tag = #v[0x73, 0x65] → afterTag s = { s with dstate := .sSeArg, busy := false }) ∧
    (s.tag = #v[0x73, 0x68] → afterTag s = { s with dstate := .sShHdr, busy := false }) ∧
    (s.tag ≠ #v[0x67, 0x65] → s.tag ≠ #v[0x73, 0x65] → s.tag ≠ #v[0x73, 0x68] →
      afterTag s = { s with dstate := .sEnd, busy := false, endReason := .badTag })

/-- R140: A hands W a stream in `S_WAIT`: the session registers, the event, the next state, and nothing else of the
block. `offers` and `link` are the environment's side (log 3). -/
def Obligations.SessionStartTakesTheStream : Prop :=
  ∀ (s : State) (o : Offer) (rest : List Offer), s.dstate = .sWait → s.offers = o :: rest →
    step s = .next { s with
      dstate := .sTag, busy := false, sessActive := true, stream := some o.handle, offers := rest
      link := { o.link with got := [] }, trace := s.trace ++ [.sessionStart] }

/-- W in `S_WAIT` stays as it is while A offers no stream: after a reset, and after every termination (R241, R255). That
a wait answers the same state is log 4 (DEDUCED); that A may offer no further stream, and that a wait loses nothing, are
the spec's own decisions D35 and D29 (log 26). -/
def Obligations.WaitsWithoutAnOffer : Prop :=
  (∀ s : State, s.dstate = .sWait → s.offers = [] → step s = .next s) ∧
  ∀ s : State, s.dstate = .sEnd → s.offers = [] →
    ∃ t, step s = .next t ∧ t.dstate = .sWait ∧ t.lastReason = s.endReason ∧ step t = .next t

/-- R236: a raise leads to `S_END`, and the termination step records the reason, emits `SessionEnd(reason)`, releases the
stream and waits; nothing else changes, and no answer of H, A or T is used. `busy` and `endReason` are the model's own
fields (log 9). -/
def Obligations.TerminationStep : Prop :=
  (∀ (s : State) (reason : Reason),
    s.raise reason = { s with dstate := .sEnd, busy := false, endReason := reason } ∧
    s.terminate reason = (s.raise reason).endSession) ∧
  ∀ s : State, s.dstate = .sEnd →
    step s = .next { s with
      dstate := .sWait, busy := false, sessActive := false, stream := none, lastReason := s.endReason
      trace := s.trace ++ [.sessionEnd s.endReason] }

/-- R230: the code and the error class of each termination reason; R31: the 13 values of the dispatcher's states, from
0 for `S_WAIT` to 12 for `S_END`. No two reasons and no two states share a code, and no state takes the values 13 to
15. The codes are the spec's own decisions D15 and D31 (log 26). -/
def Obligations.CodesOfReasonsAndStates : Prop :=
  ([Reason.none, .tagRxEnd, .rxFail, .txFail, .shortWrite, .badTag, .oversize].map
    fun r => (r.code, r.errorClass)) =
    [(0, none), (1, some .transportError), (2, some .transportError), (3, some .transportError),
     (4, some .shortWrite), (5, some .protocolViolation), (6, some .protocolViolation)] ∧
  ([DState.sWait, .sTag, .sGeSfx, .sGeRsp, .sSeArg, .sSeRsp, .sShHdr, .sShChk, .sShTms, .sShTdi, .sShRun, .sShRsp,
      .sEnd].map fun d => d.code.toNat) = [0, 1, 2, 3, 4, 5, 6, 7, 8, 9, 10, 11, 12] ∧
  (∀ q r : Reason, q.code = r.code → q = r) ∧ (∀ d : DState, d.code.toNat < 13) ∧
  ∀ d e : DState, d.code = e.code → d = e

/-- R155, R156, R16: the capacity check. BYTELEN takes the exact ceiling, with no wrap for any 32-bit bit count, and
only then is it compared with the capacity; nothing else changes but where W goes. -/
def Obligations.CapacityCheckIsExact : Prop :=
  ∀ s : State, s.dstate = .sShChk →
    (BitVec.ofNat 30 ((s.bitCnt.toNat + 7) / 8)).toNat = (s.bitCnt.toNat + 7) / 8 ∧
    (s.cfg.capacityBytes < (s.bitCnt.toNat + 7) / 8 →
      step s = .next { s with
        byteLen := BitVec.ofNat 30 ((s.bitCnt.toNat + 7) / 8)
        dstate := .sEnd, busy := false, endReason := .oversize }) ∧
    ((s.bitCnt.toNat + 7) / 8 ≤ s.cfg.capacityBytes →
      step s = .next { s with
        byteLen := BitVec.ofNat 30 ((s.bitCnt.toNat + 7) / 8), dstate := .sShTms, busy := false })

/-- R31: the dispatcher moves only along the edges of its table: every atomic action of W stays in its state or takes
one of these. -/
def Obligations.DispatcherTransitions : Prop :=
  ∀ s t : State, tick s = .next t → t.dstate = s.dstate ∨ (s.dstate, t.dstate) ∈
    [(.sWait, .sTag), (.sTag, .sGeSfx), (.sTag, .sSeArg), (.sTag, .sShHdr), (.sTag, DState.sEnd),
     (.sGeSfx, .sGeRsp), (.sGeSfx, .sEnd), (.sGeRsp, .sTag), (.sGeRsp, .sEnd),
     (.sSeArg, .sSeRsp), (.sSeArg, .sEnd), (.sSeRsp, .sTag), (.sSeRsp, .sEnd),
     (.sShHdr, .sShChk), (.sShHdr, .sEnd), (.sShChk, .sShTms), (.sShChk, .sEnd),
     (.sShTms, .sShTdi), (.sShTms, .sEnd), (.sShTdi, .sShRun), (.sShTdi, .sEnd),
     (.sShRun, .sShRsp), (.sShRsp, .sTag), (.sShRsp, .sEnd), (DState.sEnd, .sWait)]

/-- R230: which states raise which reasons. -/
def Obligations.ReasonsByState : Prop :=
  ∀ s t : State, tick s = .next t → t.dstate = .sEnd →
    (s.dstate = .sTag ∧ (t.endReason = .tagRxEnd ∨ t.endReason = .badTag)) ∨
    ((s.dstate = .sGeSfx ∨ s.dstate = .sSeArg ∨ s.dstate = .sShHdr ∨ s.dstate = .sShTms ∨ s.dstate = .sShTdi) ∧
      t.endReason = .rxFail) ∨
    ((s.dstate = .sGeRsp ∨ s.dstate = .sSeRsp ∨ s.dstate = .sShRsp) ∧
      (t.endReason = .txFail ∨ t.endReason = .shortWrite)) ∨
    (s.dstate = .sShChk ∧ t.endReason = .oversize)

/-- R32 to R39, R41, R44, R154: each register of R30 but `DSTATE`, and each buffer, is written in its own states only;
the Frame Reader's registers in the six states that are transfers. `hdr` is the header destination of R80 and R154 (log
9). -/
def Obligations.RegistersAreWrittenInTheirStates : Prop :=
  ∀ s t : State, s.Inv → tick s = .next t →
    (t.tag ≠ s.tag → s.dstate = .sTag) ∧ (t.period ≠ s.period → s.dstate = .sSeArg) ∧
    (t.hdr ≠ s.hdr → s.dstate = .sShHdr) ∧ (t.bitCnt ≠ s.bitCnt → s.dstate = .sShHdr) ∧
    (t.byteLen ≠ s.byteLen → s.dstate = .sShChk) ∧
    (t.tmsBuf ≠ s.tmsBuf → s.dstate = .sShTms) ∧ (t.tdiBuf ≠ s.tdiBuf → s.dstate = .sShTdi) ∧
    (t.tdoBuf ≠ s.tdoBuf → s.dstate = .sShRun) ∧ (t.lines ≠ s.lines → s.dstate = .sShRun) ∧
    (t.seI ≠ s.seI → s.dstate = .sShRun) ∧ (t.sePhase ≠ s.sePhase → s.dstate = .sShRun) ∧
    (t.lastReason ≠ s.lastReason → s.dstate = .sEnd) ∧
    (t.sessActive ≠ s.sessActive → s.dstate = .sWait ∨ s.dstate = .sEnd) ∧
    (t.stream ≠ s.stream → s.dstate = .sWait ∨ s.dstate = .sEnd) ∧
    (t.frDst ≠ s.frDst ∨ t.frN ≠ s.frN ∨ t.frGot ≠ s.frGot →
      s.dstate = .sTag ∨ s.dstate = .sGeSfx ∨ s.dstate = .sSeArg ∨ s.dstate = .sShHdr ∨ s.dstate = .sShTms ∨
        s.dstate = .sShTdi)

/-! ### Streams -/

/-- R82: inside a transfer that lacks bytes, W's next action is one read, and it asks for exactly the remaining count:
with bytes on the stream it consumes between 1 and that many, so never a byte of the next field; at the stream's end it
returns the result of 0 or below and consumes nothing. R82 is the spec's own decision D9; that the bytes H sends come
before the end of the stream, in the order of the script, follows R81 as log 22 reads it (DEDUCED). -/
def Obligations.ReadAsksTheRemainingCount : Prop :=
  ∀ s : State, s.Inv → s.busy = true → s.dstate ≠ .sShRun → s.frGot < s.frN →
    (s.link.rx ≠ [] → ∃ t r, tick s = .next t ∧ 0 < r ∧ r ≤ s.frN - s.frGot ∧ r ≤ s.link.rx.length ∧
      t.frGot = s.frGot + r ∧ t.frN = s.frN ∧ t.frDst = s.frDst ∧ t.dstate = s.dstate ∧ t.busy = true ∧
      t.link.rx = s.link.rx.drop r ∧ t.link.got = s.link.got ∧
      t.trace = s.trace ++ [.rx (s.frN - s.frGot) r (s.link.rx.take r)]) ∧
    (∀ e, s.link.rx = [] → s.link.rxEnd = some e → ∃ t, tick s = .next t ∧ t.link = s.link ∧
      t.frGot = s.frGot ∧ t.trace = s.trace ++ [.rx (s.frN - s.frGot) (-(e : Int)) []])

/-- R80, R85, R230: a read that returns 0 or below ends the transfer: the session terminates with TAG_RX_END in `S_TAG`
and RX_FAIL in the other states; nothing else changes. R84: a read H does not answer holds W in that read. That such a
wait is a step that answers the same state is the model's reading (log 4, DEDUCED); that a read may wait forever is the
spec's own decision D27 (log 26). `busy` and `endReason` are the model's own fields (log 9). -/
def Obligations.FailedOrUnansweredRead : Prop :=
  ∀ s : State, s.busy = true → s.frGot < s.frN → s.link.rx = [] →
    (s.dstate = .sTag ∨ s.dstate = .sGeSfx ∨ s.dstate = .sSeArg ∨ s.dstate = .sShHdr ∨ s.dstate = .sShTms ∨
      s.dstate = .sShTdi) →
    (∀ e, s.link.rxEnd = some e → step s = .next { s with
      dstate := .sEnd, busy := false, endReason := (if s.dstate = .sTag then .tagRxEnd else .rxFail)
      trace := s.trace ++ [.rx (s.frN - s.frGot) (-(e : Int)) []] }) ∧
    (s.link.rxEnd = none → step s = .next s)

/-- R83, R87: a transfer of 0 bytes reads nothing and succeeds; a response of 0 bytes writes nothing and succeeds, and
the session goes on. That it succeeds and does not end the session is the spec's own decision D8 (log 26). `busy` is the
model's own field (log 9). -/
def Obligations.ZeroLengthStreamOperations : Prop :=
  (∀ (s : State) (dst : FrDst), frameRead dst 0 s =
    .next (.done, { s with frDst := dst, frN := 0, frGot := 0, busy := true })) ∧
  ∀ s : State, respWrite [] s = .next { s with dstate := .sTag, busy := false }

/-- R80, R141: a stream that ends inside a frame ends the session: TAG_RX_END before the tag is whole, RX_FAIL after it.
Every byte is consumed; no response is written, no line driven. -/
def Obligations.TruncatedFrameEndsTheSession : Prop :=
  ∀ (s : State) (err : DecodeError) (e : Nat), s.dstate = .sTag → s.busy = false →
    decode s.cfg.capacityBytes s.link.rx = .error err → s.link.rxEnd = some e →
    ∃ k t evs, ticks k s = .next t ∧ t.dstate = .sWait ∧ t.sessActive = false ∧ t.stream = none ∧
      t.lastReason = (if err = .truncatedTag then .tagRxEnd else .rxFail) ∧
      t.trace = s.trace ++ evs ++ [.sessionEnd (if err = .truncatedTag then .tagRxEnd else .rxFail)] ∧
      (∀ ev ∈ evs, ev.isRx = true) ∧ t.link.rx = [] ∧ t.link.got = s.link.got ∧ t.lines = s.lines ∧
      t.tdoBuf = s.tdoBuf

/-- R84, R249: a host that stalls inside a frame holds the session open: W comes to a state it does not leave by itself,
with every byte consumed, the session as active as before, no response written and no line driven. That the waiting
state answers itself is the model's reading (log 4, DEDUCED); that a read may wait forever, with no timeout, is the
spec's own decision D27 (log 26). -/
def Obligations.UnfinishedFrameWaits : Prop :=
  ∀ (s : State) (err : DecodeError), s.dstate = .sTag → s.busy = false →
    decode s.cfg.capacityBytes s.link.rx = .error err → s.link.rxEnd = none →
    ∃ k t, ticks k s = .next t ∧ step t = .next t ∧ t.busy = true ∧ t.sessActive = s.sessActive ∧
      t.stream = s.stream ∧ t.link.rx = [] ∧ t.link.got = s.link.got ∧ t.lines = s.lines

/-! ### Buffers and lines -/

/-- R17, R71: a bit write inside the buffer sets its own bit, leaves every other bit of it, and touches nothing else; a
bit read gives the bit. -/
def Obligations.BitWriteChangesOneBit : Prop :=
  ∀ (s : State) (b : Buf) (i : Nat) (level : Bool), Memory.wf s.cfg.capacityBytes (s.buf b) = true →
    i / 8 < s.cfg.capacityBytes →
    ∃ m, bitWrite b i level s = .next (s.setBuf b m) ∧ Memory.wf s.cfg.capacityBytes m = true ∧
      bitRead b i (s.setBuf b m) = .next level ∧
      (∀ j, j ≠ i → j / 8 < s.cfg.capacityBytes → bitRead b j (s.setBuf b m) = bitRead b j s) ∧
      (∀ c, c ≠ b → (s.setBuf b m).buf c = s.buf c)

/-- R17, R91: a byte written inside the buffer is read back, and every other byte of the three buffers is unchanged. That
an access at an index at or above the capacity faults is the model's choice (log 20): the spec gives no such fault, and
says that no such access occurs (R92, R235). -/
def Obligations.BufferByteAccess : Prop :=
  ∀ (s : State) (b : Buf) (j : Nat) (v : Byte), Memory.wf s.cfg.capacityBytes (s.buf b) = true →
    (j < s.cfg.capacityBytes → ∃ t, bufWrite b j v s = .next t ∧ bufRead b j t = .next v ∧
      (∀ k, k ≠ j → bufRead b k t = bufRead b k s) ∧ (∀ c, c ≠ b → t.buf c = s.buf c) ∧
      Memory.wf s.cfg.capacityBytes (t.buf b) = true) ∧
    (s.cfg.capacityBytes ≤ j → bufWrite b j v s = .fault (.bufferIndex b j) ∧
      bufRead b j s = .fault (.bufferIndex b j))

/-- R211, R219: `GpioSetClr(S, C)` with disjoint sets sets the lines of S, clears those of C, leaves the others, all in
one event, and changes nothing else. Refusing a call whose sets meet is the model's choice (log 21), which R212 and I17
allow and do not ask for. -/
def Obligations.GpioUpdateIsAtomic : Prop :=
  ∀ (s : State) (a c : LineSet),
    (¬ (a.tck = true ∧ c.tck = true) → ¬ (a.tms = true ∧ c.tms = true) → ¬ (a.tdi = true ∧ c.tdi = true) →
      ∃ l : Lines, gpioSetClr a c s = .next { s with lines := l, trace := s.trace ++ [.setClr a c l] } ∧
        (a.tck = true → l.tck = true) ∧ (c.tck = true → l.tck = false) ∧
        (a.tck = false → c.tck = false → l.tck = s.lines.tck) ∧
        (a.tms = true → l.tms = true) ∧ (c.tms = true → l.tms = false) ∧
        (a.tms = false → c.tms = false → l.tms = s.lines.tms) ∧
        (a.tdi = true → l.tdi = true) ∧ (c.tdi = true → l.tdi = false) ∧
        (a.tdi = false → c.tdi = false → l.tdi = s.lines.tdi)) ∧
    ((a.tck = true ∧ c.tck = true) ∨ (a.tms = true ∧ c.tms = true) ∨ (a.tdi = true ∧ c.tdi = true) →
      gpioSetClr a c s = .refused .overlappingSetClr)

/-- R213, R218: a TDO read emits its sample and changes no state of the block; it gives the script's next level, or the
level of TDI under the wire loopback. Where no level is given, the level is a free value (log 5). -/
def Obligations.GpioReadChangesNothing : Prop :=
  ∀ s : State,
    (∃ target freeIdx, (gpioRead s).2 = { s with
      target := target, freeIdx := freeIdx, trace := s.trace ++ [.sample (gpioRead s).1] }) ∧
    (∀ b rest, s.target = .levels (b :: rest) → (gpioRead s).1 = b ∧ (gpioRead s).2.target = .levels rest) ∧
    (s.target = .wireLoopback → (gpioRead s).1 = s.lines.tdi ∧ (gpioRead s).2.target = .wireLoopback)

/-! ### The serializer -/

/-- R192, which the spec derives from R180 to R191: a run of `n` bits makes exactly `2n + 2` `SetClr` events and `n`
`Sample` events, in R192's order, with no stream event among them; it writes the samples to bits 0 to n-1 of `TDO_BUF`
and no other bit, leaves the lines idle, and goes on to the response. -/
def Obligations.SerializerEventSequence : Prop :=
  ∀ s : State, s.dstate = .sShRun → s.bitCnt.toNat ≤ 8 * s.cfg.capacityBytes →
    Memory.wf s.cfg.capacityBytes s.tdoBuf = true →
    ∃ (samples : List Bool) (evs : List Event) (tdoBuf : Memory) (target : Target) (freeIdx : Nat),
      samples.length = s.bitCnt.toNat ∧
      evs = shiftEvents s.bitCnt.toNat s.tmsBuf.bit s.tdiBuf.bit (fun i => samples.getD i false) ∧
      evs.countP Event.isSetClr = 2 * s.bitCnt.toNat + 2 ∧ evs.countP Event.isSample = s.bitCnt.toNat ∧
      (∀ e ∈ evs, e.isGpio = true) ∧ Memory.wf s.cfg.capacityBytes tdoBuf = true ∧
      (∀ i, Memory.bit tdoBuf i = if i < s.bitCnt.toNat then samples.getD i false else Memory.bit s.tdoBuf i) ∧
      runShRun s = .next { s with
        dstate := .sShRsp, busy := false, seI := s.bitCnt.toNat, sePhase := .pDone, lines := Lines.idle
        tdoBuf := tdoBuf, target := target, freeIdx := freeIdx, trace := s.trace ++ evs }

/-- R193: a run of `n` bits makes exactly `n` rising edges of TCK, and `n` falling edges, one more when TCK was high
before the entry idle update. -/
def Obligations.TckEdgesOfAShift : Prop :=
  ∀ s : State, s.dstate = .sShRun → s.bitCnt.toNat ≤ 8 * s.cfg.capacityBytes →
    ∃ t evs, runShRun s = .next t ∧ t.trace = s.trace ++ evs ∧
      risingEdges s.lines.tck evs = s.bitCnt.toNat ∧
      fallingEdges s.lines.tck evs = s.bitCnt.toNat + (if s.lines.tck then 1 else 0)

/-- R189, I16: a call of the serializer above `MAX_BITS`, which no run makes, is refused (the model's choice, log 21). -/
def Obligations.SerializerRefusesAboveMaxBits : Prop :=
  ∀ s : State, 8 * s.cfg.capacityBytes < s.bitCnt.toNat → runShRun s = .refused .shiftTooLong

/-! ### The environment -/

/-- R257, R246, R213: between two steps of W, H, A and T change their own side and nothing of the block; what H sends
follows what it sent before, a stream offered waits behind the others, and every such move keeps the invariant (log 3). -/
def Obligations.EnvironmentChangesItsOwnSideOnly : Prop :=
  ∀ (s : State) (bytes : List Byte) (e : Nat) (counts : List Nat) (a : WriteAnswer) (o : Offer) (levels : List Bool),
    s.hostSends bytes = { s with link := { s.link with rx := s.link.rx ++ bytes } } ∧
    s.hostCloses e = { s with link := { s.link with rxEnd := some e } } ∧
    s.hostSplits counts = { s with link := { s.link with splits := s.link.splits ++ counts } } ∧
    s.hostAnswersWrite a = { s with link := { s.link with writes := s.link.writes ++ [a] } } ∧
    s.acceptorOffers o = { s with offers := s.offers ++ [o] } ∧
    (∃ target, s.targetPresents levels = { s with target := target }) ∧
    s.withWireLoopback = { s with target := .wireLoopback } ∧
    (s.Inv → (s.hostSends bytes).Inv ∧ (s.hostCloses e).Inv ∧ (s.hostSplits counts).Inv ∧
      (s.hostAnswersWrite a).Inv ∧ (s.acceptorOffers o).Inv ∧ (s.targetPresents levels).Inv ∧ s.withWireLoopback.Inv)

/-! ### Invariants and whole-machine rules -/

/-- Every step keeps the invariant: canonical buffers with nothing beyond the capacity, a session exactly outside
`S_WAIT`, a transfer or serializer run that fits the state W is in, an exact byte length within the capacity, and an
`SE_I` that fits its register. -/
def Obligations.StepKeepsInvariant : Prop :=
  ∀ s t : State, s.Inv → step s = .next t → t.Inv

/-- R235, R92, R189, R212: from a good state a step never faults, and the only refusal is the one H's script can cause,
an answer above the request. -/
def Obligations.GoodStatesStep : Prop :=
  ∀ s : State, s.Inv → (∃ t, step s = .next t) ∨ step s = .refused .writeAboveRequest

/-- R235: no run from a good state faults. -/
def Obligations.RunsNeverFault : Prop := ∀ s : State, s.Inv → s.Safe

/-- R196: once a line has been driven, the lines are idle outside a shift, and every step keeps it so, across commands
and across sessions. -/
def Obligations.StepKeepsIdleOutsideShifts : Prop :=
  ∀ s t : State, s.IdleOutsideShifts → step s = .next t → t.IdleOutsideShifts

/-- R216, which the spec derives from R144 and R236: only the serializer touches the GPIO lines: an atomic action of W
outside `S_SH_RUN` leaves them, asks T nothing, and emits no GPIO event; and a step that changes them is one of the
serializer or a SHIFT. -/
def Obligations.OnlyTheSerializerTouchesTheLines : Prop :=
  (∀ s t : State, tick s = .next t → s.dstate ≠ .sShRun →
    t.lines = s.lines ∧ t.target = s.target ∧ ∃ evs, t.trace = s.trace ++ evs ∧ ∀ e ∈ evs, e.isGpio = false) ∧
  ∀ s t : State, step s = .next t → t.lines ≠ s.lines →
    s.dstate = .sShRun ∨ ∃ suffix n tms tdi rest, frameAt s = some (.shift suffix n tms tdi, rest)

/-- R42, R19: no step changes the configuration, and the trace only grows. -/
def Obligations.ConfigurationAndTraceHistory : Prop :=
  ∀ s t : State, step s = .next t → t.cfg = s.cfg ∧ s.trace <+: t.trace

/-- R247, R32: sessions never overlap: a step that emits `SessionStart` starts one where none was active and emits
nothing else, and a step that emits `SessionEnd` ends the active one, as its last event. -/
def Obligations.SessionsNeverOverlap : Prop :=
  ∀ s t : State, s.Inv → step s = .next t → ∃ evs, t.trace = s.trace ++ evs ∧
    (.sessionStart ∈ evs → s.sessActive = false ∧ t.sessActive = true ∧ evs = [.sessionStart]) ∧
    (∀ r, .sessionEnd r ∈ evs → s.sessActive = true ∧ t.sessActive = false ∧ t.lastReason = r ∧
      ∃ before, evs = before ++ [.sessionEnd r] ∧ ∀ q, .sessionEnd q ∉ before)
end

