-- ==== Sys2Proof/Laws/State.lean ====
section
/-! SUPPORT. What each named update of the state sets and what it keeps, field by field, each true by `rfl`; so no later
proof unfolds a record update. One simp lemma `<update>_sets` and one `<update>_keeps` per update: simp takes each
conjunct as a rule of its own. -/

namespace Sys2Proof.Machine

@[simp] theorem State.emit_sets (s : State) (e : Event) :
    (s.emit e).trace = s.trace ++ [e] := rfl

@[simp] theorem State.emit_keeps (s : State) (e : Event) :
    (s.emit e).cfg = s.cfg ∧ (s.emit e).dstate = s.dstate ∧ (s.emit e).sessActive = s.sessActive ∧
    (s.emit e).stream = s.stream ∧ (s.emit e).tag = s.tag ∧ (s.emit e).period = s.period ∧
    (s.emit e).bitCnt = s.bitCnt ∧ (s.emit e).byteLen = s.byteLen ∧ (s.emit e).hdr = s.hdr ∧
    (s.emit e).frDst = s.frDst ∧ (s.emit e).frN = s.frN ∧ (s.emit e).frGot = s.frGot ∧ (s.emit e).busy = s.busy ∧
    (s.emit e).seI = s.seI ∧ (s.emit e).sePhase = s.sePhase ∧ (s.emit e).lines = s.lines ∧
    (s.emit e).tmsBuf = s.tmsBuf ∧ (s.emit e).tdiBuf = s.tdiBuf ∧ (s.emit e).tdoBuf = s.tdoBuf ∧
    (s.emit e).lastReason = s.lastReason ∧ (s.emit e).endReason = s.endReason ∧ (s.emit e).offers = s.offers ∧
    (s.emit e).link = s.link ∧ (s.emit e).target = s.target ∧ (s.emit e).freeIdx = s.freeIdx := by
  repeat' constructor

@[simp] theorem State.goto_sets (s : State) (d : DState) :
    (s.goto d).dstate = d ∧ (s.goto d).busy = false := ⟨rfl, rfl⟩

@[simp] theorem State.goto_keeps (s : State) (d : DState) :
    (s.goto d).cfg = s.cfg ∧ (s.goto d).sessActive = s.sessActive ∧ (s.goto d).stream = s.stream ∧
    (s.goto d).tag = s.tag ∧ (s.goto d).period = s.period ∧ (s.goto d).bitCnt = s.bitCnt ∧
    (s.goto d).byteLen = s.byteLen ∧ (s.goto d).hdr = s.hdr ∧ (s.goto d).frDst = s.frDst ∧ (s.goto d).frN = s.frN ∧
    (s.goto d).frGot = s.frGot ∧ (s.goto d).seI = s.seI ∧ (s.goto d).sePhase = s.sePhase ∧
    (s.goto d).lines = s.lines ∧ (s.goto d).tmsBuf = s.tmsBuf ∧ (s.goto d).tdiBuf = s.tdiBuf ∧
    (s.goto d).tdoBuf = s.tdoBuf ∧ (s.goto d).lastReason = s.lastReason ∧ (s.goto d).endReason = s.endReason ∧
    (s.goto d).offers = s.offers ∧ (s.goto d).link = s.link ∧ (s.goto d).target = s.target ∧
    (s.goto d).freeIdx = s.freeIdx ∧ (s.goto d).trace = s.trace := by
  repeat' constructor

@[simp] theorem State.raise_sets (s : State) (r : Reason) :
    (s.raise r).dstate = .sEnd ∧ (s.raise r).busy = false ∧ (s.raise r).endReason = r := ⟨rfl, rfl, rfl⟩

@[simp] theorem State.raise_keeps (s : State) (r : Reason) :
    (s.raise r).cfg = s.cfg ∧ (s.raise r).sessActive = s.sessActive ∧ (s.raise r).stream = s.stream ∧
    (s.raise r).tag = s.tag ∧ (s.raise r).period = s.period ∧ (s.raise r).bitCnt = s.bitCnt ∧
    (s.raise r).byteLen = s.byteLen ∧ (s.raise r).hdr = s.hdr ∧ (s.raise r).frDst = s.frDst ∧
    (s.raise r).frN = s.frN ∧ (s.raise r).frGot = s.frGot ∧ (s.raise r).seI = s.seI ∧
    (s.raise r).sePhase = s.sePhase ∧ (s.raise r).lines = s.lines ∧ (s.raise r).tmsBuf = s.tmsBuf ∧
    (s.raise r).tdiBuf = s.tdiBuf ∧ (s.raise r).tdoBuf = s.tdoBuf ∧ (s.raise r).lastReason = s.lastReason ∧
    (s.raise r).offers = s.offers ∧ (s.raise r).link = s.link ∧ (s.raise r).target = s.target ∧
    (s.raise r).freeIdx = s.freeIdx ∧ (s.raise r).trace = s.trace := by
  repeat' constructor

@[simp] theorem State.endSession_sets (s : State) :
    (s.endSession).dstate = .sWait ∧ (s.endSession).sessActive = false ∧ (s.endSession).stream = none ∧
    (s.endSession).busy = false ∧ (s.endSession).lastReason = s.endReason ∧
    (s.endSession).trace = s.trace ++ [.sessionEnd s.endReason] := ⟨rfl, rfl, rfl, rfl, rfl, rfl⟩

@[simp] theorem State.endSession_keeps (s : State) :
    (s.endSession).cfg = s.cfg ∧ (s.endSession).tag = s.tag ∧ (s.endSession).period = s.period ∧
    (s.endSession).bitCnt = s.bitCnt ∧ (s.endSession).byteLen = s.byteLen ∧ (s.endSession).hdr = s.hdr ∧
    (s.endSession).frDst = s.frDst ∧ (s.endSession).frN = s.frN ∧ (s.endSession).frGot = s.frGot ∧
    (s.endSession).seI = s.seI ∧ (s.endSession).sePhase = s.sePhase ∧ (s.endSession).lines = s.lines ∧
    (s.endSession).tmsBuf = s.tmsBuf ∧ (s.endSession).tdiBuf = s.tdiBuf ∧ (s.endSession).tdoBuf = s.tdoBuf ∧
    (s.endSession).endReason = s.endReason ∧ (s.endSession).offers = s.offers ∧ (s.endSession).link = s.link ∧
    (s.endSession).target = s.target ∧ (s.endSession).freeIdx = s.freeIdx := by
  repeat' constructor

@[simp] theorem State.startSession_sets (s : State) (o : Offer) :
    (s.startSession o).dstate = .sTag ∧ (s.startSession o).sessActive = true ∧
    (s.startSession o).stream = some o.handle ∧ (s.startSession o).busy = false ∧
    (s.startSession o).link = { o.link with got := [] } ∧ (s.startSession o).trace = s.trace ++ [.sessionStart] := ⟨rfl, rfl, rfl, rfl, rfl, rfl⟩

@[simp] theorem State.startSession_keeps (s : State) (o : Offer) :
    (s.startSession o).cfg = s.cfg ∧ (s.startSession o).tag = s.tag ∧ (s.startSession o).period = s.period ∧
    (s.startSession o).bitCnt = s.bitCnt ∧ (s.startSession o).byteLen = s.byteLen ∧
    (s.startSession o).hdr = s.hdr ∧ (s.startSession o).frDst = s.frDst ∧ (s.startSession o).frN = s.frN ∧
    (s.startSession o).frGot = s.frGot ∧ (s.startSession o).seI = s.seI ∧ (s.startSession o).sePhase = s.sePhase ∧
    (s.startSession o).lines = s.lines ∧ (s.startSession o).tmsBuf = s.tmsBuf ∧
    (s.startSession o).tdiBuf = s.tdiBuf ∧ (s.startSession o).tdoBuf = s.tdoBuf ∧
    (s.startSession o).lastReason = s.lastReason ∧ (s.startSession o).endReason = s.endReason ∧
    (s.startSession o).offers = s.offers ∧ (s.startSession o).target = s.target ∧
    (s.startSession o).freeIdx = s.freeIdx := by
  repeat' constructor

@[simp] theorem frStart_sets (dst : FrDst) (n : Nat) (s : State) :
    (frStart dst n s).frDst = dst ∧ (frStart dst n s).frN = n ∧ (frStart dst n s).frGot = 0 ∧
    (frStart dst n s).busy = true := ⟨rfl, rfl, rfl, rfl⟩

@[simp] theorem frStart_keeps (dst : FrDst) (n : Nat) (s : State) :
    (frStart dst n s).cfg = s.cfg ∧ (frStart dst n s).dstate = s.dstate ∧
    (frStart dst n s).sessActive = s.sessActive ∧ (frStart dst n s).stream = s.stream ∧
    (frStart dst n s).tag = s.tag ∧ (frStart dst n s).period = s.period ∧ (frStart dst n s).bitCnt = s.bitCnt ∧
    (frStart dst n s).byteLen = s.byteLen ∧ (frStart dst n s).hdr = s.hdr ∧ (frStart dst n s).seI = s.seI ∧
    (frStart dst n s).sePhase = s.sePhase ∧ (frStart dst n s).lines = s.lines ∧
    (frStart dst n s).tmsBuf = s.tmsBuf ∧ (frStart dst n s).tdiBuf = s.tdiBuf ∧
    (frStart dst n s).tdoBuf = s.tdoBuf ∧ (frStart dst n s).lastReason = s.lastReason ∧
    (frStart dst n s).endReason = s.endReason ∧ (frStart dst n s).offers = s.offers ∧
    (frStart dst n s).link = s.link ∧ (frStart dst n s).target = s.target ∧ (frStart dst n s).freeIdx = s.freeIdx ∧
    (frStart dst n s).trace = s.trace := by
  repeat' constructor

@[simp] theorem State.wrote_sets (s : State) (bytes : List Byte) (a : WriteAnswer) :
    (s.wrote bytes a).link = { s.link with writes := s.link.writes.tail, got := s.link.got ++ a.received bytes } ∧
    (s.wrote bytes a).trace = s.trace ++ [.tx bytes a.k] := ⟨rfl, rfl⟩

@[simp] theorem State.wrote_keeps (s : State) (bytes : List Byte) (a : WriteAnswer) :
    (s.wrote bytes a).cfg = s.cfg ∧ (s.wrote bytes a).dstate = s.dstate ∧
    (s.wrote bytes a).sessActive = s.sessActive ∧ (s.wrote bytes a).stream = s.stream ∧
    (s.wrote bytes a).tag = s.tag ∧ (s.wrote bytes a).period = s.period ∧ (s.wrote bytes a).bitCnt = s.bitCnt ∧
    (s.wrote bytes a).byteLen = s.byteLen ∧ (s.wrote bytes a).hdr = s.hdr ∧ (s.wrote bytes a).frDst = s.frDst ∧
    (s.wrote bytes a).frN = s.frN ∧ (s.wrote bytes a).frGot = s.frGot ∧ (s.wrote bytes a).busy = s.busy ∧
    (s.wrote bytes a).seI = s.seI ∧ (s.wrote bytes a).sePhase = s.sePhase ∧ (s.wrote bytes a).lines = s.lines ∧
    (s.wrote bytes a).tmsBuf = s.tmsBuf ∧ (s.wrote bytes a).tdiBuf = s.tdiBuf ∧
    (s.wrote bytes a).tdoBuf = s.tdoBuf ∧ (s.wrote bytes a).lastReason = s.lastReason ∧
    (s.wrote bytes a).endReason = s.endReason ∧ (s.wrote bytes a).offers = s.offers ∧
    (s.wrote bytes a).target = s.target ∧ (s.wrote bytes a).freeIdx = s.freeIdx := by
  repeat' constructor

@[simp] theorem State.drewFree_sets (s : State) :
    (s.drewFree).freeIdx = s.freeIdx + 1 := rfl

@[simp] theorem State.drewFree_keeps (s : State) :
    (s.drewFree).cfg = s.cfg ∧ (s.drewFree).dstate = s.dstate ∧ (s.drewFree).sessActive = s.sessActive ∧
    (s.drewFree).stream = s.stream ∧ (s.drewFree).tag = s.tag ∧ (s.drewFree).period = s.period ∧
    (s.drewFree).bitCnt = s.bitCnt ∧ (s.drewFree).byteLen = s.byteLen ∧ (s.drewFree).hdr = s.hdr ∧
    (s.drewFree).frDst = s.frDst ∧ (s.drewFree).frN = s.frN ∧ (s.drewFree).frGot = s.frGot ∧
    (s.drewFree).busy = s.busy ∧ (s.drewFree).seI = s.seI ∧ (s.drewFree).sePhase = s.sePhase ∧
    (s.drewFree).lines = s.lines ∧ (s.drewFree).tmsBuf = s.tmsBuf ∧ (s.drewFree).tdiBuf = s.tdiBuf ∧
    (s.drewFree).tdoBuf = s.tdoBuf ∧ (s.drewFree).lastReason = s.lastReason ∧
    (s.drewFree).endReason = s.endReason ∧ (s.drewFree).offers = s.offers ∧ (s.drewFree).link = s.link ∧
    (s.drewFree).target = s.target ∧ (s.drewFree).trace = s.trace := by
  repeat' constructor

@[simp] theorem State.withRx_sets (s : State) (bytes : List Byte) :
    (s.withRx bytes).link = { s.link with rx := bytes } := rfl

@[simp] theorem State.withRx_keeps (s : State) (bytes : List Byte) :
    (s.withRx bytes).cfg = s.cfg ∧ (s.withRx bytes).dstate = s.dstate ∧
    (s.withRx bytes).sessActive = s.sessActive ∧ (s.withRx bytes).stream = s.stream ∧
    (s.withRx bytes).tag = s.tag ∧ (s.withRx bytes).period = s.period ∧ (s.withRx bytes).bitCnt = s.bitCnt ∧
    (s.withRx bytes).byteLen = s.byteLen ∧ (s.withRx bytes).hdr = s.hdr ∧ (s.withRx bytes).frDst = s.frDst ∧
    (s.withRx bytes).frN = s.frN ∧ (s.withRx bytes).frGot = s.frGot ∧ (s.withRx bytes).busy = s.busy ∧
    (s.withRx bytes).seI = s.seI ∧ (s.withRx bytes).sePhase = s.sePhase ∧ (s.withRx bytes).lines = s.lines ∧
    (s.withRx bytes).tmsBuf = s.tmsBuf ∧ (s.withRx bytes).tdiBuf = s.tdiBuf ∧ (s.withRx bytes).tdoBuf = s.tdoBuf ∧
    (s.withRx bytes).lastReason = s.lastReason ∧ (s.withRx bytes).endReason = s.endReason ∧
    (s.withRx bytes).offers = s.offers ∧ (s.withRx bytes).target = s.target ∧
    (s.withRx bytes).freeIdx = s.freeIdx ∧ (s.withRx bytes).trace = s.trace := by
  repeat' constructor

@[simp] theorem State.beginFrame_sets (s : State) (frame : List Byte) :
    (s.beginFrame frame).dstate = .sTag ∧ (s.beginFrame frame).busy = false ∧
    (s.beginFrame frame).link = { s.link with rx := frame ++ s.link.rx } := ⟨rfl, rfl, rfl⟩

@[simp] theorem State.beginFrame_keeps (s : State) (frame : List Byte) :
    (s.beginFrame frame).cfg = s.cfg ∧ (s.beginFrame frame).sessActive = s.sessActive ∧
    (s.beginFrame frame).stream = s.stream ∧ (s.beginFrame frame).tag = s.tag ∧
    (s.beginFrame frame).period = s.period ∧ (s.beginFrame frame).bitCnt = s.bitCnt ∧
    (s.beginFrame frame).byteLen = s.byteLen ∧ (s.beginFrame frame).hdr = s.hdr ∧
    (s.beginFrame frame).frDst = s.frDst ∧ (s.beginFrame frame).frN = s.frN ∧
    (s.beginFrame frame).frGot = s.frGot ∧ (s.beginFrame frame).seI = s.seI ∧
    (s.beginFrame frame).sePhase = s.sePhase ∧ (s.beginFrame frame).lines = s.lines ∧
    (s.beginFrame frame).tmsBuf = s.tmsBuf ∧ (s.beginFrame frame).tdiBuf = s.tdiBuf ∧
    (s.beginFrame frame).tdoBuf = s.tdoBuf ∧ (s.beginFrame frame).lastReason = s.lastReason ∧
    (s.beginFrame frame).endReason = s.endReason ∧ (s.beginFrame frame).offers = s.offers ∧
    (s.beginFrame frame).target = s.target ∧ (s.beginFrame frame).freeIdx = s.freeIdx ∧
    (s.beginFrame frame).trace = s.trace := by
  repeat' constructor

@[simp] theorem State.hardReset_sets (s : State) :
    s.hardReset.dstate = .sWait ∧ s.hardReset.sessActive = false ∧ s.hardReset.stream = none ∧
    s.hardReset.tag = State.reset.tag ∧ s.hardReset.period = State.reset.period ∧ s.hardReset.bitCnt = 0 ∧
    s.hardReset.byteLen = 0 ∧ s.hardReset.hdr = State.reset.hdr ∧ s.hardReset.frDst = .sink ∧ s.hardReset.frN = 0 ∧
    s.hardReset.frGot = 0 ∧ s.hardReset.busy = false ∧ s.hardReset.seI = 0 ∧ s.hardReset.sePhase = .pDone ∧
    s.hardReset.lastReason = .none ∧ s.hardReset.endReason = .none ∧ s.hardReset.link = Link.empty ∧
    s.hardReset.trace = [] := by
  repeat' constructor

/-- A reset drives no line and writes no buffer (R270), and the environment's side is not the block's. -/
@[simp] theorem State.hardReset_keeps (s : State) :
    s.hardReset.cfg = s.cfg ∧ s.hardReset.lines = s.lines ∧ s.hardReset.tmsBuf = s.tmsBuf ∧
    s.hardReset.tdiBuf = s.tdiBuf ∧ s.hardReset.tdoBuf = s.tdoBuf ∧ s.hardReset.offers = s.offers ∧
    s.hardReset.target = s.target ∧ s.hardReset.freeIdx = s.freeIdx := by
  repeat' constructor

/-- Replacing a buffer replaces that buffer. -/
@[simp] theorem State.buf_setBuf_same (s : State) (b : Buf) (m : Memory) : (s.setBuf b m).buf b = m := by
  cases b <;> rfl

/-- Replacing a buffer leaves the other two. -/
theorem State.buf_setBuf_other (s : State) {b c : Buf} (m : Memory) (h : c ≠ b) : (s.setBuf b m).buf c = s.buf c := by
  cases b <;> cases c <;> first | rfl | exact absurd rfl h

@[simp] theorem State.setBuf_keeps (s : State) (b : Buf) (m : Memory) :
    (s.setBuf b m).cfg = s.cfg ∧ (s.setBuf b m).dstate = s.dstate ∧ (s.setBuf b m).sessActive = s.sessActive ∧
    (s.setBuf b m).stream = s.stream ∧ (s.setBuf b m).tag = s.tag ∧ (s.setBuf b m).period = s.period ∧
    (s.setBuf b m).bitCnt = s.bitCnt ∧ (s.setBuf b m).byteLen = s.byteLen ∧ (s.setBuf b m).hdr = s.hdr ∧
    (s.setBuf b m).frDst = s.frDst ∧ (s.setBuf b m).frN = s.frN ∧ (s.setBuf b m).frGot = s.frGot ∧
    (s.setBuf b m).busy = s.busy ∧ (s.setBuf b m).seI = s.seI ∧ (s.setBuf b m).sePhase = s.sePhase ∧
    (s.setBuf b m).lines = s.lines ∧ (s.setBuf b m).lastReason = s.lastReason ∧
    (s.setBuf b m).endReason = s.endReason ∧ (s.setBuf b m).offers = s.offers ∧ (s.setBuf b m).link = s.link ∧
    (s.setBuf b m).target = s.target ∧ (s.setBuf b m).freeIdx = s.freeIdx ∧ (s.setBuf b m).trace = s.trace := by
  cases b <;> repeat' constructor

end Sys2Proof.Machine
end

