-- ==== Sys2Proof/Laws/Memory.lean ====
section
/-! SUPPORT. The laws of a buffer's memory: a read after a write, and that a write keeps the canonical form. -/

namespace Sys2Proof.Machine

namespace Memory

@[simp] theorem read_nil (j : Nat) : read [] j = unlisted := rfl

theorem read_cons (a : Nat) (v : Byte) (rest : Memory) (j : Nat) :
    read ((a, v) :: rest) j = if a = j then v else read rest j := rfl

theorem wfFrom_cons {hi lo a : Nat} {v : Byte} {rest : Memory} :
    wfFrom hi lo ((a, v) :: rest) = true ↔ lo ≤ a ∧ a < hi ∧ v ≠ unlisted ∧ wfFrom hi (a + 1) rest = true := by
  simp [wfFrom, and_assoc]

/-- The canonical form from a bound holds from a lower one. -/
theorem wfFrom_mono {hi lo lo' : Nat} (h : lo' ≤ lo) : ∀ {m : Memory}, wfFrom hi lo m = true → wfFrom hi lo' m = true
  | [], _ => rfl
  | (a, v) :: rest, hm => by
    rw [wfFrom_cons] at hm ⊢
    exact ⟨h.trans hm.1, hm.2⟩

/-- An index below every listed one reads as unlisted. -/
theorem read_of_lt {hi : Nat} : ∀ {m : Memory} {lo j : Nat}, wfFrom hi lo m = true → j < lo → read m j = unlisted
  | [], _, _, _, _ => rfl
  | (a, v) :: rest, lo, j, hm, hj => by
    rw [wfFrom_cons] at hm
    rw [read_cons, if_neg (by omega)]
    exact read_of_lt hm.2.2.2 (by omega)

/-- An index that does not exist reads as unlisted. -/
theorem read_of_ge {hi : Nat} : ∀ {m : Memory} {lo j : Nat}, wfFrom hi lo m = true → hi ≤ j → read m j = unlisted
  | [], _, _, _, _ => rfl
  | (a, v) :: rest, lo, j, hm, hj => by
    rw [wfFrom_cons] at hm
    rw [read_cons, if_neg (by omega)]
    exact read_of_ge hm.2.2.2 hj

/-- A write changes what its own index reads as, and nothing else; canonical form is what makes it hold when the
written value removes an entry. -/
theorem read_write {hi : Nat} : ∀ {m : Memory} {lo : Nat}, wfFrom hi lo m = true → ∀ (j : Nat) (v : Byte) (k : Nat),
    read (write m j v) k = if j = k then v else read m k
  | [], _, _, j, v, k => by
    unfold write
    split
    · simp_all
    · simp [read_cons]
  | (a, w) :: rest, lo, hm, j, v, k => by
    rw [wfFrom_cons] at hm
    have ih := read_write hm.2.2.2 j v k
    unfold write
    split
    · have hlow : read ((a, w) :: rest) j = unlisted := by
        rw [read_cons, if_neg (by omega)]
        exact read_of_lt hm.2.2.2 (by omega)
      split
      · by_cases hk : j = k <;> simp_all
      · simp [read_cons]
    · split
      · have hlow : read rest j = unlisted := read_of_lt hm.2.2.2 (by omega)
        split
        · by_cases hk : j = k
          · simp_all
          · simp [read_cons, hk, show a ≠ k by omega]
        · by_cases hk : j = k <;> simp [read_cons, hk, show ∀ h : j ≠ k, a ≠ k by omega]
      · rw [read_cons, read_cons, ih]
        by_cases hk : j = k
        · rw [if_neg (by omega), if_pos hk, if_pos hk]
        · rw [if_neg hk, if_neg hk]

/-- A write keeps the canonical form. -/
theorem wfFrom_write {hi : Nat} : ∀ {m : Memory} {lo : Nat}, wfFrom hi lo m = true → ∀ (j : Nat) (v : Byte),
    lo ≤ j → j < hi → wfFrom hi lo (write m j v) = true
  | [], lo, _, j, v, hlo, hhi => by
    unfold write
    split
    · rfl
    · rw [wfFrom_cons]; exact ⟨hlo, hhi, ‹_›, rfl⟩
  | (a, w) :: rest, lo, hm, j, v, hlo, hhi => by
    have hm' := hm
    rw [wfFrom_cons] at hm
    unfold write
    split
    · split
      · exact hm'
      · rw [wfFrom_cons, wfFrom_cons]
        exact ⟨hlo, hhi, ‹_›, by omega, hm.2⟩
    · split
      · split
        · exact wfFrom_mono (by omega) hm.2.2.2
        · rw [wfFrom_cons]
          exact ⟨hlo, hhi, ‹_›, wfFrom_mono (by omega) hm.2.2.2⟩
      · rw [wfFrom_cons]
        exact ⟨hm.1, hm.2.1, hm.2.2.1, wfFrom_write hm.2.2.2 j v (by omega) hhi⟩

/-- A write inside the buffer keeps the buffer's canonical form. -/
theorem wf_write {capacity : Nat} {m : Memory} (hm : wf capacity m = true) {j : Nat} (hj : j < capacity) (v : Byte) :
    wf capacity (write m j v) = true := wfFrom_write hm j v (Nat.zero_le j) hj

theorem read_write_same {capacity : Nat} {m : Memory} (hm : wf capacity m = true) (j : Nat) (v : Byte) :
    read (write m j v) j = v := by rw [read_write hm]; simp

theorem read_write_other {capacity : Nat} {m : Memory} (hm : wf capacity m = true) {j k : Nat} (h : j ≠ k) (v : Byte) :
    read (write m j v) k = read m k := by rw [read_write hm]; simp [h]

/-- Two canonical memories that read alike are one. -/
theorem eq_of_read_eq {hi : Nat} : ∀ {m n : Memory} {lo : Nat}, wfFrom hi lo m = true → wfFrom hi lo n = true →
    (∀ j, read m j = read n j) → m = n
  | [], [], _, _, _, _ => rfl
  | [], (a, v) :: rest, lo, _, hn, h => by
    rw [wfFrom_cons] at hn
    have := h a
    simp [read_cons] at this
    exact absurd this.symm hn.2.2.1
  | (a, v) :: rest, [], lo, hm, _, h => by
    rw [wfFrom_cons] at hm
    have := h a
    simp [read_cons] at this
    exact absurd this hm.2.2.1
  | (a, v) :: rest, (b, w) :: rest', lo, hm, hn, h => by
    have hm' := hm
    have hn' := hn
    rw [wfFrom_cons] at hm hn
    have hab : a = b := by
      have ha := h a
      have hb := h b
      rw [read_cons, read_cons, if_pos rfl] at ha
      rw [read_cons, read_cons, if_pos rfl] at hb
      by_contra hne
      rw [if_neg (Ne.symm hne)] at ha
      rw [if_neg hne] at hb
      rcases Nat.lt_or_gt_of_ne hne with hlt | hgt
      · exact hm.2.2.1 (by rw [ha]; exact read_of_lt hn.2.2.2 (by omega))
      · exact hn.2.2.1 (by rw [← hb]; exact read_of_lt hm.2.2.2 (by omega))
    subst hab
    have hv : v = w := by simpa [read_cons] using h a
    subst hv
    have : rest = rest' := eq_of_read_eq hm.2.2.2 hn.2.2.2 (fun j => by
      by_cases hj : a = j
      · subst hj
        rw [read_of_lt hm.2.2.2 (by omega), read_of_lt hn.2.2.2 (by omega)]
      · simpa [read_cons, hj] using h j)
    rw [this]

end Memory

end Sys2Proof.Machine
end

