-- ==== Sys2Proof/Laws/Ops.lean ====
section
/-! SUPPORT. One lemma per shared operation, saying what it can do: sequencing, the buffers, the bits, the stores of a
transfer, the response write, the GPIO lines. Callers cite these and do not unfold the operation. -/

namespace Sys2Proof.Machine

/-! ### Sequencing -/

@[simp] theorem andThen_next {α β : Type} (a : α) (f : α → Result β) : andThen (.next a : Result α) f = f a := rfl
@[simp] theorem andThen_fault {α β : Type} (r : Fault) (f : α → Result β) :
    andThen (.fault r : Result α) f = .fault r := rfl
@[simp] theorem andThen_refused {α β : Type} (r : Refusal) (f : α → Result β) :
    andThen (.refused r : Result α) f = .refused r := rfl

theorem andThen_assoc {α β γ : Type} (o : Result α) (f : α → Result β) (g : β → Result γ) :
    andThen (andThen o f) g = andThen o fun a => andThen (f a) g := by cases o <;> rfl

/-- A sequence answers a next value only through both of its parts. -/
theorem andThen_eq_next {α β : Type} {o : Result α} {f : α → Result β} {b : β} :
    andThen o f = .next b ↔ ∃ a, o = .next a ∧ f a = .next b := by
  cases o <;> simp

theorem andThen_eq_fault {α β : Type} {o : Result α} {f : α → Result β} {r : Fault} :
    andThen o f = .fault r ↔ o = .fault r ∨ ∃ a, o = .next a ∧ f a = .fault r := by
  cases o <;> simp

theorem andThen_eq_refused {α β : Type} {o : Result α} {f : α → Result β} {r : Refusal} :
    andThen o f = .refused r ↔ o = .refused r ∨ ∃ a, o = .next a ∧ f a = .refused r := by
  cases o <;> simp

/-! ### Buffers -/

@[simp] theorem buf_tms (s : State) : s.buf .tms = s.tmsBuf := rfl
@[simp] theorem buf_tdi (s : State) : s.buf .tdi = s.tdiBuf := rfl
@[simp] theorem buf_tdo (s : State) : s.buf .tdo = s.tdoBuf := rfl

theorem bufRead_of_lt {b : Buf} {j : Nat} {s : State} (h : j < s.cfg.capacityBytes) :
    bufRead b j s = .next (Memory.read (s.buf b) j) := if_pos h

theorem bufRead_of_ge {b : Buf} {j : Nat} {s : State} (h : s.cfg.capacityBytes ≤ j) :
    bufRead b j s = .fault (.bufferIndex b j) := if_neg (by omega)

theorem bufWrite_of_lt {b : Buf} {j : Nat} {v : Byte} {s : State} (h : j < s.cfg.capacityBytes) :
    bufWrite b j v s = .next (s.setBuf b (Memory.write (s.buf b) j v)) := if_pos h

theorem bufWrite_of_ge {b : Buf} {j : Nat} {v : Byte} {s : State} (h : s.cfg.capacityBytes ≤ j) :
    bufWrite b j v s = .fault (.bufferIndex b j) := if_neg (by omega)

/-- Reading bytes that all exist gives them in order. -/
theorem memRead_of_le {b : Buf} {s : State} : ∀ {n j : Nat}, j + n ≤ s.cfg.capacityBytes →
    memRead b j n s = .next ((List.range' j n).map (Memory.read (s.buf b)))
  | 0, _, _ => rfl
  | n + 1, j, h => by
    rw [memRead, bufRead_of_lt (by omega), andThen_next, memRead_of_le (by omega)]
    rfl

theorem bitRead_of_lt {b : Buf} {i : Nat} {s : State} (h : i / 8 < s.cfg.capacityBytes) :
    bitRead b i s = .next ((s.buf b).bit i) := by
  rw [bitRead, bufRead_of_lt h]; rfl

/-- The buffer's contents after a bit write. -/
def Memory.writeBit (m : Memory) (i : Nat) (level : Bool) : Memory :=
  Memory.write m (i / 8) (withBit (Memory.read m (i / 8)) (i % 8) level)

theorem bitWrite_of_lt {b : Buf} {i : Nat} {level : Bool} {s : State} (h : i / 8 < s.cfg.capacityBytes) :
    bitWrite b i level s = .next (s.setBuf b ((s.buf b).writeBit i level)) := by
  rw [bitWrite, bufRead_of_lt h, andThen_next, bufWrite_of_lt h]; rfl

/-- A bit write sets its own bit of the byte and leaves the other seven (00_scope.md R17). -/
theorem bitOf_withBit (v : Byte) (k l : Nat) (hk : k < 8) (level : Bool) :
    bitOf (withBit v k level) l = if l = k then level else bitOf v l := by
  unfold bitOf withBit
  by_cases hl : l < 8
  · cases level <;> by_cases h : l = k <;> simp [h, hl, hk]
    · omega
    · intro hkl; omega
  · cases level <;> simp [BitVec.getLsbD_of_ge _ _ (Nat.le_of_not_lt hl), show l ≠ k by omega]

/-- A bit write changes that bit of the buffer and no other. -/
theorem Memory.bit_writeBit {capacity : Nat} {m : Memory} (hm : Memory.wf capacity m = true) (i : Nat) (level : Bool)
    (k : Nat) : (m.writeBit i level).bit k = if k = i then level else m.bit k := by
  unfold Memory.bit Memory.writeBit
  rw [Memory.read_write hm]
  by_cases hb : i / 8 = k / 8
  · rw [if_pos hb, bitOf_withBit _ _ _ (Nat.mod_lt _ (by decide)), hb]
    by_cases hk : k = i
    · simp [hk]
    · rw [if_neg hk, if_neg (by omega)]
  · rw [if_neg hb, if_neg (by intro h; exact hb (by rw [h]))]

theorem Memory.wf_writeBit {capacity : Nat} {m : Memory} (hm : Memory.wf capacity m = true) {i : Nat}
    (h : i / 8 < capacity) (level : Bool) : Memory.wf capacity (m.writeBit i level) = true :=
  Memory.wf_write hm h _

/-- The buffer's contents after bytes were written from index `j` on. -/
def Memory.writeBytes : Memory → Nat → List Byte → Memory
  | m, _, [] => m
  | m, j, v :: vs => Memory.writeBytes (Memory.write m j v) (j + 1) vs

theorem Memory.wf_writeBytes {capacity : Nat} : ∀ {vs : List Byte} {m : Memory} {j : Nat},
    Memory.wf capacity m = true → j + vs.length ≤ capacity → Memory.wf capacity (m.writeBytes j vs) = true
  | [], _, _, hm, _ => hm
  | v :: vs, m, j, hm, h => by
    simp only [List.length_cons] at h
    exact Memory.wf_writeBytes (vs := vs) (Memory.wf_write hm (by omega) v) (by omega)

theorem Memory.read_writeBytes {capacity : Nat} : ∀ {vs : List Byte} {m : Memory} {j : Nat},
    Memory.wf capacity m = true → j + vs.length ≤ capacity → ∀ k, (m.writeBytes j vs).read k =
      if j ≤ k ∧ k < j + vs.length then vs.getD (k - j) 0 else m.read k
  | [], _, _, _, _, k => by simp [Memory.writeBytes]
  | v :: vs, m, j, hm, h, k => by
    simp only [List.length_cons] at h
    rw [Memory.writeBytes, Memory.read_writeBytes (Memory.wf_write hm (by omega) v) (by omega), Memory.read_write hm]
    by_cases h1 : j = k
    · subst h1; simp
    · by_cases h2 : j + 1 ≤ k ∧ k < j + 1 + vs.length
      · rw [if_pos h2, if_pos (by simp; omega), show k - j = (k - (j + 1)) + 1 by omega]
        simp
      · rw [if_neg h2, if_neg h1, if_neg (by simp; omega)]

/-! ### The stores of a transfer -/

theorem storeBytes_append {dst : FrDst} : ∀ {xs ys : List Byte} {j : Nat} {s : State},
    storeBytes dst j (xs ++ ys) s = andThen (storeBytes dst j xs s) (storeBytes dst (j + xs.length) ys)
  | [], _, _, _ => rfl
  | x :: xs, ys, j, s => by
    simp only [List.cons_append, storeBytes, andThen_assoc, List.length_cons]
    congr 1
    funext t
    rw [storeBytes_append, Nat.add_assoc, Nat.add_comm 1]

@[simp] theorem storeBytes_sink : ∀ (bs : List Byte) (j : Nat) (s : State), storeBytes .sink j bs s = .next s
  | [], _, _ => rfl
  | _ :: vs, j, s => storeBytes_sink vs (j + 1) s

theorem storeBytes_tag (a b : Byte) (s : State) :
    storeBytes .tag 0 [a, b] s = .next { s with tag := #v[a, b] } := by
  have : (s.tag.set 0 a).set 1 b = #v[a, b] := by
    ext i hi; rcases i with _ | _ | i <;> (simp; try omega)
  simp [storeBytes, storeByte, this]

theorem storeBytes_period (a b c d : Byte) (s : State) :
    storeBytes .period 0 [a, b, c, d] s = .next { s with period := #v[a, b, c, d] } := by
  have : (((s.period.set 0 a).set 1 b).set 2 c).set 3 d = #v[a, b, c, d] := by
    ext i hi; rcases i with _ | _ | _ | _ | i <;> (simp; try omega)
  simp [storeBytes, storeByte, this]

theorem storeBytes_hdr (a b c d e f g h : Byte) (s : State) :
    storeBytes .hdr 0 [a, b, c, d, e, f, g, h] s = .next { s with hdr := #v[a, b, c, d, e, f, g, h] } := by
  have : (((((((s.hdr.set 0 a).set 1 b).set 2 c).set 3 d).set 4 e).set 5 f).set 6 g).set 7 h =
      #v[a, b, c, d, e, f, g, h] := by
    ext i hi; rcases i with _ | _ | _ | _ | _ | _ | _ | _ | i <;> (simp; try omega)
  simp [storeBytes, storeByte, this]

theorem storeBytes_tms : ∀ {bs : List Byte} {j : Nat} {s : State}, j + bs.length ≤ s.cfg.capacityBytes →
    storeBytes .tmsBuf j bs s = .next { s with tmsBuf := s.tmsBuf.writeBytes j bs }
  | [], _, _, _ => rfl
  | v :: vs, j, s, h => by
    simp only [List.length_cons] at h
    rw [storeBytes, storeByte, bufWrite_of_lt (by omega), andThen_next, storeBytes_tms (by simp; omega)]
    rfl

theorem storeBytes_tdi : ∀ {bs : List Byte} {j : Nat} {s : State}, j + bs.length ≤ s.cfg.capacityBytes →
    storeBytes .tdiBuf j bs s = .next { s with tdiBuf := s.tdiBuf.writeBytes j bs }
  | [], _, _, _ => rfl
  | v :: vs, j, s, h => by
    simp only [List.length_cons] at h
    rw [storeBytes, storeByte, bufWrite_of_lt (by omega), andThen_next, storeBytes_tdi (by simp; omega)]
    rfl

/-- The registers of a transfer and the stream side, replaced together: what a store neither reads nor writes. -/
def State.withTransfer (s : State) (dst : FrDst) (n got : Nat) (busy : Bool) (l : Link) (tr : List Event) : State :=
  { s with frDst := dst, frN := n, frGot := got, busy := busy, link := l, trace := tr }

theorem storeByte_withTransfer (dst : FrDst) (j : Nat) (v : Byte) (s : State) (d : FrDst) (n got : Nat) (busy : Bool)
    (l : Link) (tr : List Event) :
    storeByte dst j v (s.withTransfer d n got busy l tr) =
      andThen (storeByte dst j v s) fun t => .next (t.withTransfer d n got busy l tr) := by
  cases dst
  · by_cases h : j < 2 <;> simp [storeByte, h, State.withTransfer]
  · rfl
  · by_cases h : j < 4 <;> simp [storeByte, h, State.withTransfer]
  · by_cases h : j < 8 <;> simp [storeByte, h, State.withTransfer]
  · by_cases h : j < s.cfg.capacityBytes <;> simp [storeByte, bufWrite, h, State.withTransfer, State.setBuf, State.buf]
  · by_cases h : j < s.cfg.capacityBytes <;> simp [storeByte, bufWrite, h, State.withTransfer, State.setBuf, State.buf]

theorem storeBytes_withTransfer (dst : FrDst) (d : FrDst) (n got : Nat) (busy : Bool) (l : Link) (tr : List Event) :
    ∀ (bs : List Byte) (j : Nat) (s : State), storeBytes dst j bs (s.withTransfer d n got busy l tr) =
      andThen (storeBytes dst j bs s) fun t => .next (t.withTransfer d n got busy l tr)
  | [], _, _ => rfl
  | v :: vs, j, s => by
    simp only [storeBytes, storeByte_withTransfer, andThen_assoc, andThen_next]
    congr 1
    funext t
    exact storeBytes_withTransfer dst d n got busy l tr vs (j + 1) t

/-- A transfer into a buffer is a `MemWrite` of its bytes (R17, R80). -/
theorem memWrite_tms : ∀ (bs : List Byte) (j : Nat) (s : State), memWrite .tms j bs s = storeBytes .tmsBuf j bs s
  | [], _, _ => rfl
  | v :: vs, j, s => congrArg (andThen (bufWrite .tms j v s)) (funext fun t => memWrite_tms vs (j + 1) t)

theorem memWrite_tdi : ∀ (bs : List Byte) (j : Nat) (s : State), memWrite .tdi j bs s = storeBytes .tdiBuf j bs s
  | [], _, _ => rfl
  | v :: vs, j, s => congrArg (andThen (bufWrite .tdi j v s)) (funext fun t => memWrite_tdi vs (j + 1) t)

/-! ### The streams -/

theorem Link.readCount_pos {l : Link} {m : Nat} (hm : 0 < m) (hrx : l.rx ≠ []) : 0 < l.readCount m := by
  have := List.length_pos_of_ne_nil hrx
  unfold Link.readCount
  omega

theorem Link.readCount_le (l : Link) (m : Nat) : l.readCount m ≤ m ∧ l.readCount m ≤ l.rx.length := by
  unfold Link.readCount
  omega

/-- A read of a stream that has bytes returns the next ones, at least 1 and at most what was asked (R81). -/
theorem streamRead_of_ne_nil {m : Nat} {l : Link} (h : l.rx ≠ []) :
    streamRead m l = .bytes (l.rx.take (l.readCount m))
      { l with rx := l.rx.drop (l.readCount m), splits := l.splits.tail } := by
  unfold streamRead
  split
  · contradiction
  · rfl

theorem streamRead_stop {m e : Nat} {l : Link} (h : l.rx = []) (he : l.rxEnd = some e) : streamRead m l = .stop e := by
  simp [streamRead, h, he]

theorem streamRead_silent {m : Nat} {l : Link} (h : l.rx = []) (he : l.rxEnd = none) : streamRead m l = .silent := by
  simp [streamRead, h, he]

theorem respWrite_nil (s : State) : respWrite [] s = .next (s.goto .sTag) := rfl

theorem respWrite_waits {bytes : List Byte} {s : State} (hb : bytes ≠ []) (hw : s.link.writes = []) :
    respWrite bytes s = .next s := by
  simp [respWrite, hb, hw]

/-- A response H takes whole goes on to the next frame (R86). -/
theorem respWrite_ok {bytes : List Byte} {s : State} {a : WriteAnswer} {ws : List WriteAnswer} (hb : bytes ≠ [])
    (hw : s.link.writes = a :: ws) (hk : a.k = bytes.length) :
    respWrite bytes s = .next ((s.wrote bytes a).goto .sTag) := by
  simp [respWrite, hb, hw, classifyWrite, hk]

theorem respWrite_failTransport {bytes : List Byte} {s : State} {a : WriteAnswer} {ws : List WriteAnswer}
    (hb : bytes ≠ []) (hw : s.link.writes = a :: ws) (hk : a.k ≤ 0) :
    respWrite bytes s = .next ((s.wrote bytes a).raise .txFail) := by
  have := List.length_pos_of_ne_nil hb
  simp [respWrite, hb, hw, classifyWrite, hk, show ¬ a.k = bytes.length by omega]

theorem respWrite_failShort {bytes : List Byte} {s : State} {a : WriteAnswer} {ws : List WriteAnswer}
    (hb : bytes ≠ []) (hw : s.link.writes = a :: ws) (h0 : 0 < a.k) (hk : a.k < bytes.length) :
    respWrite bytes s = .next ((s.wrote bytes a).raise .shortWrite) := by
  simp [respWrite, hb, hw, classifyWrite, hk, show ¬ a.k = bytes.length by omega, show ¬ a.k ≤ 0 by omega]

theorem respWrite_outOfRange {bytes : List Byte} {s : State} {a : WriteAnswer} {ws : List WriteAnswer}
    (hb : bytes ≠ []) (hw : s.link.writes = a :: ws) (hk : (bytes.length : Int) < a.k) :
    respWrite bytes s = .refused .writeAboveRequest := by
  simp [respWrite, hb, hw, classifyWrite, show ¬ a.k = bytes.length by omega, show ¬ a.k ≤ 0 by omega,
    show ¬ a.k < bytes.length by omega]

/-- When the write returns its whole count, H has every byte (R88). -/
theorem WriteAnswer.received_all {a : WriteAnswer} {bytes : List Byte} (hb : bytes ≠ []) (hk : a.k = bytes.length) :
    a.received bytes = bytes := by
  have := List.length_pos_of_ne_nil hb
  rw [WriteAnswer.received, if_pos (by omega), hk, Int.toNat_natCast, List.take_length]

/-- Everything a response write can do: go on with nothing written, wait, or answer in one of four ways. -/
theorem respWrite_cases (bytes : List Byte) (s : State) :
    (bytes = [] ∧ respWrite bytes s = .next (s.goto .sTag)) ∨
    (bytes ≠ [] ∧ s.link.writes = [] ∧ respWrite bytes s = .next s) ∨
    ∃ a ws, bytes ≠ [] ∧ s.link.writes = a :: ws ∧
      ((a.k = bytes.length ∧ respWrite bytes s = .next ((s.wrote bytes a).goto .sTag)) ∨
       (a.k ≤ 0 ∧ respWrite bytes s = .next ((s.wrote bytes a).raise .txFail)) ∨
       (0 < a.k ∧ a.k < bytes.length ∧ respWrite bytes s = .next ((s.wrote bytes a).raise .shortWrite)) ∨
       ((bytes.length : Int) < a.k ∧ respWrite bytes s = .refused .writeAboveRequest)) := by
  by_cases hb : bytes = []
  · subst hb; exact .inl ⟨rfl, rfl⟩
  · right
    rcases hw : s.link.writes with _ | ⟨a, ws⟩
    · exact .inl ⟨hb, rfl, respWrite_waits hb hw⟩
    · refine .inr ⟨a, ws, hb, rfl, ?_⟩
      by_cases h1 : a.k = bytes.length
      · exact .inl ⟨h1, respWrite_ok hb hw h1⟩
      · by_cases h2 : a.k ≤ 0
        · exact .inr (.inl ⟨h2, respWrite_failTransport hb hw h2⟩)
        · by_cases h3 : a.k < bytes.length
          · exact .inr (.inr (.inl ⟨by omega, h3, respWrite_failShort hb hw (by omega) h3⟩))
          · exact .inr (.inr (.inr ⟨by omega, respWrite_outOfRange hb hw (by omega)⟩))

/-! ### The lines -/

theorem gpioSetClr_of_disjoint {a c : LineSet} {s : State} (h : a.disjoint c = true) :
    gpioSetClr a c s = .next { s with
      lines := s.lines.update a c, trace := s.trace ++ [.setClr a c (s.lines.update a c)] } := if_pos h

theorem gpioSetClr_of_overlap {a c : LineSet} {s : State} (h : a.disjoint c = false) :
    gpioSetClr a c s = .refused .overlappingSetClr := by simp [gpioSetClr, h]

/-- What T presents when TDI stands at `tdi`: the level, T after it, and the counter of free values after it. -/
def Target.draw (tg : Target) (idx : Nat) (tdi : Bool) : Bool × Target × Nat :=
  match tg with
  | .levels (b :: rest) => (b, .levels rest, idx)
  | .levels [] => (Config.freeTdoLevel idx, .levels [], idx + 1)
  | .wireLoopback => (tdi, .wireLoopback, idx)

/-- A TDO read draws from T, records the sample, and changes nothing of the block (R213). -/
theorem gpioRead_eq (s : State) : gpioRead s =
    ((s.target.draw s.freeIdx s.lines.tdi).1,
     { s with
       target := (s.target.draw s.freeIdx s.lines.tdi).2.1
       freeIdx := (s.target.draw s.freeIdx s.lines.tdi).2.2
       trace := s.trace ++ [.sample (s.target.draw s.freeIdx s.lines.tdi).1] }) := by
  unfold gpioRead
  split <;> rename_i h <;> cases s <;> simp only at h <;> subst h <;> rfl

end Sys2Proof.Machine
end

