-- ==== Sys2Proof/Laws/FrameReader.lean ====
section
/-! SUPPORT. The Frame Reader: a transfer whose bytes H sends completes, however H splits it. -/

namespace Sys2Proof.Machine

theorem Receives.nil : Receives [] [] := ⟨by simp, rfl⟩

theorem Receives.append {e1 e2 : List Event} {b1 b2 : List Byte} (h1 : Receives e1 b1) (h2 : Receives e2 b2) :
    Receives (e1 ++ e2) (b1 ++ b2) :=
  ⟨by simpa [or_imp, forall_and] using ⟨h1.allReads, h2.allReads⟩, by rw [List.flatMap_append, h1.bytesAre, h2.bytesAre]⟩

theorem Receives.single {m : Nat} {data : List Byte} (h0 : 0 < data.length) (hm : data.length ≤ m) :
    Receives [.rx m data.length data] data :=
  ⟨by simp [Event.isRead, h0, hm], by simp [Event.rxData]⟩

/-- One turn of the loop with bytes on the stream, the stores going through. -/
theorem frTurn_reads {s t : State} {r : Nat} (hn : s.frGot < s.frN) (hrx : s.link.rx ≠ [])
    (hr : r = s.link.readCount (s.frN - s.frGot)) (hst : storeBytes s.frDst s.frGot (s.link.rx.take r) s = .next t) :
    frTurn s = .next (.more, t.withTransfer s.frDst s.frN (s.frGot + r) s.busy
      { s.link with rx := s.link.rx.drop r, splits := s.link.splits.tail }
      (s.trace ++ [.rx (s.frN - s.frGot) r (s.link.rx.take r)])) := by
  have hle := s.link.readCount_le (s.frN - s.frGot)
  have hlen : (s.link.rx.take r).length = r := by rw [List.length_take]; omega
  have key : ({ s with link := { s.link with rx := s.link.rx.drop r, splits := s.link.splits.tail } }.emit
      (.rx (s.frN - s.frGot) r (s.link.rx.take r))) = s.withTransfer s.frDst s.frN s.frGot s.busy
      { s.link with rx := s.link.rx.drop r, splits := s.link.splits.tail }
      (s.trace ++ [.rx (s.frN - s.frGot) r (s.link.rx.take r)]) := rfl
  rw [frTurn, if_pos hn, streamRead_of_ne_nil hrx]
  simp only [← hr, hlen, key, storeBytes_withTransfer, hst, andThen_next]
  rfl

/-- The loop with all of its bytes on the stream ends with `OK`, the bytes stored and counted, and nothing consumed
beyond them; only the splitting shows, in the read events (20_memory.md R80, R82). -/
theorem frLoop_complete : ∀ (fuel : Nat) (s t : State) (data rest : List Byte), data.length < fuel →
    s.frGot + data.length = s.frN → s.link.rx = data ++ rest →
    storeBytes s.frDst s.frGot data s = .next t →
    ∃ evs splits, Receives evs data ∧ frLoop fuel s = .next (.done, t.withTransfer s.frDst s.frN s.frN s.busy
      { s.link with rx := rest, splits := splits } (s.trace ++ evs))
  | 0, _, _, _, _, hf, _, _, _ => by omega
  | fuel + 1, s, t, data, rest, hf, hn, hrx, hst => by
    rcases data with _ | ⟨v, vs⟩
    · simp only [storeBytes] at hst
      cases hst
      refine ⟨[], s.link.splits, Receives.nil, ?_⟩
      simp only [List.length_nil, Nat.add_zero] at hn
      rw [frLoop, frTurn, if_neg (by omega)]
      simp only [andThen_next, State.withTransfer, List.append_nil]
      rw [List.nil_append] at hrx
      rw [← hrx]
      have hs : s = { s with frGot := s.frN } := by cases s; simp_all
      exact congrArg (fun u => Host.Outcome.next (Progress.done, u)) hs
    · have hne : s.link.rx ≠ [] := by rw [hrx]; simp
      have hlt : s.frGot < s.frN := by simp only [List.length_cons] at hn; omega
      obtain ⟨r, hr⟩ : ∃ r, r = s.link.readCount (s.frN - s.frGot) := ⟨_, rfl⟩
      have hpos := Link.readCount_pos (l := s.link) (m := s.frN - s.frGot) (by omega) hne
      have hle := s.link.readCount_le (s.frN - s.frGot)
      rw [← hr] at hpos hle
      have hrd : r ≤ (v :: vs).length := by omega
      have htake : s.link.rx.take r = (v :: vs).take r := by rw [hrx, List.take_append_of_le_length hrd]
      have hdrop : s.link.rx.drop r = (v :: vs).drop r ++ rest := by rw [hrx, List.drop_append_of_le_length hrd]
      have hlen : ((v :: vs).take r).length = r := by rw [List.length_take]; omega
      have hsplit : storeBytes s.frDst s.frGot ((v :: vs).take r ++ (v :: vs).drop r) s = .next t := by
        rw [List.take_append_drop]; exact hst
      rw [storeBytes_append, andThen_eq_next, hlen] at hsplit
      obtain ⟨t1, ht1, ht2⟩ := hsplit
      have hturn := frTurn_reads hlt hne hr (by rw [htake]; exact ht1)
      have ih := frLoop_complete fuel
        (t1.withTransfer s.frDst s.frN (s.frGot + r) s.busy
          { s.link with rx := s.link.rx.drop r, splits := s.link.splits.tail }
          (s.trace ++ [.rx (s.frN - s.frGot) r (s.link.rx.take r)]))
        (t.withTransfer s.frDst s.frN (s.frGot + r) s.busy
          { s.link with rx := s.link.rx.drop r, splits := s.link.splits.tail }
          (s.trace ++ [.rx (s.frN - s.frGot) r (s.link.rx.take r)]))
        ((v :: vs).drop r) rest (by rw [List.length_drop]; omega)
        (by simp only [State.withTransfer, List.length_drop]; omega) hdrop
        (by
          simp only [storeBytes_withTransfer]
          simp only [State.withTransfer] at ht2 ⊢
          rw [ht2]; rfl)
      obtain ⟨evs, splits, hrec, hloop⟩ := ih
      refine ⟨.rx (s.frN - s.frGot) r ((v :: vs).take r) :: evs, splits, ?_, ?_⟩
      · have := (Receives.single (m := s.frN - s.frGot) (data := (v :: vs).take r) (by omega) (by omega)).append hrec
        rw [hlen, List.take_append_drop] at this
        exact this
      · rw [frLoop, hturn]
        simp only [andThen_next]
        rw [hloop]
        simp only [State.withTransfer, htake, List.append_assoc, List.singleton_append]

/-- A whole transfer with all of its bytes on the stream. -/
theorem frameRead_complete {dst : FrDst} {s t : State} {data rest : List Byte} (hrx : s.link.rx = data ++ rest)
    (hst : storeBytes dst 0 data s = .next t) :
    ∃ evs splits, Receives evs data ∧ frameRead dst data.length s = .next (.done,
      t.withTransfer dst data.length data.length true { s.link with rx := rest, splits := splits }
        (s.trace ++ evs)) := by
  have key : frStart dst data.length s = s.withTransfer dst data.length 0 true s.link s.trace := rfl
  obtain ⟨evs, splits, h1, h2⟩ := frLoop_complete (data.length + 1) (frStart dst data.length s)
    (t.withTransfer dst data.length 0 true s.link s.trace) data rest (by omega) (by simp [frStart]) hrx
    (by rw [key, storeBytes_withTransfer]; simp only [State.withTransfer]; rw [hst]; rfl)
  exact ⟨evs, splits, h1, h2⟩

/-- A state of the dispatcher that is one transfer, with all of its bytes on the stream. -/
theorem transfer_complete {dst : FrDst} {reason : Reason} {onDone : State → State} {s t : State}
    {data rest : List Byte} (hrx : s.link.rx = data ++ rest) (hst : storeBytes dst 0 data s = .next t) :
    ∃ evs splits, Receives evs data ∧ transfer dst data.length reason onDone s = .next (onDone
      (t.withTransfer dst data.length data.length true { s.link with rx := rest, splits := splits }
        (s.trace ++ evs))) := by
  obtain ⟨evs, splits, h1, h2⟩ := frameRead_complete hrx hst
  exact ⟨evs, splits, h1, by rw [transfer, h2]; rfl⟩

/-- A transfer of 0 bytes reads nothing and succeeds (R83). -/
theorem frameRead_zero (dst : FrDst) (s : State) : frameRead dst 0 s = .next (.done, frStart dst 0 s) := rfl

/-- Everything one turn of the loop can do: end, wait, fail, or read and store. -/
theorem frTurn_cases (s : State) :
    (s.frN ≤ s.frGot ∧ frTurn s = .next (.done, s)) ∨
    (s.frGot < s.frN ∧ s.link.rx = [] ∧ s.link.rxEnd = none ∧ frTurn s = .next (.waiting, s)) ∨
    (∃ e, s.frGot < s.frN ∧ s.link.rx = [] ∧ s.link.rxEnd = some e ∧
      frTurn s = .next (.failed, s.emit (.rx (s.frN - s.frGot) (-(e : Int)) []))) ∨
    (∃ r, s.frGot < s.frN ∧ 0 < r ∧ r ≤ s.frN - s.frGot ∧ r ≤ s.link.rx.length ∧
      r = s.link.readCount (s.frN - s.frGot) ∧
      frTurn s = andThen (storeBytes s.frDst s.frGot (s.link.rx.take r) s) fun t =>
        .next (.more, t.withTransfer s.frDst s.frN (s.frGot + r) s.busy
          { s.link with rx := s.link.rx.drop r, splits := s.link.splits.tail }
          (s.trace ++ [.rx (s.frN - s.frGot) r (s.link.rx.take r)]))) := by
  by_cases hn : s.frGot < s.frN
  · right
    rcases hrx : s.link.rx with _ | ⟨v, vs⟩
    · rcases he : s.link.rxEnd with _ | e
      · exact .inl ⟨hn, rfl, rfl, by rw [frTurn, if_pos hn, streamRead_silent hrx he]⟩
      · exact .inr (.inl ⟨e, hn, rfl, rfl, by rw [frTurn, if_pos hn, streamRead_stop hrx he]⟩)
    · have hne : s.link.rx ≠ [] := by rw [hrx]; simp
      have hle := s.link.readCount_le (s.frN - s.frGot)
      have hpos := Link.readCount_pos (l := s.link) (m := s.frN - s.frGot) (by omega) hne
      refine .inr (.inr ⟨s.link.readCount (s.frN - s.frGot), hn, hpos, hle.1, by rw [← hrx]; exact hle.2, rfl, ?_⟩)
      rw [← hrx]
      rcases hst : storeBytes s.frDst s.frGot (s.link.rx.take (s.link.readCount (s.frN - s.frGot))) s with t | f | f
      · rw [frTurn_reads hn hne rfl hst]; rfl
      · have hlen : (s.link.rx.take (s.link.readCount (s.frN - s.frGot))).length = s.link.readCount (s.frN - s.frGot) := by
          rw [List.length_take]; omega
        rw [frTurn, if_pos hn, streamRead_of_ne_nil hne]
        have := storeBytes_withTransfer s.frDst s.frDst s.frN s.frGot s.busy
          { s.link with rx := s.link.rx.drop (s.link.readCount (s.frN - s.frGot)), splits := s.link.splits.tail }
          (s.trace ++ [.rx (s.frN - s.frGot) ((s.link.rx.take (s.link.readCount (s.frN - s.frGot))).length : Int)
            (s.link.rx.take (s.link.readCount (s.frN - s.frGot)))])
          (s.link.rx.take (s.link.readCount (s.frN - s.frGot))) s.frGot s
        rw [hst] at this
        simp only [State.withTransfer] at this
        simp only [State.emit, this, andThen_fault]
      · rw [frTurn, if_pos hn, streamRead_of_ne_nil hne]
        have := storeBytes_withTransfer s.frDst s.frDst s.frN s.frGot s.busy
          { s.link with rx := s.link.rx.drop (s.link.readCount (s.frN - s.frGot)), splits := s.link.splits.tail }
          (s.trace ++ [.rx (s.frN - s.frGot) ((s.link.rx.take (s.link.readCount (s.frN - s.frGot))).length : Int)
            (s.link.rx.take (s.link.readCount (s.frN - s.frGot)))])
          (s.link.rx.take (s.link.readCount (s.frN - s.frGot))) s.frGot s
        rw [hst] at this
        simp only [State.withTransfer] at this
        simp only [State.emit, this, andThen_refused]
  · exact .inl ⟨by omega, by rw [frTurn, if_neg hn]⟩

end Sys2Proof.Machine
end

