-- ==== Sys2Proof/Laws/Serializer.lean ====
section
/-! SUPPORT. The serializer: what one bit does, and what a run does, with its events and its TDO bits. -/

namespace Sys2Proof.Machine

theorem idleUpdate_eq (s : State) :
    idleUpdate s = .next { s with lines := Lines.idle, trace := s.trace ++ [idleEvent] } := rfl

theorem driveUpdate_eq (t d : Bool) (s : State) :
    driveUpdate t d s = .next { s with
      lines := { tck := false, tms := t, tdi := d }
      trace := s.trace ++ [.setClr { tck := false, tms := t, tdi := d } { tck := true, tms := !t, tdi := !d }
        { tck := false, tms := t, tdi := d }] } := by
  cases t <;> cases d <;> rfl

theorem raiseUpdate_eq (s : State) :
    raiseUpdate s = .next { s with
      lines := { s.lines with tck := true }
      trace := s.trace ++ [.setClr { tck := true, tms := false, tdi := false } { tck := false, tms := false, tdi := false }
        { s.lines with tck := true }] } := rfl

/-- Every index up to `MAX_BITS` fits `SE_I` (10_state.md R38). -/
theorem seIndex_of_le {c : Config} {i : Nat} (h : i ≤ c.maxBits) : seIndex c i = i :=
  Nat.mod_eq_of_lt (h.trans_lt Nat.lt_log2_self)

/-- Whatever is written to `SE_I`, what it holds fits its register. -/
theorem seIndex_lt (c : Config) (i : Nat) : seIndex c i < 2 ^ c.seIBits := Nat.mod_lt _ (Nat.two_pow_pos _)

/-- The state after the three operations of bit `SE_I`, whose TMS and TDI bits are `t` and `d`. -/
def State.afterBit (s : State) (t d : Bool) : State :=
  { s with
    lines := { tck := true, tms := t, tdi := d }
    tdoBuf := s.tdoBuf.writeBit s.seI (s.target.draw s.freeIdx d).1
    target := (s.target.draw s.freeIdx d).2.1
    freeIdx := (s.target.draw s.freeIdx d).2.2
    trace := s.trace ++ bitEvents t d (s.target.draw s.freeIdx d).1
    seI := s.seI + 1
    sePhase := loopPhase s (s.seI + 1) }

/-- Three operations serialize one bit (41_shift_engine.md R183 to R188). -/
theorem seLoop_bit {fuel : Nat} {s : State} (hd : s.dstate = .sShRun) (hp : s.sePhase = .pDrive)
    (hi : s.seI / 8 < s.cfg.capacityBytes) :
    seLoop (fuel + 3) s = seLoop fuel (s.afterBit (s.tmsBuf.bit s.seI) (s.tdiBuf.bit s.seI)) := by
  rw [show fuel + 3 = (fuel + 2) + 1 from rfl, seLoop, if_pos hd, seTick, hp]
  simp only [bitRead_of_lt hi, andThen_next, driveUpdate_eq, buf_tms, buf_tdi]
  rw [show fuel + 2 = (fuel + 1) + 1 from rfl, seLoop, if_pos hd, seTick]
  simp only [gpioRead_eq]
  rw [bitWrite_of_lt (by exact hi)]
  simp only [andThen_next, buf_tdo, State.setBuf]
  rw [seLoop, if_pos hd, seTick]
  simp only [raiseUpdate_eq, andThen_next, seIndex_of_le (show s.seI + 1 ≤ s.cfg.maxBits by unfold Config.maxBits; omega)]
  simp only [State.afterBit, bitEvents, List.append_assoc, List.cons_append, List.nil_append, loopPhase]

/-- The two operations after the last bit (R191, R180): the exit idle update and the return. -/
theorem seLoop_exit {fuel : Nat} {s : State} (hd : s.dstate = .sShRun) (hp : s.sePhase = .pIdleOut) :
    seLoop (fuel + 2) s = .next { s with
      dstate := .sShRsp, busy := false, sePhase := .pDone, lines := Lines.idle, trace := s.trace ++ [idleEvent] } := by
  rw [show fuel + 2 = (fuel + 1) + 1 from rfl, seLoop, if_pos hd, seTick, hp]
  simp only [idleUpdate_eq, andThen_next]
  rw [seLoop, if_pos hd, seTick]
  simp only [State.goto, andThen_next]
  cases fuel <;> simp [seLoop]

/-- The levels T presents at `k` reads in a row, TDI standing at `d i` at the `i`-th of them, and T and the counter of
free values after them. -/
def Target.draws (d : Nat → Bool) : Nat → Nat → Target → Nat → List Bool × Target × Nat
  | _, 0, tg, idx => ([], tg, idx)
  | i, k + 1, tg, idx =>
    let r := tg.draw idx (d i)
    let rest := Target.draws d (i + 1) k r.2.1 r.2.2
    (r.1 :: rest.1, rest.2)

theorem Target.draws_length (d : Nat → Bool) : ∀ (k i : Nat) (tg : Target) (idx : Nat),
    (Target.draws d i k tg idx).1.length = k
  | 0, _, _, _ => rfl
  | k + 1, i, tg, idx => by simp [Target.draws, Target.draws_length d k]

/-- The wire loopback presents the TDI levels (42_gpio_interface.md R218). -/
theorem Target.draws_wireLoopback (d : Nat → Bool) : ∀ (k i : Nat) (idx : Nat),
    Target.draws d i k .wireLoopback idx = ((List.range' i k).map d, .wireLoopback, idx)
  | 0, _, _ => rfl
  | k + 1, i, idx => by simp [Target.draws, Target.draw, Target.draws_wireLoopback d k, List.range'_succ]

/-- A script long enough is what T presents, in order. -/
theorem Target.draws_levels (d : Nat → Bool) : ∀ (k i : Nat) (script : List Bool) (idx : Nat), k ≤ script.length →
    Target.draws d i k (.levels script) idx = (script.take k, .levels (script.drop k), idx)
  | 0, _, _, _, _ => by simp [Target.draws]
  | k + 1, i, [], idx, h => by simp at h
  | k + 1, i, b :: rest, idx, h => by
    simp only [List.length_cons] at h
    simp [Target.draws, Target.draw, Target.draws_levels d k (i + 1) rest idx (by omega)]

/-- The bit events of `k` bits from bit `i` on, the samples given as a list. -/
def bitEventsFrom (t d : Nat → Bool) : Nat → List Bool → List Event
  | _, [] => []
  | i, s :: rest => bitEvents (t i) (d i) s ++ bitEventsFrom t d (i + 1) rest

theorem bitEventsFrom_eq (t d : Nat → Bool) : ∀ (ss : List Bool) (i : Nat),
    bitEventsFrom t d i ss =
      (List.range' i ss.length).flatMap fun j => bitEvents (t j) (d j) (ss.getD (j - i) false)
  | [], _ => rfl
  | s :: rest, i => by
    rw [bitEventsFrom, bitEventsFrom_eq t d rest, List.length_cons, List.range'_succ, List.flatMap_cons]
    congr 1
    · simp
    · apply List.flatMap_congr
      intro j hj
      rw [List.mem_range'_1] at hj
      rw [show j - i = (j - (i + 1)) + 1 by omega]
      simp

/-- The bits of the buffer after the samples were written from bit `i` on. -/
def Memory.writeBits : Memory → Nat → List Bool → Memory
  | m, _, [] => m
  | m, i, b :: rest => Memory.writeBits (m.writeBit i b) (i + 1) rest

theorem Memory.wf_writeBits {capacity : Nat} : ∀ {bs : List Bool} {m : Memory} {i : Nat},
    Memory.wf capacity m = true → (∀ j, i ≤ j → j < i + bs.length → j / 8 < capacity) →
    Memory.wf capacity (m.writeBits i bs) = true
  | [], _, _, hm, _ => hm
  | b :: bs, m, i, hm, h => by
    simp only [List.length_cons] at h
    exact Memory.wf_writeBits (bs := bs) (Memory.wf_writeBit hm (h i (by omega) (by omega)) b)
      (fun j h1 h2 => h j (by omega) (by omega))

theorem Memory.bit_writeBits {capacity : Nat} : ∀ {bs : List Bool} {m : Memory} {i : Nat},
    Memory.wf capacity m = true → (∀ j, i ≤ j → j < i + bs.length → j / 8 < capacity) →
    ∀ k, (m.writeBits i bs).bit k = if i ≤ k ∧ k < i + bs.length then bs.getD (k - i) false else m.bit k
  | [], _, _, _, _, k => by rw [if_neg (by simp)]; rfl
  | b :: bs, m, i, hm, h, k => by
    simp only [List.length_cons] at h
    rw [Memory.writeBits, Memory.bit_writeBits (Memory.wf_writeBit hm (h i (by omega) (by omega)) b)
      (fun j h1 h2 => h j (by omega) (by omega)), Memory.bit_writeBit hm]
    by_cases h1 : i = k
    · subst h1; simp
    · by_cases h2 : i + 1 ≤ k ∧ k < i + 1 + bs.length
      · rw [if_pos h2, if_pos (by simp; omega), show k - i = (k - (i + 1)) + 1 by omega]
        simp
      · rw [if_neg h2, if_neg (Ne.symm h1), if_neg (by simp; omega)]

/-- The loop from bit `SE_I` on, `k` bits before its bound, and the exit. -/
theorem seLoop_bits : ∀ (k : Nat) (s : State), s.dstate = .sShRun → s.sePhase = loopPhase s s.seI →
    s.seI + k = s.bitCnt.toNat → (∀ j, s.seI ≤ j → j < s.seI + k → j / 8 < s.cfg.capacityBytes) →
    seLoop (3 * k + 2) s = .next { s with
      dstate := .sShRsp
      busy := false
      seI := s.bitCnt.toNat
      sePhase := .pDone
      lines := Lines.idle
      tdoBuf := s.tdoBuf.writeBits s.seI (Target.draws s.tdiBuf.bit s.seI k s.target s.freeIdx).1
      target := (Target.draws s.tdiBuf.bit s.seI k s.target s.freeIdx).2.1
      freeIdx := (Target.draws s.tdiBuf.bit s.seI k s.target s.freeIdx).2.2
      trace := s.trace ++ (bitEventsFrom s.tmsBuf.bit s.tdiBuf.bit s.seI
        (Target.draws s.tdiBuf.bit s.seI k s.target s.freeIdx).1 ++ [idleEvent]) }
  | 0, s, hd, hp, hk, _ => by
    rw [loopPhase, if_neg (by omega)] at hp
    rw [show 3 * 0 + 2 = 0 + 2 from rfl, seLoop_exit hd hp]
    simp only [Target.draws, bitEventsFrom, Memory.writeBits, List.nil_append]
    rw [Nat.add_zero] at hk
    rw [← hk]
  | k + 1, s, hd, hp, hk, hc => by
    rw [loopPhase, if_pos (by omega)] at hp
    rw [show 3 * (k + 1) + 2 = (3 * k + 2) + 3 by omega, seLoop_bit hd hp (hc s.seI (by omega) (by omega))]
    have ih := seLoop_bits k (s.afterBit (s.tmsBuf.bit s.seI) (s.tdiBuf.bit s.seI)) hd rfl
      (by simp only [State.afterBit]; omega)
      (fun j h1 h2 => hc j (by simp only [State.afterBit] at h1; omega) (by simp only [State.afterBit] at h2; omega))
    rw [ih]
    simp only [State.afterBit, Target.draws, bitEventsFrom, Memory.writeBits, List.append_assoc]

/-- A bit below `MAX_BITS` lies in a byte the buffers have. -/
theorem div_lt_of_lt_maxBits {c : Config} {n j : Nat} (hn : n ≤ c.maxBits) (hj : j < n) : j / 8 < c.capacityBytes := by
  unfold Config.maxBits at hn
  omega

/-- A run of the serializer as a whole (R180, R192): nothing but what is listed changes. -/
theorem runShRun_eq {s : State} (hd : s.dstate = .sShRun) (hn : s.bitCnt.toNat ≤ s.cfg.maxBits) :
    runShRun s = .next { s with
      dstate := .sShRsp
      busy := false
      seI := s.bitCnt.toNat
      sePhase := .pDone
      lines := Lines.idle
      tdoBuf := s.tdoBuf.writeBits 0 (Target.draws s.tdiBuf.bit 0 s.bitCnt.toNat s.target s.freeIdx).1
      target := (Target.draws s.tdiBuf.bit 0 s.bitCnt.toNat s.target s.freeIdx).2.1
      freeIdx := (Target.draws s.tdiBuf.bit 0 s.bitCnt.toNat s.target s.freeIdx).2.2
      trace := s.trace ++ shiftEvents s.bitCnt.toNat s.tmsBuf.bit s.tdiBuf.bit
        (fun i => (Target.draws s.tdiBuf.bit 0 s.bitCnt.toNat s.target s.freeIdx).1.getD i false) } := by
  rw [runShRun, seStart, if_pos hn, andThen_next, show 3 * s.bitCnt.toNat + 3 = (3 * s.bitCnt.toNat + 2) + 1 from rfl,
    seLoop, if_pos hd, seTick]
  simp only [idleUpdate_eq, andThen_next]
  have run := seLoop_bits s.bitCnt.toNat
    { s with
      busy := true, seI := 0, sePhase := loopPhase s 0, lines := Lines.idle, trace := s.trace ++ [idleEvent] }
    hd rfl (by simp) (fun j _ h2 => div_lt_of_lt_maxBits hn (by simpa using h2))
  exact run.trans (by
    simp only [shiftEvents, bitEventsFrom_eq, Target.draws_length, List.append_assoc, Nat.sub_zero,
      List.range_eq_range'])

end Sys2Proof.Machine
end

