-- ==== Sys2Proof/Laws/Commands.lean ====
section
/-! SUPPORT. The dispatcher's states with their bytes on the stream: one lemma per state of a command's path, from which
a command's whole effect is chained. -/

namespace Sys2Proof.Machine

/-! ### Vectors of bytes and their lists -/

theorem toList_vector2 (v : Vector Byte 2) : v.toList = [v[0], v[1]] := by
  rcases v with ⟨⟨l⟩, h⟩
  match l, h with
  | [_, _], _ => rfl

theorem toList_vector4 (v : Vector Byte 4) : v.toList = [v[0], v[1], v[2], v[3]] := by
  rcases v with ⟨⟨l⟩, h⟩
  match l, h with
  | [_, _, _, _], _ => rfl

theorem toList_vector5 (v : Vector Byte 5) : v.toList = [v[0], v[1], v[2], v[3], v[4]] := by
  rcases v with ⟨⟨l⟩, h⟩
  match l, h with
  | [_, _, _, _, _], _ => rfl

theorem toList_vector6 (v : Vector Byte 6) : v.toList = [v[0], v[1], v[2], v[3], v[4], v[5]] := by
  rcases v with ⟨⟨l⟩, h⟩
  match l, h with
  | [_, _, _, _, _, _], _ => rfl

theorem vector2_eta (v : Vector Byte 2) : #v[v[0], v[1]] = v := by
  rcases v with ⟨⟨l⟩, h⟩
  match l, h with
  | [_, _], _ => rfl

theorem vector4_eta (v : Vector Byte 4) : #v[v[0], v[1], v[2], v[3]] = v := by
  rcases v with ⟨⟨l⟩, h⟩
  match l, h with
  | [_, _, _, _], _ => rfl

theorem vector5_eta (v : Vector Byte 5) : #v[v[0], v[1], v[2], v[3], v[4]] = v := by
  rcases v with ⟨⟨l⟩, h⟩
  match l, h with
  | [_, _, _, _, _], _ => rfl

theorem vector6_eta (v : Vector Byte 6) : #v[v[0], v[1], v[2], v[3], v[4], v[5]] = v := by
  rcases v with ⟨⟨l⟩, h⟩
  match l, h with
  | [_, _, _, _, _, _], _ => rfl

theorem append_vector4 (v w : Vector Byte 4) :
    (v ++ w : Vector Byte 8) = #v[v[0], v[1], v[2], v[3], w[0], w[1], w[2], w[3]] := by
  rcases v with ⟨⟨l⟩, h⟩
  rcases w with ⟨⟨m⟩, k⟩
  match l, h, m, k with
  | [_, _, _, _], _, [_, _, _, _], _ => rfl

/-! ### Following a command's path -/

theorem follow_next {d : DState} {run : State → Result State} {s : State} (h : s.dstate = d) :
    follow d run (.next s) = run s := by simp [follow, h]

@[simp] theorem follow_goto {d : DState} {run : State → Result State} (s : State) :
    follow d run (.next (s.goto d)) = run (s.goto d) := follow_next rfl

theorem follow_stop {d : DState} {run : State → Result State} {s : State} (h : s.dstate ≠ d) :
    follow d run (.next s) = .next s := by simp [follow, h]

@[simp] theorem follow_fault {d : DState} {run : State → Result State} {r : Fault} :
    follow d run (.fault r) = .fault r := rfl

@[simp] theorem follow_refused {d : DState} {run : State → Result State} {r : Refusal} :
    follow d run (.refused r) = .refused r := rfl

theorem finish_of_ne {s : State} (h : s.dstate ≠ .sEnd) : finish s = .next s := by simp [finish, h]

theorem finish_of_eq {s : State} (h : s.dstate = .sEnd) : finish s = .next s.endSession := by simp [finish, h]

theorem afterTag_getinfo {s : State} (h : s.tag = #v[0x67, 0x65]) : afterTag s = s.goto .sGeSfx := by
  unfold afterTag; rw [h]; rfl

theorem afterTag_settck {s : State} (h : s.tag = #v[0x73, 0x65]) : afterTag s = s.goto .sSeArg := by
  unfold afterTag; rw [h]; rfl

theorem afterTag_shift {s : State} (h : s.tag = #v[0x73, 0x68]) : afterTag s = s.goto .sShHdr := by
  unfold afterTag; rw [h]; rfl

theorem afterTag_invalid {s : State} (h : commandOfTag s.tag[0] s.tag[1] = none) : afterTag s = s.raise .badTag := by
  unfold afterTag; rw [h]

/-! ### The states, their bytes being on the stream -/

/-- `s` after a transfer of `n` bytes into `dst` that left `rest` on the stream. -/
def State.received (s : State) (dst : FrDst) (n : Nat) (rest : List Byte) (splits : List Nat) (evs : List Event) :
    State :=
  s.withTransfer dst n n true { s.link with rx := rest, splits := splits } (s.trace ++ evs)

theorem runTag_complete {s : State} {a b : Byte} {rest : List Byte} (h : s.link.rx = a :: b :: rest) :
    ∃ evs splits, Receives evs [a, b] ∧
      runTag s = .next (afterTag (({ s with tag := #v[a, b] } : State).received .tag 2 rest splits evs)) := by
  obtain ⟨evs, splits, h1, h2⟩ := transfer_complete (dst := .tag) (reason := .tagRxEnd) (onDone := afterTag)
    (data := [a, b]) h (storeBytes_tag a b s)
  exact ⟨evs, splits, h1, h2⟩

theorem runGeSfx_complete {s : State} {suffix : Vector Byte 6} {rest : List Byte}
    (h : s.link.rx = suffix.toList ++ rest) :
    ∃ evs splits, Receives evs suffix.toList ∧
      runGeSfx s = .next ((s.received .sink 6 rest splits evs).goto .sGeRsp) := by
  obtain ⟨evs, splits, h1, h2⟩ := transfer_complete (dst := .sink) (reason := .rxFail) (onDone := (·.goto .sGeRsp))
    h (storeBytes_sink suffix.toList 0 s)
  rw [Vector.length_toList] at h2
  exact ⟨evs, splits, h1, h2⟩

theorem runSeArg_complete {s : State} {suffix : Vector Byte 5} {p : Vector Byte 4} {rest : List Byte}
    (h : s.link.rx = suffix.toList ++ (p.toList ++ rest)) :
    ∃ evs splits, Receives evs (suffix.toList ++ p.toList) ∧
      runSeArg s = .next ((({ s with period := p } : State).received .period 4 rest splits evs).goto .sSeRsp) := by
  obtain ⟨e1, sp1, r1, h1⟩ := frameRead_complete (dst := .sink) h (storeBytes_sink suffix.toList 0 s)
  rw [Vector.length_toList] at h1
  have hst : ∀ u : State, storeBytes .period 0 p.toList u = .next { u with period := p } := by
    intro u; rw [toList_vector4, storeBytes_period, vector4_eta]
  obtain ⟨e2, sp2, r2, h2⟩ := transfer_complete (dst := .period) (reason := .rxFail) (onDone := (·.goto .sSeRsp))
    (data := p.toList) (rest := rest) (s := s.received .sink 5 (p.toList ++ rest) sp1 e1) rfl (hst _)
  rw [Vector.length_toList] at h2
  refine ⟨e1 ++ e2, sp2, r1.append r2, ?_⟩
  rw [runSeArg, h1, andThen_next]
  simp only
  refine h2.trans ?_
  simp [State.received, State.withTransfer]

theorem runShHdr_complete {s : State} {suffix n : Vector Byte 4} {rest : List Byte}
    (h : s.link.rx = suffix.toList ++ (n.toList ++ rest)) :
    ∃ evs splits, Receives evs (suffix.toList ++ n.toList) ∧
      runShHdr s = .next (afterHeader
        (({ s with hdr := suffix ++ n } : State).received .hdr 8 rest splits evs)) := by
  have hst : storeBytes .hdr 0 (suffix.toList ++ n.toList) s = .next { s with hdr := suffix ++ n } := by
    rw [toList_vector4, toList_vector4, append_vector4]
    exact storeBytes_hdr _ _ _ _ _ _ _ _ s
  obtain ⟨evs, splits, h1, h2⟩ := transfer_complete (dst := .hdr) (reason := .rxFail) (onDone := afterHeader)
    (by rw [h, List.append_assoc]) hst
  rw [List.length_append, Vector.length_toList, Vector.length_toList] at h2
  exact ⟨evs, splits, h1, h2⟩

theorem runShTms_complete {s : State} {tms rest : List Byte} (h : s.link.rx = tms ++ rest)
    (hlen : tms.length = s.byteLen.toNat) (hcap : s.byteLen.toNat ≤ s.cfg.capacityBytes) :
    ∃ evs splits, Receives evs tms ∧
      runShTms s = .next ((({ s with tmsBuf := s.tmsBuf.writeBytes 0 tms } : State).received .tmsBuf s.byteLen.toNat
        rest splits evs).goto .sShTdi) := by
  obtain ⟨evs, splits, h1, h2⟩ := transfer_complete (dst := .tmsBuf) (reason := .rxFail) (onDone := (·.goto .sShTdi))
    h (storeBytes_tms (by omega))
  rw [hlen] at h2
  exact ⟨evs, splits, h1, h2⟩

theorem runShTdi_complete {s : State} {tdi rest : List Byte} (h : s.link.rx = tdi ++ rest)
    (hlen : tdi.length = s.byteLen.toNat) (hcap : s.byteLen.toNat ≤ s.cfg.capacityBytes) :
    ∃ evs splits, Receives evs tdi ∧
      runShTdi s = .next ((({ s with tdiBuf := s.tdiBuf.writeBytes 0 tdi } : State).received .tdiBuf s.byteLen.toNat
        rest splits evs).goto .sShRun) := by
  obtain ⟨evs, splits, h1, h2⟩ := transfer_complete (dst := .tdiBuf) (reason := .rxFail) (onDone := (·.goto .sShRun))
    h (storeBytes_tdi (by omega))
  rw [hlen] at h2
  exact ⟨evs, splits, h1, h2⟩

/-- The exact ceiling fits the 30 bits of BYTELEN (R16, R36). -/
theorem byteLen_exact (n : BitVec 32) : (BitVec.ofNat 30 (ceilDiv8 n.toNat)).toNat = ceilDiv8 n.toNat := by
  have := n.isLt
  rw [BitVec.toNat_ofNat, Nat.mod_eq_of_lt (by unfold ceilDiv8; omega)]

/-- `S_SH_CHK` within the capacity goes on. -/
theorem runShChk_fits {s : State} (h : ceilDiv8 s.bitCnt.toNat ≤ s.cfg.capacityBytes) :
    runShChk s = ({ s with byteLen := BitVec.ofNat 30 (ceilDiv8 s.bitCnt.toNat) } : State).goto .sShTms := by
  unfold runShChk
  rw [if_neg]
  simp only [byteLen_exact]
  omega

/-- `S_SH_CHK` above the capacity raises OVERSIZE. -/
theorem runShChk_oversize {s : State} (h : s.cfg.capacityBytes < ceilDiv8 s.bitCnt.toNat) :
    runShChk s = ({ s with byteLen := BitVec.ofNat 30 (ceilDiv8 s.bitCnt.toNat) } : State).raise .oversize := by
  unfold runShChk
  rw [if_pos]
  simp only [byteLen_exact]
  omega

/-- The TDO response as a list: the buffer's bytes, the padding bits of the last one free (R161). -/
theorem tdoResponse_eq {s : State} (h : s.byteLen.toNat ≤ s.cfg.capacityBytes) :
    tdoResponse s = .next (withFreePadding s.bitCnt.toNat (Config.freePadding s.freeIdx)
      ((List.range s.byteLen.toNat).map (Memory.read s.tdoBuf))) := by
  rw [tdoResponse, memRead_of_le (by omega), andThen_next, List.range_eq_range']
  rfl

theorem withFreePadding_length (n : Nat) (free : Byte) (bytes : List Byte) :
    (withFreePadding n free bytes).length = bytes.length := by
  unfold withFreePadding
  split
  · split
    · rfl
    · rename_i h
      rw [List.getLast?_eq_some_iff] at h
      obtain ⟨init, rfl⟩ := h
      simp
  · rfl

/-! ### Bits and bytes of a vector -/

/-- The bits of bytes written at index 0 are the vector's. -/
theorem Memory.bit_writeBytes {capacity : Nat} {m : Memory} {bs : List Byte} (hm : Memory.wf capacity m = true)
    (hb : bs.length ≤ capacity) {i : Nat} (hi : i / 8 < bs.length) : (m.writeBytes 0 bs).bit i = vectorBit bs i := by
  rw [Memory.bit, Memory.read_writeBytes hm (by omega), if_pos (by omega), Nat.sub_zero]
  rfl

/-- The padding merged into a byte leaves its significant bits (00_scope.md R20). -/
theorem bitOf_mergePadding (n : Nat) (free v : Byte) {k : Nat} (hk : k < n % 8) :
    bitOf (mergePadding n free v) k = bitOf v k := by
  have h8 : n % 8 < 8 := Nat.mod_lt _ (by decide)
  obtain ⟨r, hr⟩ : ∃ r, r = n % 8 := ⟨_, rfl⟩
  have hmask : ∀ r < 8, ∀ k < r, ((1#8 <<< r) - 1).getLsbD k = true := by decide
  rw [← hr] at hk h8
  have := hmask r h8 k hk
  unfold bitOf mergePadding significantMask
  rw [← hr]
  simp only [BitVec.getLsbD_or, BitVec.getLsbD_and, BitVec.getLsbD_not, this, show k < 8 by omega]
  simp

/-- The significant bits of a response are those of the bytes it is made of (R161). -/
theorem vectorBit_withFreePadding {n : Nat} {free : Byte} {bytes : List Byte} (hlen : bytes.length = ceilDiv8 n)
    {i : Nat} (hi : i < n) : vectorBit (withFreePadding n free bytes) i = vectorBit bytes i := by
  unfold withFreePadding
  split
  · rename_i hp
    simp only [hasPadding, bne_iff_ne, ne_eq] at hp
    split
    · rfl
    · rename_i v hv
      rw [List.getLast?_eq_some_iff] at hv
      obtain ⟨init, rfl⟩ := hv
      rw [List.dropLast_concat]
      simp only [List.length_append, List.length_singleton, ceilDiv8] at hlen
      unfold vectorBit
      by_cases hl : i / 8 < init.length
      · simp only [List.getD_eq_getElem?_getD, List.getElem?_append_left hl]
      · have he : i / 8 = init.length := by omega
        simp only [List.getD_eq_getElem?_getD, he]
        simpa using bitOf_mergePadding n free v (k := i % 8) (by omega)
  · rfl

/-- The bytes read from a buffer, as bits. -/
theorem vectorBit_range (m : Memory) {len i : Nat} (hi : i / 8 < len) :
    vectorBit ((List.range len).map m.read) i = m.bit i := by
  unfold vectorBit Memory.bit
  rw [List.getD_eq_getElem?_getD, List.getElem?_map, List.getElem?_range hi]
  rfl

/-- Bits determine bytes. -/
theorem bytes_ext {xs ys : List Byte} (hlen : xs.length = ys.length)
    (h : ∀ i, i < 8 * xs.length → vectorBit xs i = vectorBit ys i) : xs = ys := by
  apply List.ext_getElem hlen
  intro j h1 h2
  apply BitVec.eq_of_getLsbD_eq
  intro k hk
  have := h (8 * j + k) (by omega)
  simp only [vectorBit, bitOf, show (8 * j + k) / 8 = j by omega, show (8 * j + k) % 8 = k by omega] at this
  simpa [List.getD_eq_getElem?_getD, h1, h2] using this

/-! ### The paths of the commands -/

/-- `le32bytes` lists the bytes `le32` reads. -/
theorem le32_le32bytes (v : BitVec 32) :
    le32 (le32bytes v)[0] (le32bytes v)[1] (le32bytes v)[2] (le32bytes v)[3] = v := by
  apply BitVec.eq_of_toNat_eq
  have := v.isLt
  simp [le32, le32bytes, Nat.shiftRight_eq_div_pow]
  omega

/-- GETINFO's path up to its response (R145), whatever H answers then. -/
theorem getinfo_path (s : State) (suffix : Vector Byte 6) :
    ∃ evs splits, Receives evs (encode (.getinfo suffix)) ∧
      follow .sGeSfx runGeSfx (runTag (s.beginFrame (encode (.getinfo suffix)))) = .next { s with
        dstate := .sGeRsp, busy := false, tag := #v[0x67, 0x65], frDst := .sink, frN := 6, frGot := 6
        link := { s.link with splits := splits }, trace := s.trace ++ evs } := by
  obtain ⟨e1, sp1, r1, h1⟩ := runTag_complete (s := s.beginFrame (encode (.getinfo suffix)))
    (a := 0x67) (b := 0x65) (rest := suffix.toList ++ s.link.rx) rfl
  obtain ⟨u, hu⟩ : ∃ u, u = State.received { s.beginFrame (encode (.getinfo suffix)) with tag := #v[0x67, 0x65] }
    .tag 2 (suffix.toList ++ s.link.rx) sp1 e1 := ⟨_, rfl⟩
  rw [← hu] at h1
  rw [h1, afterTag_getinfo (by rw [hu]; rfl), follow_goto]
  obtain ⟨e2, sp2, r2, h2⟩ := runGeSfx_complete (s := u.goto .sGeSfx) (suffix := suffix) (rest := s.link.rx)
    (by rw [hu]; rfl)
  refine ⟨e1 ++ e2, sp2, r1.append r2, ?_⟩
  rw [h2, hu]
  simp [State.received, State.withTransfer, State.goto, State.beginFrame]

/-- SETTCK's path up to its response (R148), whatever H answers then. -/
theorem settck_path (s : State) (suffix : Vector Byte 5) (period : BitVec 32) :
    ∃ evs splits, Receives evs (encode (.settck suffix period)) ∧
      follow .sSeArg runSeArg (runTag (s.beginFrame (encode (.settck suffix period)))) = .next { s with
        dstate := .sSeRsp, busy := false, tag := #v[0x73, 0x65], period := le32bytes period
        frDst := .period, frN := 4, frGot := 4
        link := { s.link with splits := splits }, trace := s.trace ++ evs } := by
  obtain ⟨e1, sp1, r1, h1⟩ := runTag_complete (s := s.beginFrame (encode (.settck suffix period)))
    (a := 0x73) (b := 0x65) (rest := suffix.toList ++ ((le32bytes period).toList ++ s.link.rx))
    (by simp [State.beginFrame, encode])
  obtain ⟨u, hu⟩ : ∃ u, u = State.received
    { s.beginFrame (encode (.settck suffix period)) with tag := #v[0x73, 0x65] } .tag 2
    (suffix.toList ++ ((le32bytes period).toList ++ s.link.rx)) sp1 e1 := ⟨_, rfl⟩
  rw [← hu] at h1
  rw [h1, afterTag_settck (by rw [hu]; rfl), follow_goto]
  obtain ⟨e2, sp2, r2, h2⟩ := runSeArg_complete (s := u.goto .sSeArg) (suffix := suffix) (p := le32bytes period)
    (rest := s.link.rx) (by rw [hu]; rfl)
  refine ⟨e1 ++ e2, sp2, by simpa [encode] using r1.append r2, ?_⟩
  rw [h2, hu]
  simp [State.received, State.withTransfer, State.goto, State.beginFrame]

/-- SHIFT's path up to the capacity check, whatever the bit count. -/
theorem shift_header_path (s : State) (suffix : Vector Byte 4) (n : BitVec 32) (tms tdi : List Byte) :
    ∃ evs splits, Receives evs ([0x73, 0x68] ++ suffix.toList ++ (le32bytes n).toList) ∧
      follow .sShHdr runShHdr (runTag (s.beginFrame (encode (.shift suffix n tms tdi)))) = .next { s with
        dstate := .sShChk, busy := false, tag := #v[0x73, 0x68], hdr := suffix ++ le32bytes n, bitCnt := n
        frDst := .hdr, frN := 8, frGot := 8
        link := { s.link with rx := tms ++ tdi ++ s.link.rx, splits := splits }, trace := s.trace ++ evs } := by
  obtain ⟨e1, sp1, r1, h1⟩ := runTag_complete (s := s.beginFrame (encode (.shift suffix n tms tdi)))
    (a := 0x73) (b := 0x68) (rest := suffix.toList ++ ((le32bytes n).toList ++ (tms ++ tdi ++ s.link.rx)))
    (by simp [State.beginFrame, encode])
  obtain ⟨u, hu⟩ : ∃ u, u = State.received
    { s.beginFrame (encode (.shift suffix n tms tdi)) with tag := #v[0x73, 0x68] } .tag 2
    (suffix.toList ++ ((le32bytes n).toList ++ (tms ++ tdi ++ s.link.rx))) sp1 e1 := ⟨_, rfl⟩
  rw [← hu] at h1
  rw [h1, afterTag_shift (by rw [hu]; rfl), follow_goto]
  obtain ⟨e2, sp2, r2, h2⟩ := runShHdr_complete (s := u.goto .sShHdr) (suffix := suffix) (n := le32bytes n)
    (rest := tms ++ tdi ++ s.link.rx) (by rw [hu]; rfl)
  refine ⟨e1 ++ e2, sp2, by simpa using r1.append r2, ?_⟩
  rw [h2, hu]
  have hb : ∀ u : State, u.hdr = suffix ++ le32bytes n → le32 u.hdr[4] u.hdr[5] u.hdr[6] u.hdr[7] = n := by
    intro u hu
    rw [hu, append_vector4]
    exact le32_le32bytes n
  rw [afterHeader, hb _ rfl]
  simp [State.received, State.withTransfer, State.goto, State.beginFrame]


/-- SHIFT's path within the capacity, up to its response. -/
theorem shift_path (s : State) (suffix : Vector Byte 4) (n : BitVec 32) (tms tdi : List Byte)
    (hcap : ceilDiv8 n.toNat ≤ s.cfg.capacityBytes) (htms : tms.length = ceilDiv8 n.toNat)
    (htdi : tdi.length = ceilDiv8 n.toNat) :
    ∃ evs splits draws, Receives evs (encode (.shift suffix n tms tdi)) ∧
      draws = Target.draws (s.tdiBuf.writeBytes 0 tdi).bit 0 n.toNat s.target s.freeIdx ∧
      (follow .sShRun runShRun <| follow .sShTdi runShTdi <| follow .sShTms runShTms <|
        follow .sShChk (fun s => .next (runShChk s)) <| follow .sShHdr runShHdr <|
        runTag (s.beginFrame (encode (.shift suffix n tms tdi)))) = .next { s with
        dstate := .sShRsp, busy := false, tag := #v[0x73, 0x68], hdr := suffix ++ le32bytes n, bitCnt := n
        byteLen := BitVec.ofNat 30 (ceilDiv8 n.toNat)
        frDst := .tdiBuf, frN := ceilDiv8 n.toNat, frGot := ceilDiv8 n.toNat
        seI := n.toNat, sePhase := .pDone, lines := Lines.idle
        tmsBuf := s.tmsBuf.writeBytes 0 tms, tdiBuf := s.tdiBuf.writeBytes 0 tdi
        tdoBuf := s.tdoBuf.writeBits 0 draws.1, target := draws.2.1, freeIdx := draws.2.2
        link := { s.link with splits := splits }
        trace := s.trace ++ evs ++ shiftEvents n.toNat (s.tmsBuf.writeBytes 0 tms).bit (s.tdiBuf.writeBytes 0 tdi).bit
          (fun i => draws.1.getD i false) } := by
  obtain ⟨e1, sp1, r1, h1⟩ := shift_header_path s suffix n tms tdi
  obtain ⟨u, hu⟩ : ∃ u : State, u = { s with
        dstate := .sShChk, busy := false, tag := #v[0x73, 0x68], hdr := suffix ++ le32bytes n, bitCnt := n
        frDst := .hdr, frN := 8, frGot := 8
        link := { s.link with rx := tms ++ tdi ++ s.link.rx, splits := sp1 }, trace := s.trace ++ e1 } := ⟨_, rfl⟩
  rw [← hu] at h1
  rw [h1, follow_next (by rw [hu]), runShChk_fits (by rw [hu]; exact hcap), follow_goto]
  obtain ⟨v, hv⟩ : ∃ v : State,
      v = State.goto { u with byteLen := BitVec.ofNat 30 (ceilDiv8 u.bitCnt.toNat) } .sShTms := ⟨_, rfl⟩
  rw [← hv]
  have hbl : v.byteLen.toNat = ceilDiv8 n.toNat := by rw [hv, hu]; exact byteLen_exact n
  have hvc : v.cfg = s.cfg := by rw [hv, hu]; rfl
  obtain ⟨e2, sp2, r2, h2⟩ := runShTms_complete (s := v) (tms := tms) (rest := tdi ++ s.link.rx)
    (by rw [hv, hu]; simp [State.goto]) (by omega) (by rw [hvc]; omega)
  rw [h2, follow_goto]
  obtain ⟨w, hw⟩ : ∃ w : State, w = State.goto (State.received { v with tmsBuf := v.tmsBuf.writeBytes 0 tms }
      .tmsBuf v.byteLen.toNat (tdi ++ s.link.rx) sp2 e2) .sShTdi := ⟨_, rfl⟩
  rw [← hw]
  have hwl : w.byteLen.toNat = ceilDiv8 n.toNat := by rw [hw]; exact hbl
  obtain ⟨e3, sp3, r3, h3⟩ := runShTdi_complete (s := w) (tdi := tdi) (rest := s.link.rx)
    (by rw [hw]; rfl) (by omega) (by rw [hw]; simp [State.received, State.withTransfer]; rw [hvc]; omega)
  rw [h3, follow_goto]
  obtain ⟨x, hx⟩ : ∃ x : State, x = State.goto (State.received { w with tdiBuf := w.tdiBuf.writeBytes 0 tdi }
      .tdiBuf w.byteLen.toNat s.link.rx sp3 e3) .sShRun := ⟨_, rfl⟩
  rw [← hx]
  have hxn : x.bitCnt = n := by rw [hx, hw, hv, hu]; rfl
  have hxc : x.cfg = s.cfg := by rw [hx, hw]; exact hvc
  rw [runShRun_eq (by rw [hx]; rfl) (by rw [hxn, hxc]; unfold Config.maxBits; unfold ceilDiv8 at hcap; omega)]
  refine ⟨e1 ++ e2 ++ e3, sp3, _, ?_, rfl, ?_⟩
  · simpa [encode] using (r1.append r2).append r3
  · have e : x = { s with
        dstate := .sShRun, busy := false, tag := #v[0x73, 0x68], hdr := suffix ++ le32bytes n, bitCnt := n
        byteLen := BitVec.ofNat 30 (ceilDiv8 n.toNat)
        frDst := .tdiBuf, frN := ceilDiv8 n.toNat, frGot := ceilDiv8 n.toNat
        tmsBuf := s.tmsBuf.writeBytes 0 tms, tdiBuf := s.tdiBuf.writeBytes 0 tdi
        link := { s.link with splits := sp3 }, trace := s.trace ++ (e1 ++ e2 ++ e3) } := by
      rw [hx, hw]
      simp only [State.received, State.withTransfer, State.goto, hbl]
      rw [hv, hu]
      simp [State.goto]
    rw [e]

end Sys2Proof.Machine
end

