-- ==== Sys2Proof/Laws/Dispatcher.lean ====
section
/-! SUPPORT. What a transfer keeps, when it cannot stop, and that each state run as a whole is a number of atomic actions
of W: the two granularities of Machine/Dispatcher.lean agree state by state. -/

namespace Sys2Proof.Machine

/-! ### What a transfer keeps -/

theorem storeByte_keeps {dst : FrDst} {j : Nat} {v : Byte} {s t : State} (h : storeByte dst j v s = .next t) :
    t = { s with tag := t.tag, period := t.period, hdr := t.hdr, tmsBuf := t.tmsBuf, tdiBuf := t.tdiBuf } := by
  cases dst <;> simp only [storeByte, bufWrite] at h
  all_goals first
    | (split at h <;> simp only [Host.Outcome.next.injEq, reduceCtorEq] at h; subst h; rfl)
    | (cases h; rfl)

/-- The stores of a transfer write the destinations of R80 and nothing else. -/
theorem storeBytes_keeps {dst : FrDst} : ∀ {bs : List Byte} {j : Nat} {s t : State},
    storeBytes dst j bs s = .next t →
    t = { s with tag := t.tag, period := t.period, hdr := t.hdr, tmsBuf := t.tmsBuf, tdiBuf := t.tdiBuf }
  | [], j, s, t, h => by cases h; rfl
  | v :: vs, j, s, t, h => by
    rw [storeBytes, andThen_eq_next] at h
    obtain ⟨u, hu, ht⟩ := h
    have h2 := storeBytes_keeps ht
    rw [storeByte_keeps hu] at h2
    rw [h2]

/-- One turn of the loop changes the destinations, `FR_GOT`, the stream and the trace, and nothing else. -/
theorem frTurn_keeps {s t : State} {p : Progress} (h : frTurn s = .next (p, t)) :
    t = { s with
      tag := t.tag, period := t.period, hdr := t.hdr, tmsBuf := t.tmsBuf, tdiBuf := t.tdiBuf
      frGot := t.frGot, link := t.link, trace := t.trace } := by
  rcases frTurn_cases s with ⟨_, h1⟩ | ⟨_, _, _, h1⟩ | ⟨e, _, _, _, h1⟩ | ⟨r, _, _, _, _, _, h1⟩
  · rw [h1] at h; cases h; rfl
  · rw [h1] at h; cases h; rfl
  · rw [h1] at h; cases h; rfl
  · rw [h1, andThen_eq_next] at h
    obtain ⟨u, hu, ht⟩ := h
    have h2 := storeBytes_keeps hu
    cases ht
    rw [h2]; rfl

theorem frLoop_keeps : ∀ (fuel : Nat) {s t : State} {p : Progress}, frLoop fuel s = .next (p, t) →
    t = { s with
      tag := t.tag, period := t.period, hdr := t.hdr, tmsBuf := t.tmsBuf, tdiBuf := t.tdiBuf
      frGot := t.frGot, link := t.link, trace := t.trace }
  | 0, s, t, p, h => by cases h; rfl
  | fuel + 1, s, t, p, h => by
    rw [frLoop, andThen_eq_next] at h
    obtain ⟨⟨q, u⟩, hq, h⟩ := h
    have h1 := frTurn_keeps hq
    cases q
    · have h2 := frLoop_keeps fuel h
      rw [h1] at h2
      rw [h2]
    all_goals (cases h; exact h1)

/-! ### When a transfer cannot stop -/

/-- The first `n` bytes of the destination exist. -/
def FitsDst (dst : FrDst) (n : Nat) (s : State) : Prop :=
  match dst with
  | .sink => True
  | .tag => n ≤ 2
  | .period => n ≤ 4
  | .hdr => n ≤ 8
  | .tmsBuf => n ≤ s.cfg.capacityBytes
  | .tdiBuf => n ≤ s.cfg.capacityBytes

theorem storeByte_fits {dst : FrDst} {j : Nat} (v : Byte) {s : State} (h : FitsDst dst (j + 1) s) :
    ∃ t, storeByte dst j v s = .next t ∧
      (Memory.wf s.cfg.capacityBytes s.tmsBuf = true → Memory.wf s.cfg.capacityBytes t.tmsBuf = true) ∧
      (Memory.wf s.cfg.capacityBytes s.tdiBuf = true → Memory.wf s.cfg.capacityBytes t.tdiBuf = true) := by
  cases dst <;> simp only [FitsDst] at h
  · exact ⟨_, dif_pos (show j < 2 by omega), id, id⟩
  · exact ⟨s, rfl, id, id⟩
  · exact ⟨_, dif_pos (show j < 4 by omega), id, id⟩
  · exact ⟨_, dif_pos (show j < 8 by omega), id, id⟩
  · exact ⟨_, bufWrite_of_lt (show j < s.cfg.capacityBytes by omega), fun hw => Memory.wf_write hw (by omega) _, id⟩
  · exact ⟨_, bufWrite_of_lt (show j < s.cfg.capacityBytes by omega), id, fun hw => Memory.wf_write hw (by omega) _⟩

/-- Bytes that fit their destination go in, and the buffers stay canonical. -/
theorem storeBytes_fits {dst : FrDst} : ∀ {bs : List Byte} {j : Nat} {s : State}, FitsDst dst (j + bs.length) s →
    ∃ t, storeBytes dst j bs s = .next t ∧
      (Memory.wf s.cfg.capacityBytes s.tmsBuf = true → Memory.wf s.cfg.capacityBytes t.tmsBuf = true) ∧
      (Memory.wf s.cfg.capacityBytes s.tdiBuf = true → Memory.wf s.cfg.capacityBytes t.tdiBuf = true)
  | [], _, s, _ => ⟨s, rfl, id, id⟩
  | v :: vs, j, s, h => by
    simp only [List.length_cons] at h
    obtain ⟨t, ht, w1, w2⟩ := storeByte_fits (dst := dst) (j := j) v (s := s)
      (by cases dst <;> simp only [FitsDst] at h ⊢ <;> omega)
    have hc : t.cfg = s.cfg := by rw [storeByte_keeps ht]
    obtain ⟨u, hu, w3, w4⟩ := storeBytes_fits (dst := dst) (bs := vs) (j := j + 1) (s := t)
      (by cases dst <;> simp only [FitsDst, hc] at h ⊢ <;> omega)
    refine ⟨u, by rw [storeBytes, ht, andThen_next, hu], ?_, ?_⟩
    · rw [hc] at w3; exact w3 ∘ w1
    · rw [hc] at w4; exact w4 ∘ w2

/-- One turn of a transfer that fits its destination never stops. -/
theorem frTurn_fits {s : State} (hf : FitsDst s.frDst s.frN s) (hg : s.frGot ≤ s.frN) :
    ∃ p t, frTurn s = .next (p, t) ∧ t.frGot ≤ s.frN ∧
      (Memory.wf s.cfg.capacityBytes s.tmsBuf = true → Memory.wf s.cfg.capacityBytes t.tmsBuf = true) ∧
      (Memory.wf s.cfg.capacityBytes s.tdiBuf = true → Memory.wf s.cfg.capacityBytes t.tdiBuf = true) := by
  rcases frTurn_cases s with ⟨_, h1⟩ | ⟨_, _, _, h1⟩ | ⟨e, _, _, _, h1⟩ | ⟨r, _, _, h3, h4, _, h1⟩
  · exact ⟨_, _, h1, hg, id, id⟩
  · exact ⟨_, _, h1, hg, id, id⟩
  · exact ⟨_, _, h1, hg, id, id⟩
  · have hfit : FitsDst s.frDst (s.frGot + (s.link.rx.take r).length) s := by
      rw [List.length_take]
      generalize s.frDst = d at hf
      cases d <;> simp only [FitsDst] at hf ⊢ <;> omega
    obtain ⟨t, ht, w1, w2⟩ := storeBytes_fits hfit
    rw [ht, andThen_next] at h1
    exact ⟨_, _, h1, by simp only [State.withTransfer]; omega, w1, w2⟩

/-! ### Atomic actions -/

theorem ticks_add (j k : Nat) (s : State) : ticks (j + k) s = andThen (ticks j s) (ticks k) := by
  induction j generalizing s with
  | zero => rw [Nat.zero_add]; rfl
  | succ j ih =>
    rw [Nat.succ_add, ticks, ticks, andThen_assoc]
    congr 1
    funext t
    exact ih t

/-- Some number of atomic actions from `s` answers `o`, and W is never in `S_WAIT` on the way. -/
def Reach (s : State) (o : Result State) : Prop :=
  ∃ k, ticks k s = o ∧ ∀ j < k, ∀ u, ticks j s = .next u → u.dstate ≠ .sWait

theorem Reach.refl (s : State) : Reach s (.next s) := ⟨0, rfl, by omega⟩

theorem ticks_one (s : State) : ticks 1 s = Machine.tick s := by rw [ticks]; cases Machine.tick s <;> rfl

theorem Reach.tick {s : State} (h : s.dstate ≠ .sWait) : Reach s (Machine.tick s) := by
  refine ⟨1, ticks_one s, fun j hj u hu => ?_⟩
  obtain rfl : j = 0 := by omega
  cases hu
  exact h

theorem Reach.trans {s t : State} {o : Result State} (h : Reach s (.next t)) (h2 : Reach t o) : Reach s o := by
  obtain ⟨j, hj, hjw⟩ := h
  obtain ⟨k, hk, hkw⟩ := h2
  refine ⟨j + k, by rw [ticks_add, hj, andThen_next, hk], fun l hl u hu => ?_⟩
  by_cases hlj : l < j
  · exact hjw l hlj u hu
  · rw [show l = j + (l - j) by omega, ticks_add, hj, andThen_next] at hu
    exact hkw (l - j) (by omega) u hu

theorem Reach.bind {s : State} {o : Result State} {f : State → Result State} (h : Reach s o)
    (hf : ∀ t, o = .next t → Reach t (f t)) : Reach s (andThen o f) := by
  cases o with
  | next t => exact h.trans (hf t rfl)
  | fault r => exact h
  | refused r => exact h

/-- The rest of a transfer, from inside it. -/
theorem Reach.frLoop {d : DState} {dst : FrDst} {len : BitVec 30} {reason : Reason} {onDone : State → State}
    (ht : ∀ r : State, r.dstate = d → r.byteLen = len → r.busy = true → r.frDst = dst →
      Machine.tick r = andThen (frTurn r) (frSettle reason onDone)) (hd : d ≠ .sWait) :
    ∀ (fuel : Nat) (s : State), s.dstate = d → s.byteLen = len → s.busy = true → s.frDst = dst →
      Reach s (andThen (Machine.frLoop fuel s) (frSettle reason onDone))
  | 0, s, _, _, _, _ => Reach.refl s
  | fuel + 1, s, h1, h2, h3, h4 => by
    have hr := Reach.tick (s := s) (by rw [h1]; exact hd)
    rw [ht s h1 h2 h3 h4] at hr
    rw [Machine.frLoop, andThen_assoc]
    rcases hq : frTurn s with ⟨p, t⟩ | f | f
    · rw [hq] at hr
      have hk := frTurn_keeps hq
      cases p
      · exact Reach.trans (t := t) hr (Reach.frLoop ht hd fuel t (by rw [hk]; exact h1) (by rw [hk]; exact h2)
          (by rw [hk]; exact h3) (by rw [hk]; exact h4))
      all_goals exact hr
    · rw [hq] at hr; exact hr
    · rw [hq] at hr; exact hr

/-- A state that is one transfer, from its start. -/
theorem Reach.transfer {d : DState} {dst : FrDst} {n : Nat} {reason : Reason} {onDone : State → State} {s : State}
    (ht : ∀ r : State, r.dstate = d → r.byteLen = s.byteLen → Machine.tick r = transferTick dst n reason onDone r)
    (hd : d ≠ .sWait) (h1 : s.dstate = d) (h2 : s.busy = false) :
    Reach s (Machine.transfer dst n reason onDone s) := by
  have hr := Reach.tick (s := s) (by rw [h1]; exact hd)
  rw [ht s h1 rfl, transferTick, if_neg (by simp [h2])] at hr
  exact hr.trans (Reach.frLoop (d := d) (dst := dst) (len := s.byteLen)
    (fun r r1 r2 r3 _ => by rw [ht r r1 r2, transferTick, if_pos r3]) hd _ _ h1 rfl rfl rfl)

/-- `S_SE_ARG` is two transfers in a row. -/
theorem Reach.runSeArg {s : State} (h1 : s.dstate = .sSeArg) (h2 : s.busy = false) :
    Reach s (Machine.runSeArg s) := by
  have first : ∀ r : State, r.dstate = .sSeArg → r.byteLen = s.byteLen → r.busy = true → r.frDst = .sink →
      Machine.tick r = andThen (frTurn r) (frSettle .rxFail (frStart .period 4)) := by
    intro r a _ b c; simp [Machine.tick, a, seArgTick, b, c]
  have second : ∀ r : State, r.dstate = .sSeArg → r.byteLen = s.byteLen → r.busy = true → r.frDst = .period →
      Machine.tick r = andThen (frTurn r) (frSettle .rxFail (·.goto .sSeRsp)) := by
    intro r a _ b c; simp [Machine.tick, a, seArgTick, b, c]
  have hr := Reach.tick (s := s) (by simp [h1])
  rw [show Machine.tick s = .next (frStart .sink 5 s) by simp [Machine.tick, h1, seArgTick, h2]] at hr
  have hr := hr.trans (Reach.frLoop first (by decide) 6 (frStart .sink 5 s) h1 rfl rfl rfl)
  unfold Machine.runSeArg frameRead
  rcases hq : Machine.frLoop (5 + 1) (frStart .sink 5 s) with ⟨p, t⟩ | f | f
  · rw [hq] at hr
    have hk := frLoop_keeps _ hq
    cases p
    case done =>
      exact Reach.trans (t := frStart .period 4 t) hr
        (Reach.frLoop second (by decide) 5 (frStart .period 4 t) (by rw [hk]; exact h1) (by rw [hk]; rfl) rfl rfl)
    all_goals exact hr
  · rw [hq] at hr; exact hr
  · rw [hq] at hr; exact hr

theorem seStart_keeps {s t : State} (h : seStart s = .next t) : t = { s with busy := true, sePhase := .pIdleIn } := by
  unfold seStart at h
  split at h
  · cases h; rfl
  · cases h

/-- The serializer stays busy until it returns. -/
theorem seTick_busy {s t : State} (h : seTick s = .next t) (hd : t.dstate = .sShRun) : t.busy = s.busy := by
  unfold seTick at h
  split at h
  · cases h; rfl
  · simp only [andThen_eq_next] at h
    obtain ⟨a, _, b, _, c, hc, h⟩ := h
    cases h
    rw [driveUpdate_eq] at hc
    cases hc; rfl
  · simp only [andThen_eq_next, bitWrite, bufRead, bufWrite] at h
    obtain ⟨a, ⟨b, _, ha⟩, h⟩ := h
    split at ha <;> cases ha
    cases h
    rw [gpioRead_eq]; rfl
  · rw [raiseUpdate_eq] at h; cases h; rfl
  · cases h; rfl
  · cases h; simp at hd

theorem Reach.seLoop : ∀ (fuel : Nat) (s : State), (s.dstate = .sShRun → s.busy = true) →
    Reach s (Machine.seLoop fuel s)
  | 0, s, _ => Reach.refl s
  | fuel + 1, s, hb => by
    rw [Machine.seLoop]
    split
    · rename_i hd
      have hr := Reach.tick (s := s) (by simp [hd])
      rw [show Machine.tick s = seTick s by rw [Machine.tick, hd]; simp [hb hd]] at hr
      exact hr.bind fun t ht => Reach.seLoop fuel t fun hd2 => by rw [seTick_busy ht hd2]; exact hb hd
    · exact Reach.refl s

theorem Reach.runShRun {s : State} (h1 : s.dstate = .sShRun) (h2 : s.busy = false) :
    Reach s (Machine.runShRun s) := by
  have hr := Reach.tick (s := s) (by simp [h1])
  rw [show Machine.tick s = seStart s by rw [Machine.tick, h1]; simp [h2]] at hr
  exact hr.bind fun t ht => Reach.seLoop _ t fun _ => by rw [seStart_keeps ht]

/-! ### From state to state -/

theorem frSettle_busy {reason : Reason} {onDone : State → State} {r : Progress × State} {t : State}
    (hd : ∀ u, (onDone u).busy = false) (h : frSettle reason onDone r = .next t) :
    t.dstate = r.2.dstate ∨ t.busy = false := by
  rcases r with ⟨p, u⟩
  cases p <;> cases h
  · exact .inl rfl
  · exact .inr (hd _)
  · exact .inr rfl
  · exact .inl rfl

/-- A transfer stays in its state, or leaves it with W outside any transfer. -/
theorem transfer_busy {dst : FrDst} {n : Nat} {reason : Reason} {onDone : State → State} {s t : State}
    (hd : ∀ u, (onDone u).busy = false) (h : transfer dst n reason onDone s = .next t) :
    t.dstate = s.dstate ∨ t.busy = false := by
  rw [transfer, andThen_eq_next] at h
  obtain ⟨⟨p, u⟩, hu, ht⟩ := h
  have hk := frLoop_keeps _ hu
  have h2 := frSettle_busy hd ht
  rw [hk] at h2
  exact h2

theorem runSeArg_busy {s t : State} (h : runSeArg s = .next t) : t.dstate = s.dstate ∨ t.busy = false := by
  rw [runSeArg, andThen_eq_next] at h
  obtain ⟨⟨p, u⟩, hu, ht⟩ := h
  have hk := frLoop_keeps _ hu
  cases p
  · cases ht; left; rw [hk]; rfl
  · have h2 := transfer_busy (fun _ => rfl) ht
    rw [hk] at h2; exact h2
  · cases ht; right; rfl
  · cases ht; left; rw [hk]; rfl

theorem afterTag_busy (u : State) : (afterTag u).busy = false := by
  unfold afterTag; split <;> rfl

theorem Reach.follow {s : State} {d : DState} {run : State → Result State} {o : Result State} (h : Reach s o)
    (hr : ∀ t : State, o = .next t → t.dstate = d → Reach t (run t)) : Reach s (Machine.follow d run o) :=
  h.bind fun t ht => by
    split
    · rename_i hd; exact hr t ht hd
    · exact Reach.refl t

theorem Reach.finish {s : State} {o : Result State} (h : Reach s o) : Reach s (andThen o Machine.finish) :=
  h.bind fun t _ => by
    unfold Machine.finish
    split
    · rename_i hd
      have := Reach.tick (s := t) (by simp [hd])
      rwa [show Machine.tick t = .next t.endSession by rw [Machine.tick, hd]] at this
    · exact Reach.refl t

end Sys2Proof.Machine
end

