-- ==== Sys2Proof/Laws/PerInstr.lean ====
section
/-! SUPPORT. One family over the instructions as syntax: a well-formed frame has the length R121 gives it. -/

namespace Sys2Proof.Laws.EncodeLength

/-- For every capacity, the frame of a well-formed instruction has exactly `frameLength` bytes (30_encoding.md R121). -/
def Statement (i : Instr) : Prop :=
  ∀ capacity : Nat, WellFormed capacity i → (encode i).length = frameLength capacity i

theorem getinfo (suffix : Vector Byte 6) : Statement (.getinfo suffix) := by
  intro _ _
  simp [encode, frameLength]

theorem settck (suffix : Vector Byte 5) (period : BitVec 32) : Statement (.settck suffix period) := by
  intro _ _
  simp [encode, frameLength]

theorem shift (suffix : Vector Byte 4) (bitCount : BitVec 32) (tms tdi : List Byte) :
    Statement (.shift suffix bitCount tms tdi) := by
  intro capacity hw
  simp only [WellFormed, Instr.wellFormed, WellFormed.vectorsFit] at hw
  simp only [encode, frameLength, List.length_append, Vector.length_toList, List.length_cons, List.length_nil]
  split
  · rename_i h
    rw [if_pos h, Bool.and_eq_true, beq_iff_eq, beq_iff_eq] at hw
    omega
  · rename_i h
    rw [if_neg h, Bool.and_eq_true, List.isEmpty_iff, List.isEmpty_iff] at hw
    simp [hw.1, hw.2]

theorem invalid (tag : Vector Byte 2) : Statement (.invalid tag) := by
  intro _ _
  simp [encode, frameLength]

end Sys2Proof.Laws.EncodeLength
end

