-- ==== Sys2Proof/Laws/Pieces.lean ====
section
/-! SUPPORT. Bytes behind those H has sent: an atomic action of W that need not wait for them goes the same way with and
without them, for one splitting of the reads. -/

namespace Sys2Proof.Machine

/-- The state in which H has sent `more` as well and splits the reads to come by `splits`. -/
def State.withMore (s : State) (more : List Byte) (splits : List Nat) : State :=
  { s with link := { s.link with rx := s.link.rx ++ more, splits := splits } }

@[simp] theorem withMore_cfg (s : State) (m : List Byte) (l : List Nat) : (s.withMore m l).cfg = s.cfg := rfl
@[simp] theorem withMore_dstate (s : State) (m : List Byte) (l : List Nat) : (s.withMore m l).dstate = s.dstate := rfl
@[simp] theorem withMore_busy (s : State) (m : List Byte) (l : List Nat) : (s.withMore m l).busy = s.busy := rfl
@[simp] theorem withMore_tag (s : State) (m : List Byte) (l : List Nat) : (s.withMore m l).tag = s.tag := rfl
@[simp] theorem withMore_bitCnt (s : State) (m : List Byte) (l : List Nat) : (s.withMore m l).bitCnt = s.bitCnt := rfl
@[simp] theorem withMore_byteLen (s : State) (m : List Byte) (l : List Nat) :
    (s.withMore m l).byteLen = s.byteLen := rfl
@[simp] theorem withMore_frDst (s : State) (m : List Byte) (l : List Nat) : (s.withMore m l).frDst = s.frDst := rfl
@[simp] theorem withMore_frN (s : State) (m : List Byte) (l : List Nat) : (s.withMore m l).frN = s.frN := rfl
@[simp] theorem withMore_frGot (s : State) (m : List Byte) (l : List Nat) : (s.withMore m l).frGot = s.frGot := rfl
@[simp] theorem withMore_seI (s : State) (m : List Byte) (l : List Nat) : (s.withMore m l).seI = s.seI := rfl
@[simp] theorem withMore_sePhase (s : State) (m : List Byte) (l : List Nat) :
    (s.withMore m l).sePhase = s.sePhase := rfl
@[simp] theorem withMore_freeIdx (s : State) (m : List Byte) (l : List Nat) :
    (s.withMore m l).freeIdx = s.freeIdx := rfl
@[simp] theorem withMore_buf (s : State) (b : Buf) (m : List Byte) (l : List Nat) :
    (s.withMore m l).buf b = s.buf b := by cases b <;> rfl
@[simp] theorem withMore_rx (s : State) (m : List Byte) (l : List Nat) :
    (s.withMore m l).link.rx = s.link.rx ++ m := rfl
@[simp] theorem withMore_writes (s : State) (m : List Byte) (l : List Nat) :
    (s.withMore m l).link.writes = s.link.writes := rfl

theorem bufRead_withMore (b : Buf) (j : Nat) (s : State) (m : List Byte) (l : List Nat) :
    bufRead b j (s.withMore m l) = bufRead b j s := by simp [bufRead]

/-- A turn of the loop that does not wait for H goes the same way with more bytes behind it, if the read is split the
same. -/
theorem frTurn_withMore (s : State) (he : s.link.rxEnd = none) :
    frTurn s = .next (.waiting, s) ∨ ∀ more splits, ∃ before,
      frTurn (s.withMore more before) = andThen (frTurn s) fun r => .next (r.1, r.2.withMore more splits) := by
  rcases frTurn_cases s with ⟨h, h1⟩ | ⟨_, _, _, h1⟩ | ⟨e, _, _, h2, _⟩ | ⟨r, hn, h0, hm, hl, hr, h1⟩
  · right
    intro more splits
    exact ⟨splits, by rw [h1, frTurn, if_neg (by simpa [State.withMore] using h)]; rfl⟩
  · exact .inl h1
  · rw [he] at h2; cases h2
  · right
    intro more splits
    have hne : (s.withMore more (r :: splits)).link.rx ≠ [] := by
      simp only [State.withMore, ne_eq, List.append_eq_nil_iff, not_and]
      intro h; rw [h] at hl; simp at hl; omega
    have hcount : (s.withMore more (r :: splits)).link.readCount (s.frN - s.frGot) = r := by
      simp only [State.withMore, Link.readCount, List.headD_cons, List.length_append]; omega
    have htake : (s.link.rx ++ more).take r = s.link.rx.take r := List.take_append_of_le_length hl
    have hdrop : (s.link.rx ++ more).drop r = s.link.rx.drop r ++ more := List.drop_append_of_le_length hl
    refine ⟨r :: splits, ?_⟩
    rw [h1, frTurn, if_pos (by simpa [State.withMore] using hn)]
    rw [show (s.withMore more (r :: splits)).frN - (s.withMore more (r :: splits)).frGot = s.frN - s.frGot from rfl,
      streamRead_of_ne_nil hne, hcount]
    have hlen : (s.link.rx.take r).length = r := by rw [List.length_take]; omega
    have key := storeBytes_withTransfer s.frDst s.frDst s.frN s.frGot s.busy
      { s.link with rx := s.link.rx.drop r ++ more, splits := splits }
      (s.trace ++ [.rx (s.frN - s.frGot) r (s.link.rx.take r)]) (s.link.rx.take r) s.frGot s
    simp only [State.withMore, htake, hdrop, hlen, State.emit, List.tail_cons] 
    simp only [State.withTransfer] at key ⊢
    rw [key, andThen_assoc, andThen_assoc]
    rfl

/-- A response write uses H's answer and none of H's bytes. -/
theorem respWrite_withMore (bytes : List Byte) (s : State) (more : List Byte) (splits : List Nat) :
    respWrite bytes (s.withMore more splits) =
      andThen (respWrite bytes s) fun t => .next (t.withMore more splits) := by
  unfold respWrite
  split
  · rfl
  · rw [withMore_writes]
    split
    · rfl
    · split <;> rfl

theorem frSettle_withMore {reason : Reason} {onDone : State → State} (r : Progress × State) (more : List Byte)
    (splits : List Nat) (hd : ∀ u : State, onDone (u.withMore more splits) = (onDone u).withMore more splits) :
    frSettle reason onDone (r.1, r.2.withMore more splits) =
      andThen (frSettle reason onDone r) fun t => .next (t.withMore more splits) := by
  rcases r with ⟨p, u⟩
  cases p <;> simp only [frSettle, andThen_next, hd]
  rfl

theorem seTick_withMore (s : State) (more : List Byte) (splits : List Nat) :
    seTick (s.withMore more splits) = andThen (seTick s) fun t => .next (t.withMore more splits) := by
  unfold seTick
  rw [withMore_sePhase]
  split
  · rfl
  · simp only [bitRead, withMore_seI, bufRead_withMore, driveUpdate_eq, andThen_assoc, andThen_next]
    rfl
  · simp only [gpioRead_eq, bitWrite, bufRead, withMore_seI]
    by_cases h : s.seI / 8 < s.cfg.capacityBytes
    · simp only [withMore_cfg, h, if_true, andThen_next, bufWrite]
      rfl
    · simp only [withMore_cfg, h, if_false]
      rfl
  · rfl
  · rfl
  · rfl

theorem transferTick_withMore {dst : FrDst} {n : Nat} {reason : Reason} {onDone : State → State} (s : State)
    (he : s.link.rxEnd = none)
    (hd : ∀ (u : State) more splits, onDone (u.withMore more splits) = (onDone u).withMore more splits) :
    transferTick dst n reason onDone s = .next s ∨ ∀ more splits, ∃ before,
      transferTick dst n reason onDone (s.withMore more before) =
        andThen (transferTick dst n reason onDone s) fun t => .next (t.withMore more splits) := by
  unfold transferTick
  by_cases hb : s.busy = true
  · rw [if_pos hb]
    rcases frTurn_withMore s he with h | h
    · left; rw [h]; rfl
    · right
      intro more splits
      obtain ⟨before, h⟩ := h more splits
      refine ⟨before, ?_⟩
      rw [withMore_busy, if_pos hb, h, andThen_assoc, andThen_assoc]
      congr 1
      funext r
      exact frSettle_withMore r more splits (fun u => hd u more splits)
  · right
    intro more splits
    exact ⟨splits, by rw [withMore_busy, if_neg hb, if_neg hb]; rfl⟩

theorem afterTag_withMore (u : State) (more : List Byte) (splits : List Nat) :
    afterTag (u.withMore more splits) = (afterTag u).withMore more splits := by
  unfold afterTag
  rw [withMore_tag]
  split <;> rfl

theorem memRead_withMore (b : Buf) (s : State) (more : List Byte) (splits : List Nat) : ∀ (n j : Nat),
    memRead b j n (s.withMore more splits) = memRead b j n s
  | 0, _ => rfl
  | n + 1, j => by
    rw [memRead, memRead, bufRead_withMore]
    congr 1
    funext v
    rw [memRead_withMore b s more splits n]

/-- Every atomic action of W in a session either waits for H's next byte, or goes the same way with more bytes behind those H
has sent, for a splitting of the reads that takes the same bytes. -/
theorem tick_withMore (s : State) (he : s.link.rxEnd = none) (hd : s.dstate ≠ .sWait) :
    tick s = .next s ∨ ∀ more splits, ∃ before,
      tick (s.withMore more before) = andThen (tick s) fun t => .next (t.withMore more splits) := by
  unfold tick
  simp only [withMore_dstate]
  split
  · contradiction
  · exact transferTick_withMore s he afterTag_withMore
  · exact transferTick_withMore s he fun _ _ _ => rfl
  · exact .inr fun more splits => ⟨splits, respWrite_withMore _ s more splits⟩
  · unfold seArgTick
    by_cases hb : s.busy = true
    · by_cases hk : s.frDst = .sink
      · have := transferTick_withMore (dst := .sink) (n := 5) (reason := .rxFail) (onDone := frStart .period 4) s he
          fun _ _ _ => rfl
        simpa [transferTick, hb, hk, State.withMore] using this
      · have := transferTick_withMore (dst := .period) (n := 4) (reason := .rxFail) (onDone := (·.goto .sSeRsp)) s he
          fun _ _ _ => rfl
        simpa [transferTick, hb, hk, State.withMore] using this
    · right
      intro more splits
      exact ⟨splits, by rw [withMore_busy, if_neg hb, if_neg hb]; rfl⟩
  · exact .inr fun more splits => ⟨splits, respWrite_withMore _ s more splits⟩
  · exact transferTick_withMore s he fun _ _ _ => rfl
  · right
    intro more splits
    refine ⟨splits, ?_⟩
    by_cases h : ceilDiv8 s.bitCnt.toNat ≤ s.cfg.capacityBytes
    · rw [runShChk_fits h, runShChk_fits (by exact h)]; rfl
    · rw [runShChk_oversize (Nat.lt_of_not_le h), runShChk_oversize (by exact Nat.lt_of_not_le h)]; rfl
  · exact transferTick_withMore s he fun _ _ _ => rfl
  · exact transferTick_withMore s he fun _ _ _ => rfl
  · right
    intro more splits
    refine ⟨splits, ?_⟩
    rw [withMore_busy]
    split
    · exact seTick_withMore s more splits
    · unfold seStart
      rw [withMore_bitCnt, withMore_cfg]
      split <;> rfl
  · right
    intro more splits
    refine ⟨splits, ?_⟩
    simp only [runShRsp, tdoResponse, andThen_assoc, andThen_next]
    simp only [withMore_byteLen, withMore_bitCnt, withMore_freeIdx, memRead_withMore, respWrite_withMore, andThen_assoc,
      andThen_next]
    congr 1
    funext bytes
    congr 1
    funext t
    by_cases h : t.dstate = .sShRsp
    · simp [h]
    · rw [if_neg h, if_neg (by exact h)]; rfl
  · exact .inr fun more splits => ⟨splits, rfl⟩
/-- No action of W in a session changes whether and how H's stream ends. -/
theorem tick_rxEnd {s t : State} (hd : s.dstate ≠ .sWait) (h : tick s = .next t) : t.link.rxEnd = s.link.rxEnd := by
  have inTransfer : ∀ dst n r (f : State → State), (∀ u, (f u).link = u.link) → transferTick dst n r f s = .next t →
      t.link.rxEnd = s.link.rxEnd := by
    intro dst n r f hf h
    unfold transferTick at h
    split at h
    · rw [andThen_eq_next] at h
      obtain ⟨⟨p, u⟩, hu, h⟩ := h
      have : u.link.rxEnd = s.link.rxEnd := by
        rcases frTurn_cases s with ⟨_, h1⟩ | ⟨_, _, _, h1⟩ | ⟨e, _, _, _, h1⟩ | ⟨r, _, _, _, _, _, h1⟩
        · rw [h1] at hu; cases hu; rfl
        · rw [h1] at hu; cases hu; rfl
        · rw [h1] at hu; cases hu; rfl
        · rw [h1, andThen_eq_next] at hu
          obtain ⟨a, _, hu⟩ := hu
          cases hu; rfl
      rw [← this]
      cases p <;> cases h
      · rfl
      · simp only [hf]
      · rfl
      · rfl
    · cases h; rfl
  have inWrite : ∀ bytes t, respWrite bytes s = .next t → t.link.rxEnd = s.link.rxEnd := by
    intro bytes t h
    rcases respWrite_cases bytes s with
        ⟨_, h'⟩ | ⟨_, _, h'⟩ | ⟨a, ws, _, _, ⟨_, h'⟩ | ⟨_, h'⟩ | ⟨_, _, h'⟩ | ⟨_, h'⟩⟩ <;>
      rw [h'] at h <;> cases h <;> rfl
  unfold tick at h
  split at h
  · rename_i h'; exact absurd h' hd
  · exact inTransfer _ _ _ _ (fun u => by unfold afterTag; split <;> rfl) h
  · exact inTransfer _ _ _ _ (by intro u; rfl) h
  · exact inWrite _ _ h
  · unfold seArgTick at h
    by_cases hb : s.busy = true
    · by_cases hk : s.frDst = .sink
      · simp only [hb, hk, if_true] at h
        exact inTransfer .sink 5 .rxFail (frStart .period 4) (fun _ => rfl) (by simpa [transferTick, hb] using h)
      · simp only [hb, hk, if_true, if_false] at h
        exact inTransfer .period 4 .rxFail (·.goto .sSeRsp) (fun _ => rfl) (by simpa [transferTick, hb] using h)
    · simp only [hb] at h; cases h; rfl
  · exact inWrite _ _ h
  · exact inTransfer _ _ _ _ (by intro u; rfl) h
  · cases h; unfold runShChk; simp only; split <;> rfl
  · exact inTransfer _ _ _ _ (by intro u; rfl) h
  · exact inTransfer _ _ _ _ (by intro u; rfl) h
  · split at h
    · unfold seTick at h
      split at h
      · cases h; rfl
      · simp only [andThen_eq_next] at h
        obtain ⟨a, _, b, _, c, hc, h⟩ := h
        cases h; rw [driveUpdate_eq] at hc; cases hc; rfl
      · simp only [andThen_eq_next, bitWrite, bufRead, bufWrite] at h
        obtain ⟨a, ⟨b, _, ha⟩, h⟩ := h
        split at ha <;> cases ha
        cases h; rw [gpioRead_eq]; rfl
      · rw [raiseUpdate_eq] at h; cases h; rfl
      · cases h; rfl
      · cases h; rfl
    · rw [seStart_keeps h]
  · simp only [runShRsp, andThen_eq_next] at h
    obtain ⟨b, _, u, hu, h⟩ := h
    cases h
    have := inWrite _ _ hu
    split
    · exact this
    · exact this
  · cases h; rfl

end Sys2Proof.Machine
end

