-- ==== Sys2Proof/Tests/Slice0.lean ====
section
/-! SUPPORT. Small tests. Expected results are those of spec/95_test_vectors.md, named W… and V-… as there, or are
written out from 30_encoding.md. Then, for every obligation with hypotheses, a witness that meets them together. -/

namespace Sys2Proof.Tests

open Sys2Proof.Machine

/-! ### The bench -/

/-- W at a frame boundary of a session, H having sent `rx` and closed, and answering writes by `writes`. -/
def bench (rx : List Byte) (writes : List WriteAnswer) : State :=
  { State.reset with
    dstate := .sTag, sessActive := true, stream := some 7
    link := { rx := rx, splits := [], rxEnd := some 0, writes := writes, got := [] } }

/-- W in the state `d` of such a session, inside a transfer or not. -/
def benchIn (d : DState) (dst : FrDst) (n got : Nat) (busy : Bool) (rx : List Byte) : State :=
  { bench rx [] with dstate := d, frDst := dst, frN := n, frGot := got, busy := busy }

/-- One value of the next state, if there is one. -/
def seen {α : Type} (f : State → α) : Host.Outcome State Fault Refusal → Option α
  | .next s => some (f s)
  | .fault _ => none
  | .refused _ => none

/-- A whole answer of `n` bytes. -/
def takes (n : Int) : WriteAnswer := { k := n, delivered := 0 }

/-- The bench meets the invariant. -/
theorem bench_inv (rx : List Byte) (writes : List WriteAnswer) : (bench rx writes).Inv :=
  ⟨rfl, rfl, rfl, rfl, rfl, (fun h => by cases h), (fun h => by cases h), Nat.two_pow_pos _⟩

/-! ### WellFormed: an ill-formed term for each check -/

theorem test_wf_accepts : WellFormed 2048 (.shift #v[0x69, 0x66, 0x74, 0x3A] 9 [0x00, 0x00] [0xFF, 0x01]) := by decide
theorem test_wf_short_tms : ¬ WellFormed 2048 (.shift #v[0x69, 0x66, 0x74, 0x3A] 9 [0x00] [0x00, 0x00]) := by decide
theorem test_wf_long_tdi : ¬ WellFormed 2048 (.shift #v[0x69, 0x66, 0x74, 0x3A] 9 [0x00, 0x00] [0, 0, 0]) := by decide
theorem test_wf_oversize_tms : ¬ WellFormed 2048 (.shift #v[0x69, 0x66, 0x74, 0x3A] 16385 [0x00] []) := by decide
theorem test_wf_oversize_tdi : ¬ WellFormed 2048 (.shift #v[0x69, 0x66, 0x74, 0x3A] 16385 [] [0x00]) := by decide
theorem test_wf_getinfo_tag : ¬ WellFormed 2048 (.invalid #v[0x67, 0x65]) := by decide
theorem test_wf_settck_tag : ¬ WellFormed 2048 (.invalid #v[0x73, 0x65]) := by decide
theorem test_wf_shift_tag : ¬ WellFormed 2048 (.invalid #v[0x73, 0x68]) := by decide

/-! ### Decoding: words written out from 30_encoding.md -/

/-- R112: `67 65`, then 6 suffix bytes. -/
theorem test_decode_getinfo : decode 2048 [0x67, 0x65, 0x74, 0x69, 0x6E, 0x66, 0x6F, 0x3A] =
    .ok (.getinfo #v[0x74, 0x69, 0x6E, 0x66, 0x6F, 0x3A], []) := by decide
/-- R113: `73 65`, 5 suffix bytes, the period's low byte first. -/
theorem test_decode_settck : decode 2048 [0x73, 0x65, 0x74, 0x74, 0x63, 0x6B, 0x3A, 0x78, 0x56, 0x34, 0x12] =
    .ok (.settck #v[0x74, 0x74, 0x63, 0x6B, 0x3A] 305419896, []) := by decide
/-- R114, R115: `73 68`, 4 suffix bytes, the bit count, then TMS before TDI; the byte after the frame stays. -/
theorem test_decode_shift : decode 2048
    [0x73, 0x68, 0x69, 0x66, 0x74, 0x3A, 0x09, 0x00, 0x00, 0x00, 0x01, 0x02, 0x03, 0x04, 0x67] =
    .ok (.shift #v[0x69, 0x66, 0x74, 0x3A] 9 [0x01, 0x02] [0x03, 0x04], [0x67]) := by decide
/-- R121: an oversize frame is its header. -/
theorem test_decode_oversize : decode 2048 [0x73, 0x68, 0x69, 0x66, 0x74, 0x3A, 0x01, 0x40, 0x00, 0x00, 0x55] =
    .ok (.shift #v[0x69, 0x66, 0x74, 0x3A] 16385 [] [], [0x55]) := by decide
/-- V-C1: the tags in capitals and with the bytes swapped are invalid. -/
theorem test_decode_invalid : decode 2048 [0x47, 0x45] = .ok (.invalid #v[0x47, 0x45], []) ∧
    decode 2048 [0x68, 0x73] = .ok (.invalid #v[0x68, 0x73], []) := by decide
/-- A frame cut short is rejected by name. -/
theorem test_decode_truncated : decode 2048 [0x67] = .error .truncatedTag ∧
    decode 2048 [0x67, 0x65, 0x74] = .error .truncatedGetinfo ∧
    decode 2048 [0x73, 0x65, 0x74] = .error .truncatedSettck ∧
    decode 2048 [0x73, 0x68, 0x69] = .error .truncatedShiftHeader ∧
    decode 2048 [0x73, 0x68, 0x69, 0x66, 0x74, 0x3A, 0x10, 0x00, 0x00, 0x00, 0x00] = .error .truncatedTms ∧
    decode 2048 [0x73, 0x68, 0x69, 0x66, 0x74, 0x3A, 0x08, 0x00, 0x00, 0x00, 0x00] = .error .truncatedTdi := by decide
/-- The table words of R118: the tag in bits 15 to 0, every later byte 0. -/
theorem test_table_words : decodeTableWord 16 0x6765 = some (.getinfo #v[0, 0, 0, 0, 0, 0]) ∧
    decodeTableWord 16 0x7365 = some (.settck #v[0, 0, 0, 0, 0] 0) ∧
    decodeTableWord 16 0x7368 = some (.shift #v[0, 0, 0, 0] 0 [] []) ∧
    decodeTableWord 16 0x4745 = some (.invalid #v[0x47, 0x45]) := by decide
/-- V-C3: the assembly expansions. -/
theorem test_assembly : encode (Assembly.settck 0x12345678) =
      [0x73, 0x65, 0x74, 0x74, 0x63, 0x6B, 0x3A, 0x78, 0x56, 0x34, 0x12] ∧
    (Assembly.tmsonly 5 [0x1F]).map encode =
      some [0x73, 0x68, 0x69, 0x66, 0x74, 0x3A, 0x05, 0x00, 0x00, 0x00, 0x1F, 0x00] ∧
    (Assembly.shiftbits [true, false, true] [false, true, true]).map encode =
      some [0x73, 0x68, 0x69, 0x66, 0x74, 0x3A, 0x03, 0x00, 0x00, 0x00, 0x05, 0x06] ∧
    Assembly.shift 9 [0x00] [0x00, 0x00] = none := by decide

/-! ### Arithmetic -/

/-- V-A2: the ceiling is exact where 32 bits would wrap. -/
theorem test_ceil_div8 : ceilDiv8 16385 = 2049 ∧ ceilDiv8 4294967289 = 536870912 := by decide
/-- V-A3: the bits of `A5 1F`, least significant first. -/
theorem test_bit_order : (List.range 16).map (vectorBit [0xA5, 0x1F]) =
    [true, false, true, false, false, true, false, true, true, true, true, true, true, false, false, false] := by decide
/-- V-A3: a bit write changes one bit. -/
theorem test_bit_write : withBit 0x00 1 true = 0x02 ∧ withBit 0xFF 0 false = 0xFE := by decide

/-- R38: `SE_I` is 15 bits wide in this deployment; the largest index it holds fits, and a write beyond wraps. -/
theorem test_serializer_index_width : Config.deployment.seIBits = 15 ∧ seIndex Config.deployment 16384 = 16384 ∧
    seIndex Config.deployment 32768 = 0 := by decide

/-! ### One step of each command -/

/-- W1: the response, W back at the frame boundary, and the trace. -/
theorem test_getinfo : seen (fun s => (s.dstate, s.link.got.length, s.trace.take 2))
    (step (bench [0x67, 0x65, 0x74, 0x69, 0x6E, 0x66, 0x6F, 0x3A] [takes 20])) =
    some (.sTag, 20, [.rx 2 2 [0x67, 0x65], .rx 6 6 [0x74, 0x69, 0x6E, 0x66, 0x6F, 0x3A]]) := by decide
/-- W6, V-D8: split reads, and another advertised number. -/
theorem test_getinfo_split : seen (fun s => (s.trace.take 4, s.link.got))
    (step { bench [0x67, 0x65, 0x74, 0x69, 0x6E, 0x66, 0x6F, 0x3A] [takes 19] with
      cfg := { capacityBytes := 2048, advertisedN := 512 }
      link := { rx := [0x67, 0x65, 0x74, 0x69, 0x6E, 0x66, 0x6F, 0x3A], splits := [1, 1, 2, 4], rxEnd := none
                writes := [takes 19], got := [] } }) =
    some ([.rx 2 1 [0x67], .rx 1 1 [0x65], .rx 6 2 [0x74, 0x69], .rx 4 4 [0x6E, 0x66, 0x6F, 0x3A]],
      [0x78, 0x76, 0x63, 0x53, 0x65, 0x72, 0x76, 0x65, 0x72, 0x5F, 0x76, 0x31, 0x2E, 0x30, 0x3A,
        0x35, 0x31, 0x32, 0x0A]) := by decide
/-- W2 in three pieces, W meeting the first before the second is sent: the same period and the same echo. -/
theorem test_settck_pieces : seen (fun s => (s.dstate, s.period, s.link.got))
    (andThen (State.hostSendsInPieces
        [(0, [0x73]), (4, [0x65, 0x74, 0x74, 0x63, 0x6B, 0x3A, 0x78]), (9, [0x56, 0x34, 0x12])]
        { bench [] [takes 4] with link := { Link.empty with writes := [takes 4] } }) (ticks 4)) =
    some (.sTag, #v[0x78, 0x56, 0x34, 0x12], [0x78, 0x56, 0x34, 0x12]) := by decide
/-- W2: the period in arrival order, and its echo. -/
theorem test_settck : seen (fun s => (s.dstate, s.period, s.link.got))
    (step (bench [0x73, 0x65, 0x74, 0x74, 0x63, 0x6B, 0x3A, 0x78, 0x56, 0x34, 0x12] [takes 4])) =
    some (.sTag, #v[0x78, 0x56, 0x34, 0x12], [0x78, 0x56, 0x34, 0x12]) := by decide
/-- V-E4: a short write ends the session, the host having three bytes. -/
theorem test_settck_short : seen (fun s => (s.dstate, s.lastReason.code, s.link.got))
    (step (bench [0x73, 0x65, 0x74, 0x74, 0x63, 0x6B, 0x3A, 0x10, 0x00, 0x00, 0x00] [takes 3])) =
    some (.sWait, 4, [0x10, 0x00, 0x00]) := by decide
/-- W3: under the wire loopback the response is the TDI byte, and the lines end idle. -/
theorem test_shift_loopback : seen (fun s => (s.link.got, s.lines, s.seI, s.trace.countP Event.isSetClr))
    (step { bench [0x73, 0x68, 0x69, 0x66, 0x74, 0x3A, 0x08, 0x00, 0x00, 0x00, 0x00, 0xAA] [takes 1] with
      target := .wireLoopback }) =
    some ([0xAA], { tck := false, tms := true, tdi := false }, 8, 18) := by decide
/-- V-S3: three bits, T answering 1, 1, 0: the lines after each update, the samples, and `TDO_BUF`. -/
theorem test_shift_three_bits : seen
    (fun s => (s.trace.filterMap fun e => match e with
      | .setClr _ _ l => some (l.tck, l.tms, l.tdi)
      | _ => none, s.tdoBuf))
    (step { bench [0x73, 0x68, 0x69, 0x66, 0x74, 0x3A, 0x03, 0x00, 0x00, 0x00, 0x05, 0x06] [takes 1] with
      target := .levels [true, true, false] }) =
    some ([(false, true, false), (false, true, false), (true, true, false), (false, false, true), (true, false, true),
      (false, true, true), (true, true, true), (false, true, false)], [(0, 0x03)]) := by decide
/-- V-D3: the two tag bytes are consumed and no more. -/
theorem test_invalid : seen (fun s => (s.dstate, s.lastReason.code, s.link.rx, s.trace))
    (step (bench [0x47, 0x45, 0x74] [])) =
    some (.sWait, 5, [0x74], [.rx 2 2 [0x47, 0x45], .sessionEnd .badTag]) := by decide

/-- R270, R274: a reset inside a shift abandons the session, drives no line and writes no buffer. -/
theorem test_reset_in_a_shift :
    ((fun s => (s.dstate, s.sessActive, s.lines, s.tdoBuf)) (State.hardReset { bench [] [] with
      dstate := .sShRun, busy := true, tdoBuf := [(0, 0x03)], lines := { tck := true, tms := false, tdi := true } })) =
    (.sWait, false, { tck := true, tms := false, tdi := true }, [(0, 0x03)]) := by decide

/-! ### Witnesses: the hypotheses of each obligation, met together -/

/-- A shift of 8 bits and what the host answers. -/
def frameW3 : List Byte := [0x73, 0x68, 0x69, 0x66, 0x74, 0x3A, 0x08, 0x00, 0x00, 0x00, 0x00, 0xAA]
/-- A shift over the capacity. -/
def frameW5 : List Byte := [0x73, 0x68, 0x69, 0x66, 0x74, 0x3A, 0x01, 0x40, 0x00, 0x00]

theorem witness_ResetWaitsForASession : State.reset.offers = [] ∧
    ∃ s : State, s.offers = [{ handle := 3, link := Link.empty }] :=
  ⟨rfl, { State.reset with offers := [{ handle := 3, link := Link.empty }] }, rfl⟩

/-- Inside a shift, the buffers not empty and the lines not at their power-on levels. -/
theorem witness_ResetMeetsInvariant : ∃ s : State, (∀ b, Memory.wf s.cfg.capacityBytes (s.buf b) = true) ∧
    s.busy = true ∧ s.tdoBuf ≠ [] ∧ s.lines ≠ State.reset.lines :=
  ⟨{ bench [] [] with
      dstate := .sShRun, busy := true, tdoBuf := [(2047, 0x80)], lines := { tck := true, tms := true, tdi := true } },
    (fun b => by cases b <;> rfl), rfl, by decide, by decide⟩

theorem witness_DecodeOfEncode : WellFormed 2048 (.shift #v[0, 0, 0, 0] 8 [0x00] [0xAA]) ∧
    WellFormed 1 (.shift #v[0, 0, 0, 0] 8 [0x00] [0xAA]) ∧ WellFormed 0 (.shift #v[0, 0, 0, 0] 8 [] []) ∧
    WellFormed 0 (.invalid #v[0, 0]) := by decide

theorem witness_EncodeOfDecode : decode 2048 (frameW3 ++ [0x67]) =
    .ok (.shift #v[0x69, 0x66, 0x74, 0x3A] 8 [0x00] [0xAA], [0x67]) := by decide

theorem witness_FrameLengthFromFirstBytes :
    (∃ i r, decode 1 [0x67, 0x65, 0, 0, 0, 0, 0, 0] = .ok (i, r)) ∧
    (∃ i r, decode 1 [0x73, 0x65, 0, 0, 0, 0, 0, 0, 0, 0, 0] = .ok (i, r)) ∧
    (∃ i r, decode 1 frameW3 = .ok (i, r)) ∧ (∃ i r, decode 0 frameW3 = .ok (i, r)) ∧
    (∃ i r, decode 1 [0x47, 0x45] = .ok (i, r)) :=
  ⟨⟨_, _, rfl⟩, ⟨_, _, rfl⟩, ⟨_, _, rfl⟩, ⟨_, _, rfl⟩, ⟨_, _, rfl⟩⟩

theorem witness_TagSelectsCommand :
    (∃ i r, decode 2048 (0x67 :: 0x65 :: [1, 2, 3, 4, 5, 6]) = .ok (i, r)) ∧
    ((le32 9 0 0 0).toNat + 7) / 8 ≤ 2 ∧ [(0x01 : Byte), 0x02].length = ((le32 9 0 0 0).toNat + 7) / 8 ∧
    1 < ((le32 9 0 0 0).toNat + 7) / 8 :=
  ⟨⟨_, _, rfl⟩, by decide⟩

theorem witness_DecIsDecimal : 0 < 2048 := by decide

theorem witness_AssemblyExpandsToFrames : ((9 : BitVec 32).toNat + 7) / 8 ≤ 2 ∧
    (∃ i, Assembly.shift 9 [1, 2] [3, 4] = some i) ∧ [true, false].length = [false, true].length ∧
    [true, false].length < 2 ^ 32 :=
  ⟨by decide, ⟨_, rfl⟩, rfl, by decide⟩

theorem witness_StepRunsTheDecodedFrame :
    ((bench frameW3 []).dstate = .sTag ∧ (bench frameW3 []).busy = false ∧
      decode (bench frameW3 []).cfg.capacityBytes (bench frameW3 []).link.rx =
        .ok (.shift #v[0x69, 0x66, 0x74, 0x3A] 8 [0x00] [0xAA], [])) ∧
    decode (bench [0x67] []).cfg.capacityBytes (bench [0x67] []).link.rx = .error .truncatedTag ∧
    State.reset.dstate ≠ .sTag ∧ (benchIn .sTag .tag 2 1 true [0x65]).busy = true := by decide

theorem witness_CommandIsItsWorkerActions :
    (bench frameW5 []).dstate = .sTag ∧ (bench frameW5 []).busy = false ∧
    decode (bench frameW5 []).cfg.capacityBytes (bench frameW5 []).link.rx =
      .ok (.shift #v[0x69, 0x66, 0x74, 0x3A] 16385 [] [], []) := by decide

theorem witness_TableWordRunsNext : State.reset.cfg = Config.deployment := rfl

theorem witness_ReadSplittingDoesNotMatter :
    WellFormed State.reset.cfg.capacityBytes (.shift #v[0x69, 0x66, 0x74, 0x3A] 8 [0x00] [0xAA]) := by decide

/-- A shift cut inside its tag, then inside its TDI vector; the last piece holds the next frame's first byte too. -/
theorem witness_FrameInPiecesIsTheWholeFrame : ∃ s : State, s.dstate = .sTag ∧ s.busy = false ∧ s.link.rxEnd = none ∧
    decode s.cfg.capacityBytes (s.link.rx ++ [(5, frameW3.tail.dropLast)].flatMap Prod.snd) = .error .truncatedTdi ∧
    decode s.cfg.capacityBytes (s.link.rx ++ [(5, frameW3.tail.dropLast)].flatMap Prod.snd ++ [0xAA, 0x67]) =
      .ok (.shift #v[0x69, 0x66, 0x74, 0x3A] 8 [0x00] [0xAA], [0x67]) :=
  ⟨{ bench [] [takes 1] with link := { Link.empty with rx := [0x73], writes := [takes 1] } }, by decide⟩

theorem witness_GetinfoAnswersTheVersion : (bench [] [takes 20]).link.writes = takes 20 :: [] ∧
    (takes 20).k = (getinfoResponse (bench [] [takes 20]).cfg.advertisedN).length := by decide

theorem witness_SettckEchoesThePeriod : (bench [] [takes 4]).link.writes = takes 4 :: [] ∧ (takes 4).k = 4 := by decide

/-- A shift that has padding bits, one at the capacity of a one-byte block, T's levels given; and one under the loopback. -/
theorem witness_ShiftReturnsTheSamples :
    ∃ s : State, s.cfg.capacityBytes = 1 ∧ Memory.wf s.cfg.capacityBytes s.tmsBuf = true ∧
      Memory.wf s.cfg.capacityBytes s.tdiBuf = true ∧ Memory.wf s.cfg.capacityBytes s.tdoBuf = true ∧
      0 < (3 : BitVec 32).toNat ∧ ((3 : BitVec 32).toNat + 7) / 8 ≤ s.cfg.capacityBytes ∧
      [(0x05 : Byte)].length = ((3 : BitVec 32).toNat + 7) / 8 ∧ s.link.writes = takes 1 :: [] ∧
      (takes 1).k = (((3 : BitVec 32).toNat + 7) / 8 : Nat) ∧ s.target = .levels [true, true, false] ∧
      (3 : BitVec 32).toNat ≤ [true, true, false].length :=
  ⟨{ bench [] [takes 1] with
      cfg := { capacityBytes := 1, advertisedN := 1 }, tdoBuf := [(0, 0xFE)], target := .levels [true, true, false] },
    by decide⟩

theorem witness_ShiftReturnsTheSamples_loopback :
    ∃ s : State, Memory.wf s.cfg.capacityBytes s.tdoBuf = true ∧ s.target = .wireLoopback ∧
      s.link.writes = takes 1 :: [] ∧ (takes 1).k = (((8 : BitVec 32).toNat + 7) / 8 : Nat) :=
  ⟨{ bench [] [takes 1] with target := .wireLoopback }, by decide⟩

/-- The first byte length above the capacity, and the largest bit count of all. -/
theorem witness_OversizeShiftEndsTheSession :
    State.reset.cfg.capacityBytes < ((16385 : BitVec 32).toNat + 7) / 8 ∧
    ¬ State.reset.cfg.capacityBytes < ((16384 : BitVec 32).toNat + 7) / 8 ∧
    State.reset.cfg.capacityBytes < ((4294967295 : BitVec 32).toNat + 7) / 8 := by decide

theorem witness_InvalidTagEndsTheSession : (#v[0x73, 0x78] : Vector Byte 2) ≠ #v[0x67, 0x65] ∧
    (#v[0x73, 0x78] : Vector Byte 2) ≠ #v[0x73, 0x65] ∧ (#v[0x73, 0x78] : Vector Byte 2) ≠ #v[0x73, 0x68] := by decide

/-- No answer; then the whole count, one less, 1, 0, below 0, and one more. -/
theorem witness_WriteAnswerDecidesTheCommand :
    WellFormed State.reset.cfg.capacityBytes (.settck #v[0, 0, 0, 0, 0] 16) ∧
    0 < responseLength State.reset.cfg (.settck #v[0, 0, 0, 0, 0] 16) ∧ (bench [] []).link.writes = [] ∧
    (bench [] [takes 4]).link.writes = takes 4 :: [] ∧
    (takes 4).k = responseLength State.reset.cfg (.settck #v[0, 0, 0, 0, 0] 16) ∧
    (takes 3).k < responseLength State.reset.cfg (.settck #v[0, 0, 0, 0, 0] 16) ∧ ¬ (takes 1).k ≤ 0 ∧
    (takes 0).k ≤ 0 ∧ (takes (-1)).k ≤ 0 ∧
    (responseLength State.reset.cfg (.settck #v[0, 0, 0, 0, 0] 16) : Int) < (takes 5).k := by decide

theorem witness_LoopbackReturnsTdi : ∃ s : State, s.Inv ∧ s.target = .wireLoopback ∧
    ((13 : BitVec 32).toNat + 7) / 8 ≤ s.cfg.capacityBytes ∧
    [(0x00 : Byte), 0x00].length = ((13 : BitVec 32).toNat + 7) / 8 ∧ s.link.writes = takes 2 :: [] ∧
    (takes 2).k = (((13 : BitVec 32).toNat + 7) / 8 : Nat) ∧ (8 : BitVec 32).toNat % 8 = 0 :=
  ⟨{ bench [] [takes 2] with target := .wireLoopback },
    ⟨rfl, rfl, rfl, rfl, rfl, (fun h => by cases h), (fun h => by cases h), by decide⟩, by decide⟩

theorem witness_ShiftIgnoresPaddingBits : ((3 : BitVec 32).toNat + 7) / 8 ≤ State.reset.cfg.capacityBytes ∧
    Memory.wf State.reset.cfg.capacityBytes State.reset.tmsBuf = true ∧
    Memory.wf State.reset.cfg.capacityBytes State.reset.tdiBuf = true ∧
    [(0x05 : Byte)].length = ((3 : BitVec 32).toNat + 7) / 8 ∧ [(0xFD : Byte)].length = [(0x05 : Byte)].length ∧
    (∀ i, i < (3 : BitVec 32).toNat →
      vectorBit [0xFD] i = vectorBit [0x05] i ∧ vectorBit [0xF6] i = vectorBit [0x06] i) := by decide

theorem witness_ResponsesDependOnTheirOwnFrame : ∃ s u : State, s.Inv ∧ u.Inv ∧ s ≠ u ∧
    WellFormed s.cfg.capacityBytes (.getinfo #v[0, 0, 0, 0, 0, 0]) ∧ u.cfg = s.cfg ∧ u.link = s.link ∧
    u.target = s.target ∧ u.freeIdx = s.freeIdx :=
  ⟨bench [] [takes 20], { bench [] [takes 20] with bitCnt := 5, tdoBuf := [(0, 0xFE)] }, bench_inv _ _,
    ⟨rfl, rfl, rfl, rfl, rfl, (fun h => by cases h), (fun h => by cases h), by decide⟩, by decide, by decide, rfl, rfl, rfl, rfl⟩

/-- Each of the three tags, and one that is none of them. -/
theorem witness_DispatchGoesByTag :
    ({ State.reset with tag := #v[0x67, 0x65] } : State).tag = #v[0x67, 0x65] ∧
    ({ State.reset with tag := #v[0x73, 0x65] } : State).tag = #v[0x73, 0x65] ∧
    ({ State.reset with tag := #v[0x73, 0x68] } : State).tag = #v[0x73, 0x68] ∧
    (({ State.reset with tag := #v[0x67, 0x45] } : State).tag ≠ #v[0x67, 0x65] ∧
      ({ State.reset with tag := #v[0x67, 0x45] } : State).tag ≠ #v[0x73, 0x65] ∧
      ({ State.reset with tag := #v[0x67, 0x45] } : State).tag ≠ #v[0x73, 0x68]) := by decide

theorem witness_SessionStartTakesTheStream : ∃ s : State, s.dstate = .sWait ∧
    s.offers = { handle := 3, link := Link.empty } :: [] :=
  ⟨{ State.reset with offers := [{ handle := 3, link := Link.empty }] }, rfl, rfl⟩

/-- A state no reset leaves: what an earlier session left is still there. -/
theorem witness_WaitsWithoutAnOffer :
    (∃ s : State, s.dstate = .sWait ∧ s.offers = [] ∧ s.lastReason = .badTag ∧ s.trace ≠ []) ∧
    (benchIn .sEnd .tag 2 2 false []).dstate = .sEnd ∧ (benchIn .sEnd .tag 2 2 false []).offers = [] :=
  ⟨⟨{ State.reset with lastReason := .badTag, trace := [.sessionStart, .sessionEnd .badTag] }, by decide⟩, by decide⟩

theorem witness_TerminationStep : (benchIn .sEnd .tag 2 2 false []).dstate = .sEnd := rfl

theorem witness_CodesOfReasonsAndStates : Reason.code .badTag = Reason.code .badTag ∧
    DState.code .sEnd = DState.code .sEnd := ⟨rfl, rfl⟩

theorem witness_EnvironmentChangesItsOwnSideOnly : (bench frameW3 []).Inv := bench_inv _ _

/-- Exactly the capacity, and one bit more. -/
theorem witness_CapacityCheckIsExact :
    ({ benchIn .sShChk .hdr 8 8 false [] with bitCnt := 16384 } : State).dstate = .sShChk ∧
    ((16384 : BitVec 32).toNat + 7) / 8 ≤ (benchIn .sShChk .hdr 8 8 false []).cfg.capacityBytes ∧
    (benchIn .sShChk .hdr 8 8 false []).cfg.capacityBytes < ((16385 : BitVec 32).toNat + 7) / 8 := by decide

theorem witness_DispatcherTransitions : ∃ t, tick (benchIn .sTag .tag 2 2 true []) = .next t := ⟨_, rfl⟩

/-- A transfer that fails, an invalid tag, a write that fails, and a check that fails. -/
theorem witness_ReasonsByState :
    seen State.dstate (tick (benchIn .sTag .tag 2 0 true [])) = some .sEnd ∧
    seen State.dstate (tick (benchIn .sTag .tag 2 2 true [])) = some .sEnd ∧
    seen State.dstate (tick (benchIn .sShHdr .hdr 8 3 true [])) = some .sEnd ∧
    seen State.dstate (tick { bench [] [takes 1] with dstate := .sSeRsp }) = some .sEnd ∧
    seen State.dstate (tick { benchIn .sShChk .hdr 8 8 false [] with bitCnt := 16385 }) = some .sEnd := by decide

/-- An atomic action from a good state changes what `f` reads. -/
def Changes {α : Type} (f : State → α) : Prop := ∃ s t : State, s.Inv ∧ tick s = .next t ∧ f t ≠ f s

/-- The Frame Reader's registers, and the destinations of its transfers. -/
theorem witness_RegistersAreWrittenInTheirStates : Changes State.tag ∧ Changes State.period ∧ Changes State.hdr ∧
    Changes State.tmsBuf ∧ Changes State.tdiBuf ∧ Changes State.frDst ∧ Changes State.frN ∧ Changes State.frGot :=
  ⟨⟨benchIn .sTag .tag 2 0 true [0x67], _,
      ⟨rfl, rfl, rfl, rfl, rfl, (fun _ => ⟨rfl, rfl, by decide⟩), (fun h => by cases h), by decide⟩, rfl, by decide⟩,
    ⟨benchIn .sSeArg .period 4 0 true [0x10], _,
      ⟨rfl, rfl, rfl, rfl, rfl, (fun _ => ⟨.inr ⟨rfl, rfl⟩, by decide⟩), (fun h => by cases h), by decide⟩,
      rfl, by decide⟩,
    ⟨benchIn .sShHdr .hdr 8 4 true [0x08], _,
      ⟨rfl, rfl, rfl, rfl, rfl, (fun _ => ⟨rfl, rfl, by decide⟩), (fun h => by cases h), by decide⟩, rfl, by decide⟩,
    ⟨{ benchIn .sShTms .tmsBuf 1 0 true [0x05] with bitCnt := 3, byteLen := 1 }, _,
      ⟨rfl, rfl, rfl, rfl, rfl, (fun _ => ⟨rfl, rfl, by decide⟩), (fun _ => by decide), by decide⟩, rfl, by decide⟩,
    ⟨{ benchIn .sShTdi .tdiBuf 1 0 true [0x06] with bitCnt := 3, byteLen := 1 }, _,
      ⟨rfl, rfl, rfl, rfl, rfl, (fun _ => ⟨rfl, rfl, by decide⟩), (fun _ => by decide), by decide⟩, rfl, by decide⟩,
    ⟨bench [0x67] [], _, bench_inv _ _, rfl, by decide⟩, ⟨bench [0x67] [], _, bench_inv _ _, rfl, by decide⟩,
    ⟨benchIn .sTag .tag 2 0 true [0x67], _,
      ⟨rfl, rfl, rfl, rfl, rfl, (fun _ => ⟨rfl, rfl, by decide⟩), (fun h => by cases h), by decide⟩, rfl, by decide⟩⟩

/-- A shift of three bits, at the operation `phase` of bit 0. -/
def benchShift (phase : SePhase) : State :=
  { bench [] [] with
    dstate := .sShRun, busy := true, bitCnt := 3, byteLen := 1, sePhase := phase, target := .levels [true] }

/-- The other registers, `TDO_BUF` and the lines. -/
theorem witness_RegistersAreWrittenInTheirStates_rest : Changes State.bitCnt ∧ Changes State.byteLen ∧
    Changes State.tdoBuf ∧ Changes State.lines ∧ Changes State.seI ∧ Changes State.sePhase ∧
    Changes State.lastReason ∧ Changes State.sessActive ∧ Changes State.stream :=
  ⟨⟨{ benchIn .sShHdr .hdr 8 8 true [] with hdr := #v[0, 0, 0, 0, 8, 0, 0, 0] }, _,
      ⟨rfl, rfl, rfl, rfl, rfl, (fun _ => ⟨rfl, rfl, by decide⟩), (fun h => by cases h), by decide⟩, rfl, by decide⟩,
    ⟨{ benchIn .sShChk .hdr 8 8 false [] with bitCnt := 8 }, _,
      ⟨rfl, rfl, rfl, rfl, rfl, (fun h => by cases h), (fun h => by cases h), by decide⟩, rfl, by decide⟩,
    ⟨benchShift .pSample, _,
      ⟨rfl, rfl, rfl, rfl, rfl, (fun _ => show 0 < 3 by decide), (fun _ => by decide), by decide⟩, rfl, by decide⟩,
    ⟨benchShift .pRaise, _,
      ⟨rfl, rfl, rfl, rfl, rfl, (fun _ => show 0 < 3 by decide), (fun _ => by decide), by decide⟩, rfl, by decide⟩,
    ⟨benchShift .pRaise, _,
      ⟨rfl, rfl, rfl, rfl, rfl, (fun _ => show 0 < 3 by decide), (fun _ => by decide), by decide⟩, rfl, by decide⟩,
    ⟨benchShift .pRaise, _,
      ⟨rfl, rfl, rfl, rfl, rfl, (fun _ => show 0 < 3 by decide), (fun _ => by decide), by decide⟩, rfl, by decide⟩,
    ⟨{ benchIn .sEnd .tag 2 2 false [] with endReason := .badTag }, _,
      ⟨rfl, rfl, rfl, rfl, rfl, (fun h => by cases h), (fun h => by cases h), by decide⟩, rfl, by decide⟩,
    ⟨benchIn .sEnd .tag 2 2 false [], _,
      ⟨rfl, rfl, rfl, rfl, rfl, (fun h => by cases h), (fun h => by cases h), by decide⟩, rfl, by decide⟩,
    ⟨benchIn .sEnd .tag 2 2 false [], _,
      ⟨rfl, rfl, rfl, rfl, rfl, (fun h => by cases h), (fun h => by cases h), by decide⟩, rfl, by decide⟩⟩

/-- One byte missing, the boundary of the count: with bytes on the stream, and at its end. -/
theorem witness_ReadAsksTheRemainingCount :
    (∃ s : State, s.Inv ∧ s.busy = true ∧ s.dstate ≠ .sShRun ∧ s.frGot < s.frN ∧ s.link.rx ≠ []) ∧
    ∃ s : State, s.Inv ∧ s.busy = true ∧ s.dstate ≠ .sShRun ∧ s.frGot < s.frN ∧ s.link.rx = [] ∧
      s.link.rxEnd = some 0 :=
  ⟨⟨benchIn .sShHdr .hdr 8 7 true [0x00, 0x01],
      ⟨rfl, rfl, rfl, rfl, rfl, (fun _ => ⟨rfl, rfl, by decide⟩), (fun h => by cases h), by decide⟩, by decide⟩,
    benchIn .sShHdr .hdr 8 7 true [],
    ⟨rfl, rfl, rfl, rfl, rfl, (fun _ => ⟨rfl, rfl, by decide⟩), (fun h => by cases h), by decide⟩, by decide⟩

theorem witness_FailedOrUnansweredRead :
    ((benchIn .sTag .tag 2 1 true []).busy = true ∧ (benchIn .sTag .tag 2 1 true []).frGot < 2 ∧
      (benchIn .sTag .tag 2 1 true []).frN = 2 ∧ (benchIn .sTag .tag 2 1 true []).link.rx = [] ∧
      (benchIn .sTag .tag 2 1 true []).link.rxEnd = some 0) ∧
    ∃ s : State, s.busy = true ∧ s.frGot < s.frN ∧ s.link.rx = [] ∧ s.dstate = .sShTdi ∧ s.link.rxEnd = none :=
  ⟨by decide, { benchIn .sShTdi .tdiBuf 4 0 true [] with link := Link.empty }, by decide⟩

/-- A frame cut inside its tag and one cut inside its TDI vector, the stream then ending. -/
theorem witness_TruncatedFrameEndsTheSession :
    ((bench [0x67] []).dstate = .sTag ∧ (bench [0x67] []).busy = false ∧
      decode (bench [0x67] []).cfg.capacityBytes (bench [0x67] []).link.rx = .error .truncatedTag ∧
      (bench [0x67] []).link.rxEnd = some 0) ∧
    decode 2048 (frameW3.dropLast) = .error .truncatedTdi := by decide

theorem witness_UnfinishedFrameWaits : ∃ s : State, s.dstate = .sTag ∧ s.busy = false ∧
    decode s.cfg.capacityBytes s.link.rx = .error .truncatedTdi ∧ s.link.rxEnd = none :=
  ⟨{ bench [] [] with link := { Link.empty with rx := frameW3.dropLast } }, by decide⟩

/-- The last bit of the last byte. -/
theorem witness_BitWriteChangesOneBit :
    Memory.wf State.reset.cfg.capacityBytes (State.reset.buf .tdo) = true ∧
    16383 / 8 < State.reset.cfg.capacityBytes ∧ (16382 ≠ 16383 ∧ 16382 / 8 < State.reset.cfg.capacityBytes) ∧
    Buf.tms ≠ Buf.tdo := by decide

/-- The last byte, and the first that does not exist. -/
theorem witness_BufferByteAccess :
    Memory.wf State.reset.cfg.capacityBytes (State.reset.buf .tdi) = true ∧
    2047 < State.reset.cfg.capacityBytes ∧ State.reset.cfg.capacityBytes ≤ 2048 := by decide

/-- V-G1 and V-G2: disjoint sets, and sets that meet. -/
theorem witness_GpioUpdateIsAtomic :
    ({ tck := false, tms := true, tdi := false } : LineSet).disjoint { tck := true, tms := false, tdi := true } = true ∧
    ({ tck := true, tms := false, tdi := false } : LineSet).disjoint { tck := true, tms := false, tdi := false } = false
    := by decide

theorem witness_GpioReadChangesNothing :
    ({ State.reset with target := .levels [true] } : State).target = .levels (true :: []) ∧
    ({ State.reset with target := .wireLoopback } : State).target = .wireLoopback := by decide

/-- All the bits the buffers hold. -/
theorem witness_SerializerEventSequence : ∃ s : State, s.dstate = .sShRun ∧
    s.bitCnt.toNat ≤ 8 * s.cfg.capacityBytes ∧ Memory.wf s.cfg.capacityBytes s.tdoBuf = true ∧ 0 < s.bitCnt.toNat :=
  ⟨{ bench [] [] with dstate := .sShRun, bitCnt := 16384 }, by decide⟩

theorem witness_TckEdgesOfAShift : ∃ s : State, s.dstate = .sShRun ∧ s.bitCnt.toNat ≤ 8 * s.cfg.capacityBytes ∧
    s.lines.tck = true :=
  ⟨{ bench [] [] with dstate := .sShRun, bitCnt := 1, lines := { tck := true, tms := false, tdi := true } }, by decide⟩

theorem witness_SerializerRefusesAboveMaxBits :
    8 * State.reset.cfg.capacityBytes < ({ State.reset with bitCnt := 16385 } : State).bitCnt.toNat := by decide

theorem witness_StepKeepsInvariant : ∃ s t : State, s.Inv ∧ step s = .next t ∧ t ≠ s :=
  ⟨bench [0x47, 0x45] [], _, bench_inv _ _, rfl, by decide⟩

theorem witness_GoodStatesStep : (bench frameW3 [takes 1]).Inv := bench_inv _ _

theorem witness_RunsNeverFault : (bench frameW3 [takes 1]).Inv := bench_inv _ _

/-- Inside a shift that follows another, the lines not idle, before the exit update. -/
theorem witness_StepKeepsIdleOutsideShifts : ∃ s t : State, s.IdleOutsideShifts ∧ step s = .next t ∧
    s.trace.any Event.isSetClr = true ∧ t.midShift = false ∧ s.midShift = true :=
  ⟨{ bench [] [] with
      dstate := .sShRun, busy := true, sePhase := .pIdleOut, bitCnt := 0, trace := [idleEvent, idleEvent]
      lines := { tck := true, tms := true, tdi := false } }, _, (fun h => by cases h), rfl, by decide⟩

/-- An atomic action outside the serializer; and a shift, which changes the lines from their reset levels. -/
theorem witness_OnlyTheSerializerTouchesTheLines :
    (∃ t, tick (bench [] []) = .next t ∧ (bench [] []).dstate ≠ .sShRun) ∧
    ∃ s t : State, step s = .next t ∧ t.lines ≠ s.lines :=
  ⟨⟨_, rfl, by decide⟩, bench [0x73, 0x68, 0, 0, 0, 0, 0, 0, 0, 0] [], _, rfl, by decide⟩

theorem witness_ConfigurationAndTraceHistory : ∃ t, step (bench [0x47, 0x45] []) = .next t := ⟨_, rfl⟩

/-- A step that starts a session and a step that ends one. -/
theorem witness_SessionsNeverOverlap :
    (∃ s t : State, s.Inv ∧ step s = .next t ∧ t.trace = s.trace ++ [.sessionStart]) ∧
    ∃ s t : State, s.Inv ∧ step s = .next t ∧ .sessionEnd .badTag ∈ t.trace :=
  ⟨⟨{ State.reset with offers := [{ handle := 3, link := Link.empty }] }, _,
      ⟨rfl, rfl, rfl, rfl, rfl, (fun h => by cases h), (fun h => by cases h), by decide⟩, rfl, rfl⟩,
    bench [0x47, 0x45] [], _, bench_inv _ _, rfl, by decide⟩

end Sys2Proof.Tests
end

section
/-! PROOFS of 00_scope.md: the byte order of `le32` (R15, R126), and what a byte write and a bit write change of the
three buffers (R17, R71). -/

namespace Sys2Proof.Machine

/-! ### Byte order -/

/-- `le32` never wraps: four bytes fill 32 bits (R15). -/
theorem toNat_le32 (b0 b1 b2 b3 : Byte) :
    (le32 b0 b1 b2 b3).toNat = b0.toNat + 256 * b1.toNat + 65536 * b2.toNat + 16777216 * b3.toNat := by
  rw [le32, BitVec.toNat_ofNat]
  exact Nat.mod_eq_of_lt (by omega)

/-- A byte of a word is the one whose value the word's has at that place. -/
theorem extractLsb'_eq_of_toNat {v : BitVec 32} {start : Nat} {b : Byte}
    (h : v.toNat / 2 ^ start % 256 = b.toNat) : v.extractLsb' start 8 = b := by
  apply BitVec.eq_of_toNat_eq
  rw [BitVec.extractLsb'_toNat, Nat.shiftRight_eq_div_pow]
  exact h

/-- `le32bytes` takes apart what `le32` puts together; `le32_le32bytes` is the other direction. -/
theorem le32bytes_le32 (b0 b1 b2 b3 : Byte) : le32bytes (le32 b0 b1 b2 b3) = #v[b0, b1, b2, b3] := by
  have h0 : (le32 b0 b1 b2 b3).extractLsb' 0 8 = b0 := extractLsb'_eq_of_toNat (by rw [toNat_le32]; omega)
  have h1 : (le32 b0 b1 b2 b3).extractLsb' 8 8 = b1 := extractLsb'_eq_of_toNat (by rw [toNat_le32]; omega)
  have h2 : (le32 b0 b1 b2 b3).extractLsb' 16 8 = b2 := extractLsb'_eq_of_toNat (by rw [toNat_le32]; omega)
  have h3 : (le32 b0 b1 b2 b3).extractLsb' 24 8 = b3 := extractLsb'_eq_of_toNat (by rw [toNat_le32]; omega)
  simp only [le32bytes, h0, h1, h2, h3]

/-! ### Bytes and bits of the buffers -/

/-- A byte that was written is read back. -/
theorem bufRead_setBuf_write_same {b : Buf} {j : Nat} {v : Byte} {s : State}
    (hwf : Memory.wf s.cfg.capacityBytes (s.buf b) = true) (hj : j < s.cfg.capacityBytes) :
    bufRead b j (s.setBuf b (Memory.write (s.buf b) j v)) = .next v := by
  rw [bufRead_of_lt (by simpa using hj), State.buf_setBuf_same, Memory.read_write_same hwf]

/-- A byte write leaves every read at another index as it was, the faulting ones too. -/
theorem bufRead_setBuf_write_other {b : Buf} {j k : Nat} {v : Byte} {s : State}
    (hwf : Memory.wf s.cfg.capacityBytes (s.buf b) = true) (hk : k ≠ j) :
    bufRead b k (s.setBuf b (Memory.write (s.buf b) j v)) = bufRead b k s := by
  by_cases hlt : k < s.cfg.capacityBytes
  · rw [bufRead_of_lt (by simpa using hlt), bufRead_of_lt hlt, State.buf_setBuf_same,
      Memory.read_write_other hwf hk.symm]
  · rw [bufRead_of_ge (by simpa using hlt), bufRead_of_ge (Nat.le_of_not_lt hlt)]

/-- What a bit read gives after a bit write of the same buffer. -/
theorem bitRead_setBuf_writeBit {b : Buf} {i k : Nat} {level : Bool} {s : State}
    (hwf : Memory.wf s.cfg.capacityBytes (s.buf b) = true) (hk : k / 8 < s.cfg.capacityBytes) :
    bitRead b k (s.setBuf b ((s.buf b).writeBit i level)) = .next (if k = i then level else (s.buf b).bit k) := by
  rw [bitRead_of_lt (by simpa using hk), State.buf_setBuf_same, Memory.bit_writeBit hwf]

/-! ### The obligations -/

/-- Settles O8: the value does not wrap, and each byte is the word's at its place. -/
theorem le32IsLittleEndian : Obligations.Le32IsLittleEndian := fun b0 b1 b2 b3 =>
  ⟨toNat_le32 b0 b1 b2 b3, le32bytes_le32 b0 b1 b2 b3⟩

/-- Settles O41: the new contents are those of `Memory.writeBit`, which changes one bit. -/
theorem bitWriteChangesOneBit : Obligations.BitWriteChangesOneBit := by
  intro s b i level hwf hi
  refine ⟨(s.buf b).writeBit i level, bitWrite_of_lt hi, Memory.wf_writeBit hwf hi level, ?_, ?_, ?_⟩
  · rw [bitRead_setBuf_writeBit hwf hi, if_pos rfl]
  · intro j hne hj
    rw [bitRead_setBuf_writeBit hwf hj, if_neg hne, bitRead_of_lt hj]
  · exact fun c hc => State.buf_setBuf_other s _ hc

/-- Settles O42: below the capacity by the memory laws of a canonical buffer, at or above it by the range check. -/
theorem bufferByteAccess : Obligations.BufferByteAccess := by
  intro s b j v hwf
  constructor
  · intro hj
    refine ⟨_, bufWrite_of_lt hj, bufRead_setBuf_write_same hwf hj, ?_, ?_, ?_⟩
    · exact fun k hk => bufRead_setBuf_write_other hwf hk
    · exact fun c hc => State.buf_setBuf_other s _ hc
    · rw [State.buf_setBuf_same]
      exact Memory.wf_write hwf hj v
  · exact fun hj => ⟨bufWrite_of_ge hj, bufRead_of_ge hj⟩

end Sys2Proof.Machine
end

section
/-! PROOFS of 10_state.md: what one atomic action of W can do, said once (R31); from it the machine's invariant (R32,
R37, R38, R92), the dispatcher's transitions (R31), the writers of each register (R32 to R44), the configuration and the
trace (R42, R19), the reset state (R46, R270), and that the splitting of the reads does not matter (R45). -/

namespace Sys2Proof.Machine

/-! ### What one atomic action of W can do -/

/-- What one atomic action can do in a transfer of `n` bytes into `dst` (20_memory.md R80 to R85). -/
inductive TransferAction (dst : FrDst) (n : Nat) (reason : Reason) (onDone : State → State) (s : State) :
    State → Prop
  | begins (hb : s.busy = false) : TransferAction dst n reason onDone s (frStart dst n s)
  | waits (hb : s.busy = true) (hn : s.frGot < s.frN) (hrx : s.link.rx = []) (he : s.link.rxEnd = none) :
    TransferAction dst n reason onDone s s
  | fails (e : Nat) (hb : s.busy = true) (hn : s.frGot < s.frN) (hrx : s.link.rx = []) (he : s.link.rxEnd = some e) :
    TransferAction dst n reason onDone s ((s.emit (.rx (s.frN - s.frGot) (-(e : Int)) [])).raise reason)
  | reads (r : Nat) (u : State) (hb : s.busy = true) (h0 : 0 < r) (hn : s.frGot + r ≤ s.frN)
    (hrx : r ≤ s.link.rx.length) (hst : storeBytes s.frDst s.frGot (s.link.rx.take r) s = .next u) :
    TransferAction dst n reason onDone s (u.withTransfer s.frDst s.frN (s.frGot + r) s.busy
      { s.link with rx := s.link.rx.drop r, splits := s.link.splits.tail }
      (s.trace ++ [.rx (s.frN - s.frGot) r (s.link.rx.take r)]))
  | completes (hb : s.busy = true) (hn : s.frN ≤ s.frGot) : TransferAction dst n reason onDone s (onDone s)

/-- The transfer that the state of the dispatcher, and in `S_SE_ARG` the destination (R148, R149), stand for. -/
inductive TransferIn (s : State) : FrDst → Nat → Reason → (State → State) → Prop
  | tag (hd : s.dstate = .sTag) : TransferIn s .tag 2 .tagRxEnd afterTag
  | geSuffix (hd : s.dstate = .sGeSfx) : TransferIn s .sink 6 .rxFail (·.goto .sGeRsp)
  | seSuffix (hd : s.dstate = .sSeArg) (hk : s.busy = true → s.frDst = .sink) :
    TransferIn s .sink 5 .rxFail (frStart .period 4)
  | sePeriod (hd : s.dstate = .sSeArg) (hb : s.busy = true) (hk : s.frDst ≠ .sink) :
    TransferIn s .period 4 .rxFail (·.goto .sSeRsp)
  | header (hd : s.dstate = .sShHdr) : TransferIn s .hdr 8 .rxFail afterHeader
  | tms (hd : s.dstate = .sShTms) : TransferIn s .tmsBuf s.byteLen.toNat .rxFail (·.goto .sShTdi)
  | tdi (hd : s.dstate = .sShTdi) : TransferIn s .tdiBuf s.byteLen.toNat .rxFail (·.goto .sShRun)

/-- What a response write can do (20_memory.md R86 to R89), the refused answer above the request aside. -/
inductive ResponseAction (bytes : List Byte) (s : State) : State → Prop
  | skips (hb : bytes = []) : ResponseAction bytes s (s.goto .sTag)
  | waits (hb : bytes ≠ []) (hw : s.link.writes = []) : ResponseAction bytes s s
  | sent (a : WriteAnswer) (ws : List WriteAnswer) (hb : bytes ≠ []) (hw : s.link.writes = a :: ws)
    (hk : a.k = bytes.length) : ResponseAction bytes s ((s.wrote bytes a).goto .sTag)
  | failsTransport (a : WriteAnswer) (ws : List WriteAnswer) (hb : bytes ≠ []) (hw : s.link.writes = a :: ws)
    (hk : a.k ≤ 0) : ResponseAction bytes s ((s.wrote bytes a).raise .txFail)
  | failsShort (a : WriteAnswer) (ws : List WriteAnswer) (hb : bytes ≠ []) (hw : s.link.writes = a :: ws)
    (h0 : 0 < a.k) (hk : a.k < bytes.length) : ResponseAction bytes s ((s.wrote bytes a).raise .shortWrite)

/-- What one operation of the serializer can do (41_shift_engine.md R180 to R191). -/
inductive SerializerAction (s : State) : State → Prop
  | idleIn (hp : s.sePhase = .pIdleIn) : SerializerAction s { s with
      lines := Lines.idle, trace := s.trace ++ [idleEvent], seI := 0, sePhase := loopPhase s 0 }
  | drive (t d : Bool) (hp : s.sePhase = .pDrive) (ht : bitRead .tms s.seI s = .next t)
    (hd : bitRead .tdi s.seI s = .next d) : SerializerAction s { s with
      lines := { tck := false, tms := t, tdi := d }
      trace := s.trace ++ [.setClr { tck := false, tms := t, tdi := d } { tck := true, tms := !t, tdi := !d }
        { tck := false, tms := t, tdi := d }]
      sePhase := .pSample }
  | sample (hp : s.sePhase = .pSample) (hi : s.seI / 8 < s.cfg.capacityBytes) : SerializerAction s { s with
      tdoBuf := s.tdoBuf.writeBit s.seI (s.target.draw s.freeIdx s.lines.tdi).1
      target := (s.target.draw s.freeIdx s.lines.tdi).2.1
      freeIdx := (s.target.draw s.freeIdx s.lines.tdi).2.2
      trace := s.trace ++ [.sample (s.target.draw s.freeIdx s.lines.tdi).1]
      sePhase := .pRaise }
  | raise (hp : s.sePhase = .pRaise) : SerializerAction s { s with
      lines := { s.lines with tck := true }
      trace := s.trace ++ [.setClr { tck := true, tms := false, tdi := false }
        { tck := false, tms := false, tdi := false } { s.lines with tck := true }]
      seI := seIndex s.cfg (s.seI + 1)
      sePhase := loopPhase s (seIndex s.cfg (s.seI + 1)) }
  | idleOut (hp : s.sePhase = .pIdleOut) : SerializerAction s { s with
      lines := Lines.idle, trace := s.trace ++ [idleEvent], sePhase := .pDone }
  | returns (hp : s.sePhase = .pDone) : SerializerAction s (s.goto .sShRsp)

/-- Everything one atomic action of W can do, by the state of the dispatcher (R31, 40_dispatcher.md R140 to R166). -/
inductive WorkerAction (s : State) : State → Prop
  | waits (hd : s.dstate = .sWait) (ho : s.offers = []) : WorkerAction s s
  | starts (o : Offer) (rest : List Offer) (hd : s.dstate = .sWait) (ho : s.offers = o :: rest) :
    WorkerAction s ({ s with offers := rest }.startSession o)
  | transfers {dst : FrDst} {n : Nat} {reason : Reason} {onDone : State → State} {t : State}
    (hT : TransferIn s dst n reason onDone) (ht : TransferAction dst n reason onDone s t) : WorkerAction s t
  | responds {bytes : List Byte} {t : State}
    (hd : s.dstate = .sGeRsp ∧ bytes = getinfoResponse s.cfg.advertisedN ∨
      s.dstate = .sSeRsp ∧ bytes = s.period.toList)
    (ht : ResponseAction bytes s t) : WorkerAction s t
  | checks (hd : s.dstate = .sShChk) : WorkerAction s (runShChk s)
  | startsShift (hd : s.dstate = .sShRun) (hb : s.busy = false) (hn : s.bitCnt.toNat ≤ s.cfg.maxBits) :
    WorkerAction s { s with busy := true, sePhase := .pIdleIn }
  | shifts {t : State} (hd : s.dstate = .sShRun) (hb : s.busy = true) (ht : SerializerAction s t) : WorkerAction s t
  | respondsTdo {bytes : List Byte} {t : State} (hd : s.dstate = .sShRsp) (hr : tdoResponse s = .next bytes)
    (ht : ResponseAction bytes s t) : WorkerAction s (if t.dstate = .sShRsp then t else t.drewFree)
  | ends (hd : s.dstate = .sEnd) : WorkerAction s s.endSession

theorem transferAction_of_transferTick {dst : FrDst} {n : Nat} {reason : Reason} {onDone : State → State} {s t : State}
    (h : transferTick dst n reason onDone s = .next t) : TransferAction dst n reason onDone s t := by
  unfold transferTick at h
  split at h
  case isFalse hb =>
    cases h
    exact .begins (by simpa using hb)
  case isTrue hb =>
    rcases frTurn_cases s with
      ⟨hn, h1⟩ | ⟨hn, hrx, he, h1⟩ | ⟨e, hn, hrx, he, h1⟩ | ⟨r, hn, h0, hr, hrx, _, h1⟩ <;> rw [h1] at h
    · cases h
      exact .completes hb hn
    · cases h
      exact .waits hb hn hrx he
    · cases h
      exact .fails e hb hn hrx he
    · simp only [andThen_assoc, andThen_next, andThen_eq_next] at h
      obtain ⟨u, hu, h⟩ := h
      cases h
      exact .reads r u hb h0 (by omega) hrx hu

/-- `S_SE_ARG` is in the period's transfer when W is inside one that does not discard, else in the suffix's (R148). -/
theorem seArgTick_eq (s : State) : seArgTick s =
    if s.busy = true ∧ s.frDst ≠ .sink then transferTick .period 4 .rxFail (·.goto .sSeRsp) s
    else transferTick .sink 5 .rxFail (frStart .period 4) s := by
  unfold seArgTick transferTick
  by_cases hb : s.busy = true <;> by_cases hk : s.frDst = .sink <;> simp [hb, hk]

theorem responseAction_of_respWrite {bytes : List Byte} {s t : State} (h : respWrite bytes s = .next t) :
    ResponseAction bytes s t := by
  rcases respWrite_cases bytes s with ⟨hb, h1⟩ | ⟨hb, hw, h1⟩ | ⟨a, ws, hb, hw, hcase⟩
  · cases h1.symm.trans h
    exact .skips hb
  · cases h1.symm.trans h
    exact .waits hb hw
  · rcases hcase with ⟨hk, h1⟩ | ⟨hk, h1⟩ | ⟨h0, hk, h1⟩ | ⟨_, h1⟩ <;> cases h1.symm.trans h
    · exact .sent a ws hb hw hk
    · exact .failsTransport a ws hb hw hk
    · exact .failsShort a ws hb hw h0 hk

theorem serializerAction_of_seTick {s t : State} (h : seTick s = .next t) : SerializerAction s t := by
  unfold seTick at h
  split at h
  case h_1 hp =>
    cases h
    exact .idleIn hp
  case h_2 hp =>
    simp only [andThen_eq_next, driveUpdate_eq] at h
    obtain ⟨b, hb, c, hc, _, hu, h⟩ := h
    cases hu
    cases h
    exact .drive b c hp hb hc
  case h_3 hp =>
    rw [gpioRead_eq] at h
    by_cases hi : s.seI / 8 < s.cfg.capacityBytes
    · rw [bitWrite_of_lt (by exact hi)] at h
      cases h
      exact .sample hp hi
    · simp [bitWrite, bufRead, hi] at h
  case h_4 hp =>
    rw [raiseUpdate_eq] at h
    cases h
    exact .raise hp
  case h_5 hp =>
    cases h
    exact .idleOut hp
  case h_6 hp =>
    cases h
    exact .returns hp

/-- Every atomic action that answers a next state is one of `WorkerAction`. -/
theorem workerAction_of_tick {s t : State} (h : tick s = .next t) : WorkerAction s t := by
  unfold tick at h
  split at h
  case h_1 hd =>
    cases h
    unfold runWait
    split
    · exact .waits hd ‹_›
    · exact .starts _ _ hd ‹_›
  case h_2 hd => exact .transfers (.tag hd) (transferAction_of_transferTick h)
  case h_3 hd => exact .transfers (.geSuffix hd) (transferAction_of_transferTick h)
  case h_4 hd => exact .responds (.inl ⟨hd, rfl⟩) (responseAction_of_respWrite h)
  case h_5 hd =>
    rw [seArgTick_eq] at h
    split at h
    · rename_i hk
      exact .transfers (.sePeriod hd hk.1 hk.2) (transferAction_of_transferTick h)
    · rename_i hk
      exact .transfers (.seSuffix hd (by simpa using hk)) (transferAction_of_transferTick h)
  case h_6 hd => exact .responds (.inr ⟨hd, rfl⟩) (responseAction_of_respWrite h)
  case h_7 hd => exact .transfers (.header hd) (transferAction_of_transferTick h)
  case h_8 hd =>
    cases h
    exact .checks hd
  case h_9 hd => exact .transfers (.tms hd) (transferAction_of_transferTick h)
  case h_10 hd => exact .transfers (.tdi hd) (transferAction_of_transferTick h)
  case h_11 hd =>
    split at h
    · exact .shifts hd ‹_› (serializerAction_of_seTick h)
    · unfold seStart at h
      split at h <;> cases h
      exact .startsShift hd (by simpa using ‹¬s.busy = true›) ‹_›
  case h_12 hd =>
    simp only [runShRsp, andThen_eq_next] at h
    obtain ⟨bytes, hr, u, hu, h⟩ := h
    cases h
    exact .respondsTdo hd hr (responseAction_of_respWrite hu)
  case h_13 hd =>
    cases h
    exact .ends hd

/-! ### A step is a number of atomic actions -/

/-- A part of a command's path leaves W in one of the states `ds`, or outside any operation. -/
def LeavesIn (ds : List DState) (o : Result State) : Prop :=
  ∀ t, o = .next t → t.dstate ∈ ds ∨ t.busy = false

theorem LeavesIn.follow {ds : List DState} {d : DState} {run : State → Result State} {o : Result State}
    (ho : LeavesIn ds o) (hr : ∀ s t, run s = .next t → t.dstate = s.dstate ∨ t.busy = false) :
    LeavesIn (d :: ds) (follow d run o) := by
  intro t ht
  obtain ⟨u, hu, ht⟩ := andThen_eq_next.mp ht
  split at ht
  case isTrue hd =>
    rcases hr u t ht with h | h
    · exact .inl (by simp [h, hd])
    · exact .inr h
  case isFalse =>
    cases ht
    exact (ho t hu).imp_left (List.mem_cons_of_mem d)

/-- The path goes on with a state it enters outside any operation. -/
theorem Reach.followFresh {s : State} {ds : List DState} {d : DState} {run : State → Result State} {o : Result State}
    (h : Reach s o) (ho : LeavesIn ds o) (hd : d ∉ ds)
    (hr : ∀ t : State, t.dstate = d → t.busy = false → Reach t (run t)) : Reach s (Machine.follow d run o) :=
  h.follow fun t ht htd => hr t htd ((ho t ht).resolve_left (by rwa [htd]))

theorem leavesIn_runTag {s : State} (h : s.dstate = .sTag) : LeavesIn [.sTag] (runTag s) := fun t ht =>
  (transfer_busy afterTag_busy ht).imp_left fun e => by simp [e, h]

theorem runShChk_busy (s : State) : (runShChk s).busy = false := by
  unfold runShChk
  simp only
  split <;> rfl

theorem reach_runShChk {s : State} (h : s.dstate = .sShChk) : Reach s (.next (runShChk s)) := by
  have hr := Reach.tick (s := s) (by simp [h])
  rwa [show tick s = .next (runShChk s) by rw [tick, h]] at hr

theorem reach_runTag {s : State} (hd : s.dstate = .sTag) (hb : s.busy = false) : Reach s (runTag s) :=
  Reach.transfer (fun r hr _ => by rw [tick, hr]) (by decide) hd hb

/-- A command is a number of atomic actions of W, from the frame boundary with its frame on the stream (R8, R164). -/
theorem reach_exec (i : Instr) (s : State) : Reach (s.beginFrame (encode i)) (exec i s) := by
  have hTag := reach_runTag (s := s.beginFrame (encode i)) rfl rfl
  have lTag := leavesIn_runTag (s := s.beginFrame (encode i)) rfl
  cases i with
  | getinfo suffix =>
    refine .finish (.follow (.followFresh hTag lTag (by decide) fun t hd hb => ?_) fun t _ hd => ?_)
    · exact .transfer (fun r hr _ => by rw [tick, hr]) (by decide) hd hb
    · simpa [tick, hd] using Reach.tick (s := t) (by simp [hd])
  | settck suffix period =>
    refine .finish (.follow (.followFresh hTag lTag (by decide) fun t hd hb => .runSeArg hd hb) fun t _ hd => ?_)
    simpa [tick, hd] using Reach.tick (s := t) (by simp [hd])
  | shift suffix bitCount tms tdi =>
    have lHdr := lTag.follow (d := .sShHdr) fun u t (h : runShHdr u = .next t) => transfer_busy (fun _ => rfl) h
    have lChk := lHdr.follow (d := .sShChk) (run := fun u => .next (runShChk u)) fun u t h => by
      cases h; exact .inr (runShChk_busy u)
    have lTms := lChk.follow (d := .sShTms) fun u t (h : runShTms u = .next t) => transfer_busy (fun _ => rfl) h
    have lTdi := lTms.follow (d := .sShTdi) fun u t (h : runShTdi u = .next t) => transfer_busy (fun _ => rfl) h
    have hHdr := hTag.followFresh (d := .sShHdr) (run := runShHdr) lTag (by decide) fun t hd hb =>
      .transfer (fun r hr _ => by rw [tick, hr]) (by decide) hd hb
    have hChk := hHdr.follow (d := .sShChk) fun t _ hd => reach_runShChk hd
    have hTms := hChk.followFresh (d := .sShTms) (run := runShTms) lChk (by decide) fun t hd hb =>
      .transfer (fun r hr hl => by rw [tick, hr, ← hl]) (by decide) hd hb
    have hTdi := hTms.followFresh (d := .sShTdi) (run := runShTdi) lTms (by decide) fun t hd hb =>
      .transfer (fun r hr hl => by rw [tick, hr, ← hl]) (by decide) hd hb
    have hRun := hTdi.followFresh (d := .sShRun) lTdi (by decide) fun t hd hb => .runShRun hd hb
    exact .finish (hRun.follow fun t _ hd => by simpa [tick, hd] using Reach.tick (s := t) (by simp [hd]))
  | invalid tag => exact .finish hTag

/-- At the frame boundary, the frame put back before the bytes behind it changes H's side of the stream only. -/
theorem withRx_beginFrame {s : State} (hd : s.dstate = .sTag) (hb : s.busy = false) (frame rest : List Byte) :
    (s.withRx rest).beginFrame frame = { s with link := { s.link with rx := frame ++ rest } } := by
  rw [State.beginFrame, ← hd, ← hb]
  rfl

/-- A step is a number of atomic actions of W, from the same state but for H's side of the stream: where the step is a
command, its frame is put back on the stream. -/
theorem ticks_of_step {s t : State} (h : step s = .next t) : ∃ k l, ticks k { s with link := l } = .next t := by
  unfold step at h
  split at h
  case h_1 i rest hf =>
    unfold frameAt State.atFrameBoundary at hf
    split at hf
    case isFalse => cases hf
    case isTrue hb =>
      simp only [Bool.and_eq_true, decide_eq_true_eq, Bool.not_eq_true'] at hb
      obtain ⟨k, hk, _⟩ := reach_exec i (s.withRx rest)
      rw [withRx_beginFrame hb.1 hb.2] at hk
      exact ⟨k, _, hk.trans h⟩
  case h_2 => exact ⟨1, s.link, (ticks_one s).trans h⟩

/-- What every atomic action keeps, every number of them keeps. -/
theorem ticks_keep {P : State → Prop} (hP : ∀ s t, P s → WorkerAction s t → P t) :
    ∀ {k : Nat} {s t : State}, P s → ticks k s = .next t → P t
  | 0, _, _, hs, h => by cases h; exact hs
  | k + 1, _, _, hs, h => by
    obtain ⟨u, hu, h⟩ := andThen_eq_next.mp h
    exact ticks_keep hP (hP _ u hs (workerAction_of_tick hu)) h

/-- A property that every atomic action keeps and that does not depend on H's side of the stream, every step keeps. -/
theorem step_keeps {P : State → Prop} (hP : ∀ s t, P s → WorkerAction s t → P t) {s t : State}
    (hs : ∀ l, P { s with link := l }) (h : step s = .next t) : P t := by
  obtain ⟨k, l, hk⟩ := ticks_of_step h
  exact ticks_keep hP (hs l) hk

/-! ### The stores of a transfer write their destination only -/

/-- The register or buffer a byte does not go to keeps its contents (R80). -/
theorem storeByte_writes {dst : FrDst} {j : Nat} {v : Byte} {s t : State} (h : storeByte dst j v s = .next t) :
    (dst ≠ .tag → t.tag = s.tag) ∧ (dst ≠ .period → t.period = s.period) ∧ (dst ≠ .hdr → t.hdr = s.hdr) ∧
    (dst ≠ .tmsBuf → t.tmsBuf = s.tmsBuf) ∧ (dst ≠ .tdiBuf → t.tdiBuf = s.tdiBuf) := by
  cases dst <;> simp only [storeByte, bufWrite] at h
  case sink => cases h; simp
  all_goals
    split at h <;> cases h
    simp [State.setBuf]

theorem storeBytes_writes {dst : FrDst} : ∀ {bs : List Byte} {j : Nat} {s t : State}, storeBytes dst j bs s = .next t →
    (dst ≠ .tag → t.tag = s.tag) ∧ (dst ≠ .period → t.period = s.period) ∧ (dst ≠ .hdr → t.hdr = s.hdr) ∧
    (dst ≠ .tmsBuf → t.tmsBuf = s.tmsBuf) ∧ (dst ≠ .tdiBuf → t.tdiBuf = s.tdiBuf)
  | [], _, _, _, h => by cases h; simp
  | v :: vs, j, s, t, h => by
    obtain ⟨u, hu, h⟩ := andThen_eq_next.mp h
    obtain ⟨a1, a2, a3, a4, a5⟩ := storeByte_writes hu
    obtain ⟨b1, b2, b3, b4, b5⟩ := storeBytes_writes h
    exact ⟨fun n => (b1 n).trans (a1 n), fun n => (b2 n).trans (a2 n), fun n => (b3 n).trans (a3 n),
      fun n => (b4 n).trans (a4 n), fun n => (b5 n).trans (a5 n)⟩

/-! ### The transitions of the dispatcher -/

theorem afterTag_dstate (s : State) : (afterTag s).dstate ∈ [.sGeSfx, .sSeArg, .sShHdr, DState.sEnd] := by
  unfold afterTag
  split <;> simp

theorem runShChk_dstate (s : State) : (runShChk s).dstate = .sShTms ∨ (runShChk s).dstate = .sEnd := by
  unfold runShChk
  simp only
  split <;> simp

/-- An action in a transfer stays, terminates, or hands over to what follows the transfer. -/
theorem TransferAction.dstate_cases {dst : FrDst} {n : Nat} {reason : Reason} {onDone : State → State} {s t : State}
    (h : TransferAction dst n reason onDone s t) : t.dstate = s.dstate ∨ t.dstate = .sEnd ∨ t = onDone s := by
  cases h with
  | begins => exact .inl rfl
  | waits => exact .inl rfl
  | fails => exact .inr (.inl rfl)
  | reads r u _ _ _ _ hst =>
    have := storeBytes_keeps hst
    exact .inl (by rw [this]; rfl)
  | completes => exact .inr (.inr rfl)

theorem ResponseAction.dstate_cases {bytes : List Byte} {s t : State} (h : ResponseAction bytes s t) :
    t.dstate = s.dstate ∨ t.dstate = .sTag ∨ t.dstate = .sEnd := by
  cases h <;> simp

theorem SerializerAction.dstate_cases {s t : State} (h : SerializerAction s t) :
    t.dstate = s.dstate ∨ t.dstate = .sShRsp := by
  cases h <;> simp

/-- Settles O33: a transfer stays, terminates or goes to what follows it; the other states go by their own lemma. -/
theorem dispatcherTransitions : Obligations.DispatcherTransitions := by
  intro s t h
  cases workerAction_of_tick h with
  | waits => exact .inl rfl
  | starts o rest hd => simp [hd]
  | transfers hT ht =>
    rcases ht.dstate_cases with h | h | rfl
    · exact .inl h
    · cases hT <;> simp [*]
    · cases hT with
      | tag hd => exact .inr (by simpa [hd] using afterTag_dstate s)
      | seSuffix => exact .inl rfl
      | _ => simp [afterHeader, *]
  | responds hd ht => rcases ht.dstate_cases with h | h | h <;> rcases hd with ⟨hd, _⟩ | ⟨hd, _⟩ <;> simp [h, hd]
  | checks hd => rcases runShChk_dstate s with h | h <;> simp [h, hd]
  | startsShift => exact .inl rfl
  | shifts hd _ ht => rcases ht.dstate_cases with h | h <;> simp [h, hd]
  | @respondsTdo _ u hd _ ht =>
    rcases ht.dstate_cases with h | h | h <;> simp [h, hd]
  | ends hd => simp [hd]

/-! ### The invariant -/

/-- A change outside what the invariant speaks of keeps it. -/
theorem State.Inv.congr {s t : State} (h : s.Inv) (e : t = { s with
    tag := t.tag, period := t.period, hdr := t.hdr, lines := t.lines, lastReason := t.lastReason
    endReason := t.endReason, offers := t.offers, link := t.link, target := t.target, freeIdx := t.freeIdx
    trace := t.trace }) : t.Inv := by
  rw [e]
  exact ⟨h.tmsWf, h.tdiWf, h.tdoWf, h.session, h.streamHeld, h.busyFits, h.lengthChecked, h.indexFits⟩

/-- Staying in the state keeps the invariant, if the registers of the operation W is inside of fit. -/
theorem State.Inv.stays {s t : State} (h : s.Inv) (e : t = { s with
    busy := t.busy, frDst := t.frDst, frN := t.frN, frGot := t.frGot, seI := t.seI, sePhase := t.sePhase
    lines := t.lines, trace := t.trace }) (hf : t.busy = true → t.BusyFits) (hi : t.seI < 2 ^ s.cfg.seIBits) :
    t.Inv where
  tmsWf := by rw [e]; exact h.tmsWf
  tdiWf := by rw [e]; exact h.tdiWf
  tdoWf := by rw [e]; exact h.tdoWf
  session := by rw [e]; exact h.session
  streamHeld := by rw [e]; exact h.streamHeld
  busyFits := hf
  lengthChecked := by rw [e]; exact h.lengthChecked
  indexFits := by
    have : t.cfg = s.cfg := by rw [e]
    rwa [this]

/-- Going to another state of a session, outside any operation, keeps the invariant, if the byte length is checked where
that state asks for it. -/
theorem State.Inv.leaves {s t : State} (h : s.Inv) (e : t = { s with
    dstate := t.dstate, busy := t.busy, bitCnt := t.bitCnt, byteLen := t.byteLen, endReason := t.endReason
    link := t.link, trace := t.trace }) (hs : s.dstate ≠ .sWait) (ht : t.dstate ≠ .sWait) (hb : t.busy = false)
    (hl : t.dstate.afterCheck = true →
      t.byteLen.toNat = ceilDiv8 t.bitCnt.toNat ∧ t.byteLen.toNat ≤ t.cfg.capacityBytes) : t.Inv where
  tmsWf := by rw [e]; exact h.tmsWf
  tdiWf := by rw [e]; exact h.tdiWf
  tdoWf := by rw [e]; exact h.tdoWf
  session := by
    have : t.sessActive = s.sessActive := by rw [e]
    rw [this, h.session]
    simp [hs, ht]
  streamHeld := by rw [e]; exact h.streamHeld
  busyFits := by simp [hb]
  lengthChecked := hl
  indexFits := by rw [e]; exact h.indexFits

theorem State.Inv.goto {s : State} (h : s.Inv) {d : DState} (hs : s.dstate ≠ .sWait) (hd : d ≠ .sWait)
    (hl : d.afterCheck = true → s.dstate.afterCheck = true) : (s.goto d).Inv :=
  h.leaves rfl hs hd rfl fun hc => h.lengthChecked (hl hc)

/-- Going to a state that asks for no byte length. -/
theorem State.Inv.gotoUnchecked {s : State} (h : s.Inv) {d : DState} (hs : s.dstate ≠ .sWait)
    (hd : d ≠ .sWait := by decide) (hc : d.afterCheck = false := by rfl) : (s.goto d).Inv :=
  h.goto hs hd (by simp [hc])

theorem State.Inv.raise {s : State} (h : s.Inv) (hs : s.dstate ≠ .sWait) (r : Reason) : (s.raise r).Inv :=
  h.leaves rfl hs (by simp) rfl (by simp [DState.afterCheck])

theorem State.Inv.emit {s : State} (h : s.Inv) (e : Event) : (s.emit e).Inv := h.congr rfl

theorem State.Inv.afterTag {s : State} (h : s.Inv) (hs : s.dstate ≠ .sWait) : (afterTag s).Inv := by
  unfold Machine.afterTag
  split
  · exact h.gotoUnchecked hs
  · exact h.gotoUnchecked hs
  · exact h.gotoUnchecked hs
  · exact h.raise hs _

theorem State.Inv.runShChk {s : State} (h : s.Inv) (hs : s.dstate ≠ .sWait) : (runShChk s).Inv := by
  by_cases hc : ceilDiv8 s.bitCnt.toNat ≤ s.cfg.capacityBytes
  · rw [runShChk_fits hc]
    exact h.leaves rfl hs (by simp) rfl fun _ => ⟨byteLen_exact _, (byteLen_exact _).trans_le hc⟩
  · rw [runShChk_oversize (Nat.lt_of_not_le hc)]
    exact h.leaves rfl hs (by simp) rfl (by simp [DState.afterCheck])

section

variable {dst : FrDst} {n : Nat} {reason : Reason} {onDone : State → State}

theorem TransferIn.dstate_ne_wait {s : State} (hT : TransferIn s dst n reason onDone) : s.dstate ≠ .sWait := by
  cases hT <;> simp [*]

/-- The registers of the transfer W's state stands for make the state fit. -/
theorem TransferIn.busyFits {s t : State} (hT : TransferIn s dst n reason onDone) (hd : t.dstate = s.dstate)
    (hl : t.byteLen = s.byteLen) (h1 : t.frDst = dst) (h2 : t.frN = n) (h3 : t.frGot ≤ t.frN) : t.BusyFits := by
  rw [h2] at h3
  unfold State.BusyFits
  rw [hd]
  cases hT <;> simp [*]

/-- In a good state inside a transfer, the registers are those of the transfer W's state stands for. -/
theorem TransferIn.registers {s : State} (hT : TransferIn s dst n reason onDone) (h : s.Inv) (hb : s.busy = true) :
    s.frDst = dst ∧ s.frN = n ∧ s.frGot ≤ s.frN := by
  have hf := h.busyFits hb
  unfold State.BusyFits at hf
  cases hT with
  | seSuffix hd hk =>
    simp only [hd, hk hb] at hf
    simpa [hk hb] using hf
  | sePeriod hd _ hk =>
    simp only [hd, hk] at hf
    simpa [and_assoc] using hf
  | _ hd => simpa only [hd] using hf

/-- In a good state the transfer's bytes fit its destination. -/
theorem TransferIn.fits {s : State} (hT : TransferIn s dst n reason onDone) (h : s.Inv) : FitsDst dst n s := by
  cases hT with
  | tms hd => exact (h.lengthChecked (by rw [hd]; rfl)).2
  | tdi hd => exact (h.lengthChecked (by rw [hd]; rfl)).2
  | _ => simp [FitsDst]

theorem TransferIn.inv_frStart {s : State} (hT : TransferIn s dst n reason onDone) (h : s.Inv) :
    (frStart dst n s).Inv :=
  h.stays rfl (fun _ => hT.busyFits rfl rfl rfl rfl (Nat.zero_le n)) h.indexFits

theorem TransferIn.inv_onDone {s : State} (hT : TransferIn s dst n reason onDone) (h : s.Inv) : (onDone s).Inv := by
  have hw := hT.dstate_ne_wait
  cases hT with
  | tag => exact h.afterTag hw
  | geSuffix => exact h.gotoUnchecked hw
  | seSuffix hd => exact h.stays rfl (fun _ => by simp [State.BusyFits, hd]) h.indexFits
  | sePeriod => exact h.gotoUnchecked hw
  | header => exact h.leaves rfl hw (by simp [afterHeader]) rfl (by simp [afterHeader, DState.afterCheck])
  | tms hd => exact h.goto hw (by decide) (by rw [hd]; exact id)
  | tdi hd => exact h.goto hw (by decide) (by rw [hd]; exact id)

theorem TransferAction.keeps_inv {s t : State} (h : TransferAction dst n reason onDone s t)
    (hT : TransferIn s dst n reason onDone) (hs : s.Inv) : t.Inv := by
  cases h with
  | begins => exact hT.inv_frStart hs
  | waits => exact hs
  | fails => exact (hs.emit _).raise hT.dstate_ne_wait _
  | completes => exact hT.inv_onDone hs
  | reads r u hb _ hn hrx hst =>
    obtain ⟨hdst, hN, _⟩ := hT.registers hs hb
    have hfits : FitsDst s.frDst (s.frGot + (s.link.rx.take r).length) s := by
      have := hT.fits hs
      rw [List.length_take, Nat.min_eq_left hrx, hdst]
      cases dst <;> simp only [FitsDst] at this ⊢ <;> omega
    obtain ⟨_, hu, wfTms, wfTdi⟩ := storeBytes_fits hfits
    cases hst.symm.trans hu
    have hk := storeBytes_keeps hst
    have hc : u.cfg = s.cfg := by rw [hk]
    refine ⟨?_, ?_, ?_, ?_, ?_, fun _ => ?_, ?_, ?_⟩
    · exact (congrArg (fun c : Config => Memory.wf c.capacityBytes u.tmsBuf) hc).trans (wfTms hs.tmsWf)
    · exact (congrArg (fun c : Config => Memory.wf c.capacityBytes u.tdiBuf) hc).trans (wfTdi hs.tdiWf)
    · rw [hk]; exact hs.tdoWf
    · rw [hk]; exact hs.session
    · rw [hk]; exact hs.streamHeld
    · exact hT.busyFits (by rw [hk]; rfl) (by rw [hk]; rfl) hdst hN hn
    · rw [hk]; exact hs.lengthChecked
    · rw [hk]; exact hs.indexFits

end

theorem ResponseAction.keeps_inv {bytes : List Byte} {s t : State} (h : ResponseAction bytes s t)
    (hw : s.dstate ≠ .sWait) (hs : s.Inv) : t.Inv := by
  have wrote : ∀ a, (s.wrote bytes a).Inv := fun a => hs.congr rfl
  cases h with
  | skips => exact hs.gotoUnchecked hw
  | waits => exact hs
  | sent a => exact (wrote a).gotoUnchecked hw
  | failsTransport a => exact (wrote a).raise hw _
  | failsShort a => exact (wrote a).raise hw _

/-- A shift whose byte length was checked has at most `MAX_BITS` bits (R9, R155). -/
theorem bitCnt_le_maxBits {s : State} (hs : s.Inv) (hd : s.dstate.afterCheck = true) :
    s.bitCnt.toNat ≤ s.cfg.maxBits := by
  obtain ⟨hlen, hcap⟩ := hs.lengthChecked hd
  unfold ceilDiv8 at hlen
  unfold Config.maxBits
  omega

/-- What fits at the loop test, at an index up to the bound (R182). -/
theorem busyFits_loopPhase {s t : State} (hd : t.dstate = .sShRun) (hn : t.bitCnt = s.bitCnt)
    (hp : t.sePhase = loopPhase s t.seI) (hi : t.seI ≤ s.bitCnt.toNat) : t.BusyFits := by
  by_cases hlt : t.seI < s.bitCnt.toNat
  · have : t.sePhase = .pDrive := hp.trans (if_pos hlt)
    simpa [State.BusyFits, hd, this, hn] using hlt
  · have : t.sePhase = .pIdleOut := hp.trans (if_neg hlt)
    simp [State.BusyFits, hd, this, hn]
    omega

theorem SerializerAction.keeps_inv {s t : State} (h : SerializerAction s t) (hd : s.dstate = .sShRun)
    (hb : s.busy = true) (hs : s.Inv) : t.Inv := by
  have hf := hs.busyFits hb
  have hmax := bitCnt_le_maxBits hs (by rw [hd]; rfl)
  simp only [State.BusyFits, hd] at hf
  cases h with
  | idleIn hp =>
    exact hs.stays rfl (fun _ => busyFits_loopPhase (s := s) hd rfl rfl (Nat.zero_le _)) (Nat.two_pow_pos _)
  | drive t d hp => exact hs.stays rfl (fun _ => by simpa [State.BusyFits, hd, hp] using hf) hs.indexFits
  | sample hp hi =>
    exact ⟨hs.tmsWf, hs.tdiWf, Memory.wf_writeBit hs.tdoWf hi _, hs.session, hs.streamHeld,
      fun _ => by simpa [State.BusyFits, hd, hp] using hf, hs.lengthChecked, hs.indexFits⟩
  | raise hp =>
    have hi : s.seI < s.bitCnt.toNat := by simpa [hp] using hf
    refine hs.stays rfl (fun _ => busyFits_loopPhase (s := s) hd rfl rfl ?_) (seIndex_lt _ _)
    exact (seIndex_of_le (show s.seI + 1 ≤ s.cfg.maxBits by omega)).trans_le hi
  | idleOut hp => exact hs.stays rfl (fun _ => by simpa [State.BusyFits, hd, hp] using hf) hs.indexFits
  | returns => exact hs.goto (by simp [hd]) (by decide) (by rw [hd]; exact id)

/-- Every atomic action keeps the invariant. -/
theorem WorkerAction.keeps_inv {s t : State} (hs : s.Inv) (h : WorkerAction s t) : t.Inv := by
  cases h with
  | waits => exact hs
  | starts o rest hd =>
    exact ⟨hs.tmsWf, hs.tdiWf, hs.tdoWf, rfl, rfl, (by intro h; cases h), (by intro h; cases h), hs.indexFits⟩
  | transfers hT ht => exact ht.keeps_inv hT hs
  | responds hd ht => exact ht.keeps_inv (by rcases hd with ⟨hd, _⟩ | ⟨hd, _⟩ <;> simp [hd]) hs
  | checks hd => exact hs.runShChk (by simp [hd])
  | startsShift hd => exact hs.stays rfl (fun _ => by simp [State.BusyFits, hd]) hs.indexFits
  | shifts hd hb ht => exact ht.keeps_inv hd hb hs
  | respondsTdo hd _ ht =>
    have ht := ht.keeps_inv (by simp [hd]) hs
    split
    · exact ht
    · exact ht.congr rfl
  | ends =>
    exact ⟨hs.tmsWf, hs.tdiWf, hs.tdoWf, rfl, rfl, (by intro h; cases h), (by intro h; cases h), hs.indexFits⟩

/-- Settles O49: every atomic action keeps the invariant, and a step is a number of them. -/
theorem stepKeepsInvariant : Obligations.StepKeepsInvariant := fun _ _ hs h =>
  step_keeps (fun _ _ => WorkerAction.keeps_inv) (fun _ => hs.congr rfl) h

/-! ### The writers of the registers -/

/-- What an action in a transfer writes, what follows the transfer aside: its destination, the Frame Reader's registers,
the control point and the stream side. -/
theorem TransferAction.writes {s t : State} {dst : FrDst} {n : Nat} {reason : Reason} {onDone : State → State}
    (h : TransferAction dst n reason onDone s t) (hdst : s.busy = true → s.frDst = dst) :
    t = onDone s ∨ t = { s with
      dstate := t.dstate, busy := t.busy, frDst := t.frDst, frN := t.frN, frGot := t.frGot, endReason := t.endReason
      link := t.link, trace := t.trace
      tag := if dst = .tag then t.tag else s.tag
      period := if dst = .period then t.period else s.period
      hdr := if dst = .hdr then t.hdr else s.hdr
      tmsBuf := if dst = .tmsBuf then t.tmsBuf else s.tmsBuf
      tdiBuf := if dst = .tdiBuf then t.tdiBuf else s.tdiBuf } := by
  cases h with
  | completes => exact .inl rfl
  | begins => right; simp [frStart]
  | waits => right; simp
  | fails => right; simp [State.raise, State.goto, State.emit]
  | reads r u hb _ _ _ hst =>
    rw [hdst hb] at hst
    obtain ⟨h1, h2, h3, h4, h5⟩ := storeBytes_writes hst
    right
    rw [storeBytes_keeps hst]
    simp only [State.withTransfer, State.mk.injEq, true_and, and_true]
    refine ⟨?_, ?_, ?_, ?_, ?_⟩ <;> split <;> simp_all

theorem afterTag_keeps (s : State) : afterTag s = { s with
    dstate := (afterTag s).dstate, busy := false, endReason := (afterTag s).endReason } := by
  unfold afterTag
  split <;> rfl

theorem runShChk_keeps (s : State) : runShChk s = { s with
    dstate := (runShChk s).dstate, busy := false, endReason := (runShChk s).endReason
    byteLen := (runShChk s).byteLen } := by
  unfold runShChk
  simp only
  split <;> rfl

/-- A response writes no register and no buffer. -/
theorem ResponseAction.keeps {bytes : List Byte} {s t : State} (h : ResponseAction bytes s t) : t = { s with
    dstate := t.dstate, busy := t.busy, endReason := t.endReason, link := t.link, trace := t.trace } := by
  cases h <;> rfl

/-- The serializer writes its own registers, the lines and `TDO_BUF`. -/
theorem SerializerAction.keeps {s t : State} (h : SerializerAction s t) : t = { s with
    dstate := t.dstate, busy := t.busy, lines := t.lines, tdoBuf := t.tdoBuf, seI := t.seI, sePhase := t.sePhase
    target := t.target, freeIdx := t.freeIdx, trace := t.trace } := by
  cases h <;> rfl

/-- Settles O35: each action writes what the lemma of its kind lists, and a transfer's destination is its state's. -/
theorem registersAreWrittenInTheirStates : Obligations.RegistersAreWrittenInTheirStates := by
  intro s t hs h
  cases workerAction_of_tick h with
  | waits => simp
  | starts o rest hd => simp [hd]
  | transfers hT ht =>
    rcases ht.writes fun hb => (hT.registers hs hb).1 with rfl | e
    · cases hT with
      | tag hd => rw [afterTag_keeps]; simp
      | header hd => simp [afterHeader, hd]
      | seSuffix hd => simp [hd]
      | _ => simp
    · rw [e]
      cases hT with
      | _ hd => simp [hd]
  | responds _ ht => rw [ht.keeps]; simp
  | checks hd => rw [runShChk_keeps]; simp [hd]
  | startsShift hd => simp [hd]
  | shifts hd _ ht => rw [ht.keeps]; simp [hd]
  | respondsTdo _ _ ht => split <;> rw [ht.keeps] <;> simp
  | ends hd => simp [hd]

/-! ### The configuration and the trace -/

/-- Nothing an atomic action does touches the configuration, and its events follow the old ones. -/
theorem WorkerAction.keeps_history {s t : State} (h : WorkerAction s t) : t.cfg = s.cfg ∧ s.trace <+: t.trace := by
  cases h with
  | waits => simp
  | starts => simp
  | transfers hT ht =>
    cases ht with
    | begins => simp
    | waits => simp
    | fails => simp
    | reads r u _ _ _ _ hst => rw [storeBytes_keeps hst]; simp [State.withTransfer]
    | completes =>
      cases hT with
      | tag => rw [afterTag_keeps]; simp
      | header => simp [afterHeader]
      | _ => simp
  | responds _ ht => cases ht <;> simp
  | checks => rw [runShChk_keeps]; simp
  | startsShift => simp
  | shifts _ _ ht => cases ht <;> simp
  | respondsTdo _ _ ht => split <;> cases ht <;> simp
  | ends => simp

/-- Settles O54: every atomic action keeps the configuration and extends the trace, and so does a number of them. -/
theorem configurationAndTraceHistory : Obligations.ConfigurationAndTraceHistory := by
  intro s t h
  refine step_keeps (P := fun u => u.cfg = s.cfg ∧ s.trace <+: u.trace) ?_ (fun _ => ⟨rfl, List.prefix_rfl⟩) h
  intro u v hu hv
  obtain ⟨hcfg, htrace⟩ := hv.keeps_history
  exact ⟨hcfg.trans hu.1, hu.2.trans htrace⟩

/-! ### The reset state -/

/-- In `S_WAIT` no frame can stand at the boundary, so the step is the action of that state. -/
theorem step_of_sWait {s : State} (h : s.dstate = .sWait) : step s = .next (runWait s) := by
  simp [step, frameAt, State.atFrameBoundary, tick, h]

/-- Settles O1: the reset's own lemmas, and `S_WAIT` with and without an offer. -/
theorem resetWaitsForASession : Obligations.ResetWaitsForASession := by
  refine ⟨rfl, fun s => ⟨rfl, rfl, rfl, rfl, rfl, rfl, rfl, fun b => by cases b <;> rfl, fun ho => ?_,
    fun o rest ho => ⟨_, step_of_sWait rfl, ?_⟩⟩⟩
  · rw [step_of_sWait rfl, runWait, show s.hardReset.offers = [] from ho]
  · rw [runWait, show s.hardReset.offers = o :: rest from ho]
    simp

/-- A reset machine is good if its buffers are canonical: no session, no operation, `SE_I` at 0. -/
theorem inv_hardReset {s : State} (h : ∀ b, Memory.wf s.cfg.capacityBytes (s.buf b) = true) : s.hardReset.Inv where
  tmsWf := h .tms
  tdiWf := h .tdi
  tdoWf := h .tdo
  session := rfl
  streamHeld := rfl
  busyFits := by simp
  lengthChecked := by simp [DState.afterCheck]
  indexFits := Nat.two_pow_pos _

/-- After a reset no line has been driven in the trace. -/
theorem idleOutsideShifts_hardReset (s : State) : s.hardReset.IdleOutsideShifts := by
  simp [State.IdleOutsideShifts]

/-- Settles O2: the machine at power-on is itself reset, with empty buffers. -/
theorem resetMeetsInvariant : Obligations.ResetMeetsInvariant :=
  ⟨inv_hardReset (s := State.reset) (by intro b; cases b <;> rfl), idleOutsideShifts_hardReset State.reset,
    fun s => ⟨idleOutsideShifts_hardReset s, inv_hardReset⟩⟩

/-! ### How H splits the reads does not matter -/

/-- Two traces that differ in their read events only, and these return the same bytes. -/
def ReadsAlike (x y : List Event) : Prop :=
  y.filter (fun e => !e.isRx) = x.filter (fun e => !e.isRx) ∧ y.flatMap Event.rxData = x.flatMap Event.rxData

theorem ReadsAlike.refl (x : List Event) : ReadsAlike x x := ⟨rfl, rfl⟩

theorem ReadsAlike.append {x y x' y' : List Event} (h : ReadsAlike x y) (h' : ReadsAlike x' y') :
    ReadsAlike (x ++ x') (y ++ y') := by
  obtain ⟨hf, hd⟩ := h
  obtain ⟨hf', hd'⟩ := h'
  simp [ReadsAlike, hf, hd, hf', hd']

theorem Receives.filter_not_isRx {evs : List Event} {bytes : List Byte} (h : Receives evs bytes) :
    evs.filter (fun e => !e.isRx) = [] := by
  rw [List.filter_eq_nil_iff]
  intro e he
  have := h.allReads e he
  cases e <;> simp_all [Event.isRead, Event.isRx]

/-- Reads that received the same bytes, after the same events, are alike. -/
theorem ReadsAlike.of_receives {x y before : List Event} {bytes : List Byte} (hx : Receives x bytes)
    (hy : Receives y bytes) : ReadsAlike (before ++ x) (before ++ y) :=
  (ReadsAlike.refl before).append
    ⟨by rw [hx.filter_not_isRx, hy.filter_not_isRx], by rw [hx.bytesAre, hy.bytesAre]⟩

/-- The state with the splits of the reads to come and the trace replaced. -/
def State.resplit (s : State) (splits : List Nat) (tr : List Event) : State :=
  { s with link := { s.link with splits := splits }, trace := tr }

/-- Two states that differ only in the splits of the reads to come and in the read events of the trace. -/
def SameButReads (s u : State) : Prop := ∃ splits tr, u = s.resplit splits tr ∧ ReadsAlike s.trace tr

theorem SameButReads.dstate_eq {s u : State} (h : SameButReads s u) : u.dstate = s.dstate := by
  obtain ⟨_, _, rfl, _⟩ := h
  rfl

/-- Two answers alike: the same refusal, or states that differ in the reads only. -/
def SameAnswer (o p : Result State) : Prop :=
  (∃ s u, o = .next s ∧ p = .next u ∧ SameButReads s u) ∨ ∃ r, o = .refused r ∧ p = .refused r

theorem SameButReads.sameAnswer {s u : State} (h : SameButReads s u) : SameAnswer (.next s) (.next u) :=
  .inl ⟨s, u, rfl, rfl, h⟩

theorem SameAnswer.of_next {o p : Result State} {s u : State} (ho : o = .next s) (hp : p = .next u)
    (hu : u = s.resplit u.link.splits u.trace) (htr : ReadsAlike s.trace u.trace) : SameAnswer o p :=
  .inl ⟨s, u, ho, hp, _, _, hu, htr⟩

theorem SameAnswer.bind {o p : Result State} {f : State → Result State} (h : SameAnswer o p)
    (hf : ∀ s u, o = .next s → SameButReads s u → SameAnswer (f s) (f u)) :
    SameAnswer (andThen o f) (andThen p f) := by
  rcases h with ⟨s, u, rfl, rfl, hsu⟩ | ⟨r, rfl, rfl⟩
  · exact hf s u rfl hsu
  · exact .inr ⟨r, rfl, rfl⟩

theorem SameAnswer.follow {o p : Result State} {d : DState} {run : State → Result State} (h : SameAnswer o p)
    (hr : ∀ s u, o = .next s → s.dstate = d → SameButReads s u → SameAnswer (run s) (run u)) :
    SameAnswer (follow d run o) (follow d run p) :=
  h.bind fun s u ho hsu => by
    rw [hsu.dstate_eq]
    split
    · exact hr s u ho ‹_› hsu
    · exact hsu.sameAnswer

theorem SameAnswer.finish {o p : Result State} (h : SameAnswer o p) :
    SameAnswer (andThen o finish) (andThen p finish) :=
  h.bind fun s u _ hsu => by
    unfold Machine.finish
    rw [hsu.dstate_eq]
    split
    · obtain ⟨splits, tr, rfl, htr⟩ := hsu
      exact SameButReads.sameAnswer ⟨splits, _, rfl, htr.append (.refl _)⟩
    · exact hsu.sameAnswer

/-- A response write reads H's answers, which the splits are no part of. -/
theorem SameButReads.respWrite {s u : State} (h : SameButReads s u) (bytes : List Byte) :
    SameAnswer (respWrite bytes s) (respWrite bytes u) := by
  obtain ⟨splits, tr, rfl, htr⟩ := h
  rcases respWrite_cases bytes s with ⟨rfl, _⟩ | ⟨hb, hw, h1⟩ | ⟨a, ws, hb, hw, hcase⟩
  · exact SameButReads.sameAnswer ⟨splits, tr, rfl, htr⟩
  · rw [h1, respWrite_waits (s := s.resplit splits tr) hb hw]
    exact SameButReads.sameAnswer ⟨splits, tr, rfl, htr⟩
  · have wrote : ReadsAlike (s.wrote bytes a).trace (tr ++ [.tx bytes a.k]) := htr.append (.refl _)
    rcases hcase with ⟨hk, h1⟩ | ⟨hk, h1⟩ | ⟨h0, hk, h1⟩ | ⟨hk, h1⟩ <;> rw [h1]
    · rw [respWrite_ok (s := s.resplit splits tr) hb hw hk]
      exact SameButReads.sameAnswer ⟨splits, _, rfl, wrote⟩
    · rw [respWrite_failTransport (s := s.resplit splits tr) hb hw hk]
      exact SameButReads.sameAnswer ⟨splits, _, rfl, wrote⟩
    · rw [respWrite_failShort (s := s.resplit splits tr) hb hw h0 hk]
      exact SameButReads.sameAnswer ⟨splits, _, rfl, wrote⟩
    · rw [respWrite_outOfRange (s := s.resplit splits tr) hb hw hk]
      exact .inr ⟨_, rfl, rfl⟩

theorem SameButReads.runGeRsp {s u : State} (h : SameButReads s u) : SameAnswer (runGeRsp s) (runGeRsp u) := by
  have hcfg : u.cfg = s.cfg := by obtain ⟨_, _, rfl, _⟩ := h; rfl
  rw [Machine.runGeRsp, Machine.runGeRsp, hcfg]
  exact h.respWrite _

theorem SameButReads.runSeRsp {s u : State} (h : SameButReads s u) : SameAnswer (runSeRsp s) (runSeRsp u) := by
  have hperiod : u.period = s.period := by obtain ⟨_, _, rfl, _⟩ := h; rfl
  rw [Machine.runSeRsp, Machine.runSeRsp, hperiod]
  exact h.respWrite _

theorem SameButReads.runShRsp {s u : State} (h : SameButReads s u) (hcap : s.byteLen.toNat ≤ s.cfg.capacityBytes) :
    SameAnswer (runShRsp s) (runShRsp u) := by
  have htdo : tdoResponse u = tdoResponse s := by
    obtain ⟨_, _, rfl, _⟩ := h
    rw [tdoResponse_eq hcap, tdoResponse_eq (by exact hcap)]
    rfl
  rw [Machine.runShRsp, Machine.runShRsp, htdo, tdoResponse_eq hcap]
  refine (h.respWrite _).bind fun s u _ hsu => ?_
  rw [hsu.dstate_eq]
  split
  · exact hsu.sameAnswer
  · obtain ⟨splits, tr, rfl, htr⟩ := hsu
    exact SameButReads.sameAnswer ⟨splits, tr, rfl, htr⟩

/-! ### The paths that end in a termination -/

/-- A tag that passes the check of an invalid frame selects no command (30_encoding.md R117). -/
theorem commandOfTag_of_invalid {tag : Vector Byte 2} (h : WellFormed.tagIsCommand tag = false) :
    commandOfTag tag[0] tag[1] = none := by
  rw [← vector2_eta tag] at h
  simp only [WellFormed.tagIsCommand, Bool.or_eq_false_iff, beq_eq_false_iff_ne] at h
  obtain ⟨⟨h1, h2⟩, h3⟩ := h
  unfold commandOfTag
  split
  · simp_all
  · split
    · simp_all
    · split
      · simp_all
      · rfl

/-- An invalid tag is read and raises BAD_TAG (R165). -/
theorem invalid_path (s : State) {tag : Vector Byte 2} (h : WellFormed.tagIsCommand tag = false) :
    ∃ evs splits, Receives evs (encode (.invalid tag)) ∧
      runTag (s.beginFrame (encode (.invalid tag))) = .next { s with
        dstate := .sEnd, busy := false, endReason := .badTag, tag := tag, frDst := .tag, frN := 2, frGot := 2
        link := { s.link with splits := splits }, trace := s.trace ++ evs } := by
  obtain ⟨evs, splits, hrec, hrun⟩ := runTag_complete (s := s.beginFrame (encode (.invalid tag)))
    (a := tag[0]) (b := tag[1]) (rest := s.link.rx) (by simp [encode, toList_vector2])
  refine ⟨evs, splits, by rwa [encode, toList_vector2], ?_⟩
  rw [hrun, vector2_eta, afterTag_invalid (by exact commandOfTag_of_invalid h)]
  rfl

/-- A shift above the capacity reads its header and raises OVERSIZE (R156); no later state of its path runs. -/
theorem oversize_path (s : State) (suffix : Vector Byte 4) (n : BitVec 32)
    (h : s.cfg.capacityBytes < ceilDiv8 n.toNat) :
    ∃ evs splits, Receives evs (encode (.shift suffix n [] [])) ∧
      (follow .sShRun runShRun <| follow .sShTdi runShTdi <| follow .sShTms runShTms <|
        follow .sShChk (fun s => .next (runShChk s)) <| follow .sShHdr runShHdr <|
        runTag (s.beginFrame (encode (.shift suffix n [] [])))) = .next { s with
        dstate := .sEnd, busy := false, endReason := .oversize, tag := #v[0x73, 0x68]
        hdr := suffix ++ le32bytes n, bitCnt := n, byteLen := BitVec.ofNat 30 (ceilDiv8 n.toNat)
        frDst := .hdr, frN := 8, frGot := 8
        link := { s.link with splits := splits }, trace := s.trace ++ evs } := by
  obtain ⟨evs, splits, hrec, hpath⟩ := shift_header_path s suffix n [] []
  refine ⟨evs, splits, by simpa [encode] using hrec, ?_⟩
  rw [hpath, follow_next (by simp), runShChk_oversize (by exact h), follow_stop (by simp), follow_stop (by simp),
    follow_stop (by simp)]
  rfl

/-- A command answers alike however H splits the reads (R45): its path ends alike, and its response does not depend on
the reads. -/
theorem sameAnswer_exec {s : State} {i : Instr} (hi : WellFormed s.cfg.capacityBytes i) (splits : List Nat) :
    SameAnswer (exec i s) (exec i (s.resplit splits s.trace)) := by
  cases i with
  | getinfo suffix =>
    obtain ⟨_, _, r1, h1⟩ := getinfo_path s suffix
    obtain ⟨_, _, r2, h2⟩ := getinfo_path (s.resplit splits s.trace) suffix
    have path := SameAnswer.of_next h1 h2 rfl (ReadsAlike.of_receives r1 r2)
    exact (path.follow fun _ _ _ _ h => h.runGeRsp).finish
  | settck suffix period =>
    obtain ⟨_, _, r1, h1⟩ := settck_path s suffix period
    obtain ⟨_, _, r2, h2⟩ := settck_path (s.resplit splits s.trace) suffix period
    have path := SameAnswer.of_next h1 h2 rfl (ReadsAlike.of_receives r1 r2)
    exact (path.follow fun _ _ _ _ h => h.runSeRsp).finish
  | invalid tag =>
    have htag : WellFormed.tagIsCommand tag = false := by simpa [WellFormed, Instr.wellFormed] using hi
    obtain ⟨_, _, r1, h1⟩ := invalid_path s htag
    obtain ⟨_, _, r2, h2⟩ := invalid_path (s.resplit splits s.trace) htag
    exact (SameAnswer.of_next h1 h2 rfl (ReadsAlike.of_receives r1 r2)).finish
  | shift suffix n tms tdi =>
    simp only [WellFormed, Instr.wellFormed, WellFormed.vectorsFit] at hi
    split at hi
    case isTrue hcap =>
      simp only [Bool.and_eq_true, beq_iff_eq] at hi
      obtain ⟨_, _, _, r1, rfl, h1⟩ := shift_path s suffix n tms tdi hcap hi.1 hi.2
      obtain ⟨_, _, _, r2, rfl, h2⟩ := shift_path (s.resplit splits s.trace) suffix n tms tdi hcap hi.1 hi.2
      have path := SameAnswer.of_next h1 h2 rfl ((ReadsAlike.of_receives r1 r2).append (.refl _))
      refine (path.follow fun _ _ ht _ h => h.runShRsp ?_).finish
      cases h1.symm.trans ht
      exact (byteLen_exact n).trans_le hcap
    case isFalse hcap =>
      simp only [Bool.and_eq_true, List.isEmpty_iff] at hi
      obtain ⟨rfl, rfl⟩ := hi
      obtain ⟨_, _, r1, h1⟩ := oversize_path s suffix n (Nat.lt_of_not_le hcap)
      obtain ⟨_, _, r2, h2⟩ := oversize_path (s.resplit splits s.trace) suffix n (Nat.lt_of_not_le hcap)
      have path := SameAnswer.of_next h1 h2 rfl (ReadsAlike.of_receives r1 r2)
      exact (path.follow fun _ _ ht hd _ => by cases h1.symm.trans ht; cases hd).finish

/-- Settles O15: the two answers are alike, and the second state is the first one with other splits and trace. -/
theorem readSplittingDoesNotMatter : Obligations.ReadSplittingDoesNotMatter := by
  intro s i splits hi
  rcases sameAnswer_exec hi splits with ⟨t, _, ht, hu, sp, tr, rfl, hfilter, hdata⟩ | hrefused
  · exact .inl ⟨t, _, ht, hu, rfl, hfilter, hdata⟩
  · exact .inr hrefused

end Sys2Proof.Machine
end

section
/-! PROOFS of 20_memory.md: the next action inside a transfer (R80 to R85), the one response write that decides how a
command ends (R86 to R90), a frame that lacks bytes, which ends the session or waits (R84, R141, R249), and a frame that
arrives in pieces (R81, R257). -/

namespace Sys2Proof.Machine

/-! ### The next action inside a transfer -/

/-- The state after a read that took the next `r` bytes and stored them, `u` being the state after the stores. -/
def State.afterRead (s u : State) (r : Nat) : State :=
  u.withTransfer s.frDst s.frN (s.frGot + r) s.busy
    { s.link with rx := s.link.rx.drop r, splits := s.link.splits.tail }
    (s.trace ++ [.rx (s.frN - s.frGot) r (s.link.rx.take r)])

theorem afterRead_keeps {dst : FrDst} {j : Nat} {bs : List Byte} {s u : State} (hu : storeBytes dst j bs s = .next u)
    (r : Nat) : (s.afterRead u r).cfg = s.cfg ∧ (s.afterRead u r).dstate = s.dstate ∧
      (s.afterRead u r).byteLen = s.byteLen := by
  rw [storeBytes_keeps hu]
  exact ⟨rfl, rfl, rfl⟩

/-- The six states that are transfers stand for one (R31). -/
theorem exists_transferIn {s : State} (h : s.dstate = .sTag ∨ s.dstate = .sGeSfx ∨ s.dstate = .sSeArg ∨
    s.dstate = .sShHdr ∨ s.dstate = .sShTms ∨ s.dstate = .sShTdi) :
    ∃ dst n reason onDone, TransferIn s dst n reason onDone := by
  rcases h with h | h | h | h | h | h
  · exact ⟨_, _, _, _, .tag h⟩
  · exact ⟨_, _, _, _, .geSuffix h⟩
  · by_cases hk : s.busy = true → s.frDst = .sink
    · exact ⟨_, _, _, _, .seSuffix h hk⟩
    · exact ⟨_, _, _, _, .sePeriod h (Classical.not_imp.mp hk).1 (Classical.not_imp.mp hk).2⟩
  · exact ⟨_, _, _, _, .header h⟩
  · exact ⟨_, _, _, _, .tms h⟩
  · exact ⟨_, _, _, _, .tdi h⟩

/-- Inside an operation that is not the serializer's run, a good state is inside a transfer. -/
theorem State.Inv.exists_transferIn {s : State} (h : s.Inv) (hb : s.busy = true) (hd : s.dstate ≠ .sShRun) :
    ∃ dst n reason onDone, TransferIn s dst n reason onDone := by
  have hf := h.busyFits hb
  refine Machine.exists_transferIn ?_
  unfold State.BusyFits at hf
  cases hs : s.dstate <;> simp_all

section

variable {dst : FrDst} {n : Nat} {reason : Reason} {onDone : State → State} {s : State}

/-- W's next action in a transfer is the transfer's. -/
theorem TransferIn.tick_eq (hT : TransferIn s dst n reason onDone) : tick s = transferTick dst n reason onDone s := by
  cases hT with
  | seSuffix hd hk => rw [tick, hd]; exact (seArgTick_eq s).trans (if_neg (by simpa using hk))
  | sePeriod hd hb hk => rw [tick, hd]; exact (seArgTick_eq s).trans (if_pos ⟨hb, hk⟩)
  | _ hd => rw [tick, hd]

/-- The reason a failed transfer raises: TAG_RX_END in `S_TAG`, RX_FAIL elsewhere (R141, R230). -/
theorem TransferIn.reason_eq (hT : TransferIn s dst n reason onDone) :
    reason = if s.dstate = .sTag then .tagRxEnd else .rxFail := by
  cases hT <;> simp [*]

theorem TransferIn.tick_begins (hT : TransferIn s dst n reason onDone) (hb : s.busy = false) :
    tick s = .next (frStart dst n s) := by
  simp [hT.tick_eq, transferTick, hb]

theorem TransferIn.tick_completes (hT : TransferIn s dst n reason onDone) (hb : s.busy = true)
    (hn : s.frN ≤ s.frGot) : tick s = .next (onDone s) := by
  simp [hT.tick_eq, transferTick, hb, frTurn, Nat.not_lt.mpr hn, frSettle]

/-- A read H does not answer holds W in it (R84). -/
theorem TransferIn.tick_waits (hT : TransferIn s dst n reason onDone) (hb : s.busy = true) (hn : s.frGot < s.frN)
    (hrx : s.link.rx = []) (he : s.link.rxEnd = none) : tick s = .next s := by
  simp [hT.tick_eq, transferTick, hb, frTurn, hn, streamRead_silent hrx he, frSettle]

/-- A read that returns 0 or below ends the session with the state's reason (R85). -/
theorem TransferIn.tick_fails (hT : TransferIn s dst n reason onDone) (hb : s.busy = true) (hn : s.frGot < s.frN)
    {e : Nat} (hrx : s.link.rx = []) (he : s.link.rxEnd = some e) :
    tick s = .next ((s.emit (.rx (s.frN - s.frGot) (-(e : Int)) [])).raise reason) := by
  simp [hT.tick_eq, transferTick, hb, frTurn, hn, streamRead_stop hrx he, frSettle]

/-- A read that returns bytes takes at least 1 and at most the remaining count, and they fit their destination (R80,
R82). -/
theorem TransferIn.tick_reads (hT : TransferIn s dst n reason onDone) (hb : s.busy = true) (hn : s.frGot < s.frN)
    (hdst : s.frDst = dst) (hN : s.frN = n) (hfits : FitsDst dst n s) (hrx : s.link.rx ≠ []) :
    ∃ r u, 0 < r ∧ s.frGot + r ≤ s.frN ∧ r ≤ s.link.rx.length ∧
      storeBytes s.frDst s.frGot (s.link.rx.take r) s = .next u ∧
      tick s = .next (s.afterRead u r) := by
  obtain ⟨hm, hl⟩ := s.link.readCount_le (s.frN - s.frGot)
  have h0 := Link.readCount_pos (l := s.link) (Nat.sub_pos_of_lt hn) hrx
  generalize hr : s.link.readCount (s.frN - s.frGot) = r at hm hl h0
  have hroom : FitsDst s.frDst (s.frGot + (s.link.rx.take r).length) s := by
    rw [List.length_take, Nat.min_eq_left hl, hdst]
    cases dst <;> simp only [FitsDst] at hfits ⊢ <;> omega
  obtain ⟨u, hu, _⟩ := storeBytes_fits hroom
  refine ⟨r, u, h0, by omega, hl, hu, ?_⟩
  rw [hT.tick_eq, transferTick, if_pos hb, frTurn_reads hn hrx hr.symm hu]
  rfl

end

/-- Inside an operation the step is the atomic action: W is at no frame boundary. -/
theorem step_of_busy {s : State} (h : s.busy = true) : step s = tick s := by
  simp [step, frameAt, State.atFrameBoundary, h]

/-- Settles O38: both operations return before they touch the stream. -/
theorem zeroLengthStreamOperations : Obligations.ZeroLengthStreamOperations :=
  ⟨fun s dst => frameRead_zero dst s, respWrite_nil⟩

/-- Settles O37: the transfer W's state stands for gives the reason, and the read fails or waits. -/
theorem failedOrUnansweredRead : Obligations.FailedOrUnansweredRead := by
  intro s hb hn hrx hd
  obtain ⟨dst, n, reason, onDone, hT⟩ := exists_transferIn hd
  rw [step_of_busy hb]
  constructor
  · intro e he
    rw [hT.tick_fails hb hn hrx he, hT.reason_eq]
    rfl
  · exact hT.tick_waits hb hn hrx

/-- Settles O36: in a good state the registers are those of the transfer W is in, whose read takes what was asked or
fails. -/
theorem readAsksTheRemainingCount : Obligations.ReadAsksTheRemainingCount := by
  intro s hs hb hd hn
  obtain ⟨dst, n, reason, onDone, hT⟩ := hs.exists_transferIn hb hd
  obtain ⟨hdst, hN, _⟩ := hT.registers hs hb
  constructor
  · intro hrx
    obtain ⟨r, u, h0, hm, hl, hu, ht⟩ := hT.tick_reads hb hn hdst hN (hT.fits hs) hrx
    obtain ⟨_, hstate, _⟩ := afterRead_keeps hu r
    exact ⟨_, r, ht, h0, by omega, hl, rfl, rfl, rfl, hstate, hb, rfl, rfl, rfl⟩
  · exact fun e hrx he => ⟨_, hT.tick_fails hb hn hrx he, rfl, rfl, rfl⟩

/-! ### The response of a command -/

/-- What the action of a response state does after the write: only `S_SH_RSP` draws a free value, once it leaves (R161,
log 6). -/
def State.afterWrite (before after : State) : State :=
  if before.dstate = .sShRsp ∧ after.dstate ≠ .sShRsp then after.drewFree else after

theorem afterWrite_keeps (u t : State) : u.afterWrite t = { t with freeIdx := (u.afterWrite t).freeIdx } := by
  unfold State.afterWrite
  split <;> rfl

theorem afterWrite_self (u : State) : u.afterWrite u = u := by simp [State.afterWrite]

/-- `u` is where the command `i` from `s` stands before its response `resp`: the rest of the command is the action there
and the termination step, and up to there the session and H's answers are as they were. -/
structure RespondsFrom (i : Instr) (s u : State) (resp : List Byte) : Prop where
  exec_eq : exec i s = andThen (tick u) finish
  tick_eq : tick u = andThen (respWrite resp u) fun t => .next (u.afterWrite t)
  dstate : u.dstate = .sGeRsp ∨ u.dstate = .sSeRsp ∨ u.dstate = .sShRsp
  length : resp.length = responseLength s.cfg i
  sessActive : u.sessActive = s.sessActive
  link : u.link = { s.link with splits := u.link.splits }
  trace : ∃ evs, u.trace = s.trace ++ evs ∧ ∀ e ∈ evs, e.isTx = false

theorem Receives.not_isTx {evs : List Event} {bytes : List Byte} (h : Receives evs bytes) :
    ∀ e ∈ evs, e.isTx = false := by
  intro e he
  have := h.allReads e he
  cases e with
  | tx => simp [Event.isRead] at this
  | _ => rfl

/-- The serializer's events are line updates and samples. -/
theorem shiftEvents_not_isTx (n : Nat) (t d s : Nat → Bool) : ∀ e ∈ shiftEvents n t d s, e.isTx = false := by
  intro e he
  simp only [shiftEvents, bitEvents, List.mem_append, List.mem_flatMap, List.mem_cons, List.not_mem_nil, or_false] at he
  rcases he with (rfl | ⟨i, _, rfl | rfl | rfl⟩) | rfl <;> rfl

/-- A command whose path stands in its response state goes on with the action there. -/
theorem follow_finish_of_next {d : DState} {run : State → Result State} {o : Result State} {u : State}
    (ho : o = .next u) (hd : u.dstate = d) (hrun : run u = tick u) :
    andThen (follow d run o) finish = andThen (tick u) finish := by
  rw [ho, follow_next hd, hrun]

/-- A command whose path has raised its termination goes on with the termination step. -/
theorem follow_finish_of_raised {d : DState} {run : State → Result State} {o : Result State} {u : State}
    (ho : o = .next u) (hu : u.dstate = .sEnd) (hd : .sEnd ≠ d) :
    andThen (follow d run o) finish = .next u.endSession := by
  rw [ho, follow_stop (by rwa [hu]), andThen_next, finish_of_eq hu]

/-- A response state that draws no free value is its write and no more. -/
theorem tick_of_ne_shRsp {u : State} (hd : u.dstate ≠ .sShRsp) {resp : List Byte} (hr : tick u = respWrite resp u) :
    tick u = andThen (respWrite resp u) fun t => .next (u.afterWrite t) := by
  rw [hr]
  cases respWrite resp u <;> simp [State.afterWrite, hd]

/-- In `S_SH_RSP` the write's answer decides, and leaving the state draws a free value. -/
theorem tick_shRsp {u : State} (hd : u.dstate = .sShRsp) {resp : List Byte} (hr : tdoResponse u = .next resp) :
    tick u = andThen (respWrite resp u) fun t => .next (u.afterWrite t) := by
  simp only [tick, hd, runShRsp, hr, andThen_next, State.afterWrite]
  congr 1
  funext t
  by_cases h : t.dstate = .sShRsp <;> simp [h]

theorem respondsFrom_getinfo (s : State) (suffix : Vector Byte 6) :
    ∃ u resp, RespondsFrom (.getinfo suffix) s u resp := by
  obtain ⟨evs, splits, hrec, hpath⟩ := getinfo_path s suffix
  exact ⟨_, getinfoResponse s.cfg.advertisedN, {
    exec_eq := follow_finish_of_next hpath rfl rfl
    tick_eq := tick_of_ne_shRsp (by simp) rfl
    dstate := .inl rfl
    length := rfl
    sessActive := rfl
    link := rfl
    trace := ⟨evs, rfl, hrec.not_isTx⟩ }⟩

theorem respondsFrom_settck (s : State) (suffix : Vector Byte 5) (period : BitVec 32) :
    ∃ u resp, RespondsFrom (.settck suffix period) s u resp := by
  obtain ⟨evs, splits, hrec, hpath⟩ := settck_path s suffix period
  exact ⟨_, (le32bytes period).toList, {
    exec_eq := follow_finish_of_next hpath rfl rfl
    tick_eq := tick_of_ne_shRsp (by simp) rfl
    dstate := .inr (.inl rfl)
    length := Vector.length_toList
    sessActive := rfl
    link := rfl
    trace := ⟨evs, rfl, hrec.not_isTx⟩ }⟩

theorem respondsFrom_shift (s : State) (suffix : Vector Byte 4) (n : BitVec 32) {tms tdi : List Byte}
    (hcap : ceilDiv8 n.toNat ≤ s.cfg.capacityBytes) (htms : tms.length = ceilDiv8 n.toNat)
    (htdi : tdi.length = ceilDiv8 n.toNat) : ∃ u resp, RespondsFrom (.shift suffix n tms tdi) s u resp := by
  obtain ⟨evs, splits, draws, hrec, _, hpath⟩ := shift_path s suffix n tms tdi hcap htms htdi
  exact ⟨_, _, {
    exec_eq := follow_finish_of_next hpath rfl rfl
    tick_eq := tick_shRsp rfl (tdoResponse_eq ((byteLen_exact n).trans_le hcap))
    dstate := .inr (.inr rfl)
    length := by
      rw [withFreePadding_length, List.length_map, List.length_range, responseLength, if_pos hcap]
      exact byteLen_exact n
    sessActive := rfl
    link := rfl
    trace := ⟨_, List.append_assoc .., fun e he =>
      (List.mem_append.mp he).elim (hrec.not_isTx e) (shiftEvents_not_isTx _ _ _ _ e)⟩ }⟩

/-- Every command stands before its response at some point, or raises its termination before (R164, R156, R165). -/
theorem exec_responds_or_ends {s : State} {i : Instr} (hi : WellFormed s.cfg.capacityBytes i) :
    (∃ u resp, RespondsFrom i s u resp) ∨
    (responseLength s.cfg i = 0 ∧ ∃ u, exec i s = .next u ∧ u.link.rx = s.link.rx) := by
  cases i with
  | getinfo suffix => exact .inl (respondsFrom_getinfo s suffix)
  | settck suffix period => exact .inl (respondsFrom_settck s suffix period)
  | shift suffix n tms tdi =>
    simp only [WellFormed, Instr.wellFormed, WellFormed.vectorsFit] at hi
    split at hi
    case isTrue hcap =>
      simp only [Bool.and_eq_true, beq_iff_eq] at hi
      exact .inl (respondsFrom_shift s suffix n hcap hi.1 hi.2)
    case isFalse hcap =>
      simp only [Bool.and_eq_true, List.isEmpty_iff] at hi
      obtain ⟨rfl, rfl⟩ := hi
      obtain ⟨evs, splits, _, hpath⟩ := oversize_path s suffix n (Nat.lt_of_not_le hcap)
      exact .inr ⟨if_neg hcap, _, follow_finish_of_raised hpath rfl (by decide), rfl⟩
  | invalid tag =>
    have htag : WellFormed.tagIsCommand tag = false := by simpa [WellFormed, Instr.wellFormed] using hi
    obtain ⟨evs, splits, _, hpath⟩ := invalid_path s htag
    exact .inr ⟨rfl, _, andThen_eq_next.mpr ⟨_, hpath, finish_of_eq rfl⟩, rfl⟩

section

variable {i : Instr} {s u : State} {resp : List Byte}

/-- H does not answer: the command stands before its response, and stays there (R89). -/
theorem RespondsFrom.exec_waits (h : RespondsFrom i s u resp) (hne : resp ≠ []) (hw : s.link.writes = []) :
    exec i s = .next u ∧ tick u = .next u := by
  have htick : tick u = .next u := by
    rw [h.tick_eq, respWrite_waits hne (by rw [h.link]; exact hw), andThen_next, afterWrite_self]
  refine ⟨?_, htick⟩
  rw [h.exec_eq, htick, andThen_next, finish_of_ne]
  rcases h.dstate with hd | hd | hd <;> simp [hd]

/-- The write was answered and W goes to `t`: the command ends there. -/
theorem RespondsFrom.exec_of_write (h : RespondsFrom i s u resp) {t : State} (ht : respWrite resp u = .next t) :
    exec i s = finish (u.afterWrite t) := by
  rw [h.exec_eq, h.tick_eq, ht]
  rfl

/-- H takes the whole response: one write, and W is at the frame boundary (R86). -/
theorem RespondsFrom.exec_sent (h : RespondsFrom i s u resp) (hne : resp ≠ []) {a : WriteAnswer}
    {ws : List WriteAnswer} (hw : s.link.writes = a :: ws) (hk : a.k = resp.length) :
    ∃ t, exec i s = .next t ∧ t.dstate = .sTag ∧ t.sessActive = s.sessActive ∧ t.link.got = s.link.got ++ resp ∧
      t.trace = u.trace ++ [.tx resp a.k] := by
  have hx := h.exec_of_write (respWrite_ok hne (by rw [h.link]; exact hw) hk)
  rw [afterWrite_keeps] at hx
  refine ⟨_, hx.trans (finish_of_ne (by simp)), rfl, h.sessActive, ?_, rfl⟩
  simp only [State.goto_keeps, State.wrote_sets, WriteAnswer.received_all hne hk]
  rw [h.link]

/-- H takes less than the whole response: one write, and the session ends (R86, R230). -/
theorem RespondsFrom.exec_failed (h : RespondsFrom i s u resp) (hne : resp ≠ []) {a : WriteAnswer}
    {ws : List WriteAnswer} (hw : s.link.writes = a :: ws) (hk : a.k < resp.length) :
    ∃ t, exec i s = .next t ∧ t.dstate = .sWait ∧ t.sessActive = false ∧ t.stream = none ∧
      t.lastReason = (if a.k ≤ 0 then .txFail else .shortWrite) ∧ t.link.got = s.link.got ++ a.received resp ∧
      t.trace = u.trace ++ [.tx resp a.k, .sessionEnd (if a.k ≤ 0 then .txFail else .shortWrite)] := by
  have hwu : u.link.writes = a :: ws := by rw [h.link]; exact hw
  have hwrite : respWrite resp u = .next ((u.wrote resp a).raise (if a.k ≤ 0 then .txFail else .shortWrite)) := by
    by_cases h0 : a.k ≤ 0
    · rw [respWrite_failTransport hne hwu h0, if_pos h0]
    · rw [respWrite_failShort hne hwu (Int.not_le.mp h0) hk, if_neg h0]
  have hx := h.exec_of_write hwrite
  rw [afterWrite_keeps] at hx
  refine ⟨_, hx.trans (finish_of_eq (by simp)), rfl, rfl, rfl, rfl, ?_, ?_⟩
  · simp only [State.endSession_keeps, State.raise_keeps, State.wrote_sets]
    rw [h.link]
  · simp

/-- An answer above the request is refused (R90, I18). -/
theorem RespondsFrom.exec_refused (h : RespondsFrom i s u resp) (hne : resp ≠ []) {a : WriteAnswer}
    {ws : List WriteAnswer} (hw : s.link.writes = a :: ws) (hk : (resp.length : Int) < a.k) :
    exec i s = .refused .writeAboveRequest := by
  rw [h.exec_eq, h.tick_eq, respWrite_outOfRange hne (by rw [h.link]; exact hw) hk]
  rfl

end

/-- Settles O23: a command with a response stands before its one write, and each answer has its lemma. -/
theorem writeAnswerDecidesTheCommand : Obligations.WriteAnswerDecidesTheCommand := by
  intro s i hi hlen
  obtain ⟨u, resp, h⟩ := (exec_responds_or_ends hi).resolve_right fun h => by omega
  obtain ⟨evs, htrace, hevs⟩ := h.trace
  have hne : resp ≠ [] := List.ne_nil_of_length_pos (by rwa [h.length])
  rw [← h.length]
  refine ⟨fun hw => ?_, fun a ws hw => ⟨fun hk => ?_, fun hk => ?_, h.exec_refused hne hw⟩⟩
  · obtain ⟨hx, ht⟩ := h.exec_waits hne hw
    exact ⟨u, hx, ht, h.sessActive, h.dstate, by rw [h.link]⟩
  · obtain ⟨t, hx, hd, hs, hgot, htr⟩ := h.exec_sent hne hw hk
    exact ⟨t, resp, evs, hx, rfl, hd, hs, hgot, hevs, by rw [htr, htrace]⟩
  · obtain ⟨t, hx, hd, hs, hst, hreason, hgot, htr⟩ := h.exec_failed hne hw hk
    refine ⟨t, resp, evs, hx, rfl, hd, hs, hst, hreason, ?_, hevs, by rw [htr, htrace]⟩
    rw [hgot, WriteAnswer.received]
    by_cases h0 : a.k ≤ 0
    · rw [if_neg (Int.not_lt.mpr h0), if_pos h0]
    · rw [if_pos (Int.not_le.mp h0), if_neg h0]

/-! ### What a decoding error says of the bytes -/

theorem decode_of_length_lt {capacity : Nat} {bytes : List Byte} (h : bytes.length < 2) :
    decode capacity bytes = .error .truncatedTag := by
  rcases bytes with _ | ⟨_, _ | ⟨_, _⟩⟩
  · rfl
  · rfl
  · simp at h

theorem decodeGetinfo_eq_error {bytes : List Byte} {err : DecodeError} (h : decodeGetinfo bytes = .error err) :
    err = .truncatedGetinfo ∧ bytes.length < 6 := by
  rcases bytes with _ | ⟨_, _ | ⟨_, _ | ⟨_, _ | ⟨_, _ | ⟨_, _ | ⟨_, _⟩⟩⟩⟩⟩⟩ <;> cases h <;> simp

theorem decodeSettck_eq_error {bytes : List Byte} {err : DecodeError} (h : decodeSettck bytes = .error err) :
    err = .truncatedSettck ∧ bytes.length < 9 := by
  rcases bytes with _ | ⟨_, _ | ⟨_, _ | ⟨_, _ | ⟨_, _ | ⟨_, _ | ⟨_, _ | ⟨_, _ | ⟨_, _ | ⟨_, _⟩⟩⟩⟩⟩⟩⟩⟩⟩ <;>
    cases h <;> simp

theorem decodePayload_eq_error {capacity : Nat} {suffix : Vector Byte 4} {n : BitVec 32} {bytes : List Byte}
    {err : DecodeError} (h : decodePayload capacity suffix n bytes = .error err) :
    err ≠ .truncatedTag ∧ ceilDiv8 n.toNat ≤ capacity ∧ bytes.length < 2 * ceilDiv8 n.toNat := by
  simp only [decodePayload] at h
  split at h
  case isFalse => cases h
  case isTrue hcap =>
    split at h
    case isTrue hlen => cases h; exact ⟨by decide, hcap, by omega⟩
    case isFalse =>
      split at h <;> cases h
      exact ⟨by decide, hcap, ‹_›⟩

theorem decodeShift_eq_error {capacity : Nat} {bytes : List Byte} {err : DecodeError}
    (h : decodeShift capacity bytes = .error err) : err ≠ .truncatedTag := by
  unfold decodeShift at h
  split at h
  · exact (decodePayload_eq_error h).1
  · cases h; decide

theorem toList_vector8 (v : Vector Byte 8) : v.toList = [v[0], v[1], v[2], v[3], v[4], v[5], v[6], v[7]] := by
  rcases v with ⟨⟨l⟩, h⟩
  match l, h with
  | [_, _, _, _, _, _, _, _], _ => rfl

/-! ### What the registers hold of the bytes received -/

/-- The bytes of the registers a frame is decoded from, TAG and HDR (R33, R80). -/
def State.heldBytes (s : State) : FrDst → List Byte
  | .tag => s.tag.toList
  | .hdr => s.hdr.toList
  | _ => []

theorem take_set_succ {n j : Nat} (v : Vector Byte n) (b : Byte) (h : j < n) :
    (v.set j b h).toList.take (j + 1) = v.toList.take j ++ [b] := by
  have hlen : j < v.toList.length := by simpa using h
  rw [Vector.toList_set, List.set_eq_take_append_cons_drop, if_pos hlen, List.take_append, List.length_take,
    Nat.min_eq_left hlen.le]
  simp

theorem heldBytes_storeByte {dst : FrDst} (hdst : dst = .tag ∨ dst = .hdr) {j : Nat} {b : Byte} {s t : State}
    (h : storeByte dst j b s = .next t) : (t.heldBytes dst).take (j + 1) = (s.heldBytes dst).take j ++ [b] := by
  rcases hdst with rfl | rfl
  all_goals
    simp only [storeByte] at h
    split at h <;> cases h
    exact take_set_succ _ b ‹_›

/-- After the stores the register holds, in front, what it held in front and the bytes stored. -/
theorem heldBytes_storeBytes {dst : FrDst} (hdst : dst = .tag ∨ dst = .hdr) :
    ∀ {bs : List Byte} {j : Nat} {s t : State}, storeBytes dst j bs s = .next t →
      (t.heldBytes dst).take (j + bs.length) = (s.heldBytes dst).take j ++ bs
  | [], _, _, _, h => by cases h; simp
  | b :: bs, j, s, t, h => by
    obtain ⟨u, hu, ht⟩ := andThen_eq_next.mp h
    have ih := heldBytes_storeBytes hdst ht
    rw [heldBytes_storeByte hdst hu, Nat.add_assoc, Nat.add_comm 1] at ih
    simpa using ih

/-! ### W inside a frame that lacks bytes -/

/-- How many bytes of the current transfer W has. -/
def State.receivedCount (s : State) : Nat := if s.busy then s.frGot else 0

/-- In `S_SE_ARG`, W is in the period's transfer, behind that of the suffix (R148). -/
def State.inPeriod (s : State) : Bool := s.busy && decide (s.frDst ≠ .sink)

/-- The bytes W has of the frame it is in and those on the stream do not complete it (30_encoding.md R121). What TAG and
HDR hold counts as it decodes, with `err`; of the other transfers the number of bytes counts. -/
def State.LacksBytes (s : State) (err : DecodeError) : Prop :=
  match s.dstate with
  | .sTag => decode s.cfg.capacityBytes ((s.heldBytes .tag).take s.receivedCount ++ s.link.rx) = .error err
  | .sGeSfx => s.receivedCount + s.link.rx.length < 6
  | .sSeArg => s.receivedCount + s.link.rx.length < if s.inPeriod then 4 else 9
  | .sShHdr => decodeShift s.cfg.capacityBytes ((s.heldBytes .hdr).take s.receivedCount ++ s.link.rx) = .error err
  | .sShChk => ceilDiv8 s.bitCnt.toNat ≤ s.cfg.capacityBytes ∧ s.link.rx.length < 2 * ceilDiv8 s.bitCnt.toNat
  | .sShTms => s.receivedCount + s.link.rx.length < 2 * s.byteLen.toNat
  | .sShTdi => s.receivedCount + s.link.rx.length < s.byteLen.toNat
  | _ => False

/-- The frame W is in lacks bytes, and its decoding fails with `err`, which is another error than that of a cut tag once
the tag is whole. -/
structure State.Lacks (s : State) (err : DecodeError) : Prop where
  beyondTag : s.dstate ≠ .sTag → err ≠ .truncatedTag
  bytes : s.LacksBytes err

/-- W is in a transfer of a frame that lacks bytes, or at its capacity check. -/
inductive InFrame (err : DecodeError) (s : State) : Prop
  | transfers {dst : FrDst} {n : Nat} {reason : Reason} {onDone : State → State}
    (hT : TransferIn s dst n reason onDone)
    (registers : s.busy = true → s.frDst = dst ∧ s.frN = n ∧ s.frGot ≤ n) (fits : FitsDst dst n s)
    (lacks : s.Lacks err) : InFrame err s
  | checks (hd : s.dstate = .sShChk) (lacks : s.Lacks err) : InFrame err s

/-- A boundary before a stream that holds no whole frame. -/
theorem inFrame_of_decode {s : State} {err : DecodeError} (hd : s.dstate = .sTag) (hb : s.busy = false)
    (h : decode s.cfg.capacityBytes s.link.rx = .error err) : InFrame err s := by
  have bytes : s.LacksBytes err := by simpa [State.LacksBytes, hd, State.receivedCount, hb] using h
  exact .transfers (.tag hd) (by simp [hb]) (Nat.le_refl 2) ⟨fun hne => absurd hd hne, bytes⟩

/-! ### What the actions inside a frame keep, and their number -/

/-- From `s` to `t` W did nothing an outside agent sees but reads, and the session goes on. -/
structure ReadsOnly (s t : State) : Prop where
  sessActive : t.sessActive = s.sessActive
  stream : t.stream = s.stream
  rxEnd : t.link.rxEnd = s.link.rxEnd
  got : t.link.got = s.link.got
  lines : t.lines = s.lines
  tdoBuf : t.tdoBuf = s.tdoBuf
  trace : ∃ evs, t.trace = s.trace ++ evs ∧ ∀ ev ∈ evs, ev.isRx = true

theorem ReadsOnly.trans {s t u : State} (h : ReadsOnly s t) (h' : ReadsOnly t u) : ReadsOnly s u where
  sessActive := h'.sessActive.trans h.sessActive
  stream := h'.stream.trans h.stream
  rxEnd := h'.rxEnd.trans h.rxEnd
  got := h'.got.trans h.got
  lines := h'.lines.trans h.lines
  tdoBuf := h'.tdoBuf.trans h.tdoBuf
  trace := by
    obtain ⟨x, hx, hxr⟩ := h.trace
    obtain ⟨y, hy, hyr⟩ := h'.trace
    refine ⟨x ++ y, by rw [hy, hx, List.append_assoc], fun ev hev => ?_⟩
    exact (List.mem_append.mp hev).elim (hxr ev) (hyr ev)

/-- A change of the dispatcher's own registers and of a transfer's destinations is none an outside agent sees. -/
theorem ReadsOnly.of_eq {s t : State} (e : t = { s with
    dstate := t.dstate, busy := t.busy, bitCnt := t.bitCnt, byteLen := t.byteLen, endReason := t.endReason
    frDst := t.frDst, frN := t.frN, frGot := t.frGot }) : ReadsOnly s t := by
  rw [e]
  exact ⟨rfl, rfl, rfl, rfl, rfl, rfl, [], (List.append_nil _).symm, by simp⟩

/-- How many states W goes through at most, its own one counted, until the frame it is in is whole. -/
def State.statesToGo (s : State) : Nat :=
  match s.dstate with
  | .sTag => 5
  | .sShHdr => 4
  | .sShChk => 3
  | .sShTms => 2
  | .sShTdi => 1
  | .sGeSfx => 1
  | .sSeArg => if s.inPeriod then 0 else 1
  | _ => 0

/-- What every action in a frame that lacks bytes makes smaller: it reads bytes, begins a transfer or leaves a state. A
byte weighs more than all the states. -/
def State.actionsToGo (s : State) : Nat :=
  12 * s.link.rx.length + 2 * s.statesToGo + if s.busy then 0 else 1

/-- W's next action goes on inside the frame. -/
structure GoesOn (err : DecodeError) (s t : State) : Prop where
  tick_eq : tick s = .next t
  inFrame : InFrame err t
  readsOnly : ReadsOnly s t
  progress : t.actionsToGo < s.actionsToGo

/-- W is inside a read that H has not answered, of the transfer that fails with the reason for `err`. -/
structure AwaitsByte (err : DecodeError) (s : State) : Prop where
  transfer : ∃ dst n onDone,
    TransferIn s dst n (if err = .truncatedTag then .tagRxEnd else .rxFail) onDone
  busy : s.busy = true
  lacks : s.frGot < s.frN
  rx : s.link.rx = []

section

variable {dst : FrDst} {n : Nat} {reason : Reason} {onDone : State → State} {s t : State} {err : DecodeError}

/-- The transfer W is in depends on the state of the dispatcher, the byte length and the destination only. -/
theorem TransferIn.congr (hT : TransferIn s dst n reason onDone) (hd : t.dstate = s.dstate)
    (hl : t.byteLen = s.byteLen) (hb : t.busy = true) (hk : t.frDst = dst) : TransferIn t dst n reason onDone := by
  cases hT with
  | tag h => exact .tag (hd.trans h)
  | geSuffix h => exact .geSuffix (hd.trans h)
  | seSuffix h => exact .seSuffix (hd.trans h) fun _ => hk
  | sePeriod h => exact .sePeriod (hd.trans h) hb (by simp [hk])
  | header h => exact .header (hd.trans h)
  | tms h => rw [← hl]; exact .tms (hd.trans h)
  | tdi h => rw [← hl]; exact .tdi (hd.trans h)

theorem TransferIn.goesOn_begins (hT : TransferIn s dst n reason onDone) (fits : FitsDst dst n s) (lacks : s.Lacks err)
    (hb : s.busy = false) : GoesOn err s (frStart dst n s) where
  tick_eq := hT.tick_begins hb
  inFrame := by
    have bytes := lacks.bytes
    refine .transfers (hT.congr rfl rfl rfl rfl) (fun _ => ⟨rfl, rfl, Nat.zero_le n⟩) fits ⟨lacks.beyondTag, ?_⟩
    cases hT with
    | sePeriod _ hb' => simp [hb] at hb'
    | _ hd => simpa [State.LacksBytes, State.receivedCount, State.inPeriod, hd, hb] using bytes
  readsOnly := .of_eq rfl
  progress := by
    have hstates : (frStart dst n s).statesToGo = s.statesToGo := by
      cases hT with
      | sePeriod _ hb' => simp [hb] at hb'
      | _ hd => simp [State.statesToGo, State.inPeriod, hd, hb]
    simp [State.actionsToGo, hstates, hb]

/-- A read moves bytes from the stream to the front of the register; what the decoder makes of them is the same. -/
theorem held_append_afterRead {u : State} {r : Nat} (hdst : dst = .tag ∨ dst = .hdr) (hl : r ≤ s.link.rx.length)
    (hu : storeBytes dst s.frGot (s.link.rx.take r) s = .next u) :
    (u.heldBytes dst).take (s.frGot + r) ++ s.link.rx.drop r = (s.heldBytes dst).take s.frGot ++ s.link.rx := by
  have h := heldBytes_storeBytes hdst hu
  rw [List.length_take_of_le hl] at h
  rw [h, List.append_assoc, List.take_append_drop]

/-- A read takes nothing from what the frame lacks. -/
theorem TransferIn.lacks_afterRead (hT : TransferIn s dst n reason onDone) (lacks : s.Lacks err) (hb : s.busy = true)
    {u : State} {r : Nat} (hdst : s.frDst = dst) (hl : r ≤ s.link.rx.length)
    (hu : storeBytes s.frDst s.frGot (s.link.rx.take r) s = .next u) : (s.afterRead u r).Lacks err := by
  rw [hdst] at hu
  obtain ⟨hcfg, hd, hlen⟩ := afterRead_keeps hu r
  have hgot : (s.afterRead u r).receivedCount = s.frGot + r := if_pos hb
  have hgot₀ : s.receivedCount = s.frGot := if_pos hb
  have hperiod : (s.afterRead u r).inPeriod = s.inPeriod := rfl
  have hrx : (s.afterRead u r).link.rx = s.link.rx.drop r := rfl
  have hcount : s.frGot + r + (s.link.rx.drop r).length = s.frGot + s.link.rx.length := by
    rw [List.length_drop]; omega
  obtain ⟨beyond, bytes⟩ := lacks
  refine ⟨by rwa [hd], ?_⟩
  unfold State.LacksBytes at bytes ⊢
  rw [hd, hcfg, hlen, hgot, hperiod, hrx, hcount]
  rw [hgot₀] at bytes
  cases hT with
  | tag h =>
    simp only [h] at bytes ⊢
    rw [← bytes]
    exact congrArg (decode _) (held_append_afterRead (u := u) (.inl rfl) hl hu)
  | header h =>
    simp only [h] at bytes ⊢
    rw [← bytes]
    exact congrArg (decodeShift _) (held_append_afterRead (u := u) (.inr rfl) hl hu)
  | _ h => simpa only [h] using bytes

/-- A read goes on inside the frame, with fewer bytes on the stream. -/
theorem TransferIn.goesOn_reads (hT : TransferIn s dst n reason onDone) (hb : s.busy = true) (hdst : s.frDst = dst)
    (hN : s.frN = n) (fits : FitsDst dst n s) (lacks : s.Lacks err) (hn : s.frGot < s.frN) (hrx : s.link.rx ≠ []) :
    ∃ t, GoesOn err s t := by
  obtain ⟨r, u, h0, hm, hl, hu, ht⟩ := hT.tick_reads hb hn hdst hN fits hrx
  obtain ⟨hcfg, hd, hlen⟩ := afterRead_keeps hu r
  refine ⟨s.afterRead u r, ht, ?_, ?_, ?_⟩
  · refine .transfers (hT.congr hd hlen hb hdst) (fun _ => ⟨hdst, hN, hN ▸ hm⟩) ?_
      (hT.lacks_afterRead lacks hb hdst hl hu)
    unfold FitsDst
    rw [hcfg]
    exact fits
  · rw [storeBytes_keeps hu]
    exact ⟨rfl, rfl, rfl, rfl, rfl, rfl, _, rfl, by simp [Event.isRx]⟩
  · have hstates : (s.afterRead u r).statesToGo = s.statesToGo := by
      unfold State.statesToGo
      rw [hd]
      rfl
    have hbusy : (s.afterRead u r).busy = s.busy := rfl
    have hrest : (s.afterRead u r).link.rx.length = s.link.rx.length - r := List.length_drop
    unfold State.actionsToGo
    rw [hstates, hbusy, hrest]
    omega

/-- Once the tag is whole, W goes to a state of the frame its tag selects, which lacks bytes as well (R143). -/
theorem inFrame_afterTag (hd : s.dstate = .sTag) (hb : s.busy = true) (hn : s.frGot = 2) (lacks : s.Lacks err) :
    InFrame err (afterTag s) ∧ (afterTag s).statesToGo < s.statesToGo := by
  have htake : (s.heldBytes .tag).take s.receivedCount = [s.tag[0], s.tag[1]] := by
    rw [State.receivedCount, if_pos hb, hn, State.heldBytes, toList_vector2]
    rfl
  have bytes := lacks.bytes
  simp only [State.LacksBytes, hd, htake, List.cons_append, List.nil_append, decode] at bytes
  unfold afterTag
  split at bytes <;> rename_i htag <;> simp only [htag]
  · obtain ⟨rfl, hlen⟩ := decodeGetinfo_eq_error bytes
    refine ⟨.transfers (.geSuffix rfl) (by simp) trivial ⟨by simp, ?_⟩, by simp [State.statesToGo, hd]⟩
    simpa [State.LacksBytes, State.receivedCount] using hlen
  · obtain ⟨rfl, hlen⟩ := decodeSettck_eq_error bytes
    refine ⟨.transfers (.seSuffix rfl (by simp)) (by simp) trivial ⟨by simp, ?_⟩,
      by simp [State.statesToGo, State.inPeriod, hd]⟩
    simpa [State.LacksBytes, State.receivedCount, State.inPeriod] using hlen
  · refine ⟨.transfers (.header rfl) (by simp) (Nat.le_refl 8) ⟨fun _ => decodeShift_eq_error bytes, ?_⟩,
      by simp [State.statesToGo, hd]⟩
    simpa [State.LacksBytes, State.receivedCount] using bytes
  · cases bytes

/-- Once the header is whole, the vectors it announces fit the buffers and are not whole (R115, R155). -/
theorem inFrame_afterHeader (hd : s.dstate = .sShHdr) (hb : s.busy = true) (hn : s.frGot = 8) (lacks : s.Lacks err) :
    InFrame err (afterHeader s) := by
  have htake : (s.heldBytes .hdr).take s.receivedCount =
      [s.hdr[0], s.hdr[1], s.hdr[2], s.hdr[3], s.hdr[4], s.hdr[5], s.hdr[6], s.hdr[7]] := by
    rw [State.receivedCount, if_pos hb, hn, State.heldBytes, toList_vector8]
    rfl
  have bytes := lacks.bytes
  simp only [State.LacksBytes, hd, htake, List.cons_append, List.nil_append, decodeShift] at bytes
  obtain ⟨hne, hcap, hlen⟩ := decodePayload_eq_error bytes
  exact .checks rfl ⟨fun _ => hne, hcap, hlen⟩

/-- A whole transfer of a frame that lacks bytes leads to a later one of the same frame. -/
theorem TransferIn.goesOn_completes (hT : TransferIn s dst n reason onDone) (hb : s.busy = true)
    (hN : s.frN = n) (hn : s.frGot = n) (fits : FitsDst dst n s) (lacks : s.Lacks err) :
    GoesOn err s (onDone s) := by
  have hgot : s.receivedCount = n := (if_pos hb).trans hn
  have bytes := lacks.bytes
  have next : InFrame err (onDone s) ∧ (onDone s).statesToGo < s.statesToGo := by
    cases hT with
    | tag hd => exact inFrame_afterTag hd hb hn lacks
    | header hd => exact ⟨inFrame_afterHeader hd hb hn lacks, by simp [State.statesToGo, hd, afterHeader]⟩
    | geSuffix hd =>
      simp only [State.LacksBytes, hd, hgot] at bytes
      omega
    | seSuffix hd hk =>
      have hlen : s.link.rx.length < 4 := by
        simp [State.LacksBytes, hd, hgot, State.inPeriod, hk hb] at bytes
        omega
      refine ⟨.transfers (.sePeriod hd rfl (by simp)) (fun _ => ⟨rfl, rfl, Nat.zero_le 4⟩) (Nat.le_refl 4)
        ⟨lacks.beyondTag, ?_⟩, by simp [State.statesToGo, hd, State.inPeriod, hk hb]⟩
      simpa [State.LacksBytes, hd, State.receivedCount, State.inPeriod] using hlen
    | sePeriod hd _ hk => simp [State.LacksBytes, hd, hgot, State.inPeriod, hk, hb] at bytes
    | tms hd =>
      have hlen : s.link.rx.length < s.byteLen.toNat := by
        simp only [State.LacksBytes, hd, hgot] at bytes
        omega
      refine ⟨.transfers (.tdi rfl) (by simp) fits ⟨fun _ => lacks.beyondTag (by simp [hd]), ?_⟩,
        by simp [State.statesToGo, hd]⟩
      simpa [State.LacksBytes, State.receivedCount] using hlen
    | tdi hd =>
      simp only [State.LacksBytes, hd, hgot] at bytes
      omega
  refine ⟨hT.tick_completes hb (by omega), next.1, .of_eq ?_, ?_⟩
  · cases hT with
    | tag => rw [afterTag_keeps]
    | _ => rfl
  · have hrx : (onDone s).link = s.link := by
      cases hT with
      | tag => rw [afterTag_keeps]
      | _ => rfl
    simp only [State.actionsToGo, hrx, hb]
    split <;> omega

/-- At the capacity check of a frame whose vectors fit and are not whole, W goes on to the TMS vector (R156). -/
theorem goesOn_checks (hd : s.dstate = .sShChk) (lacks : s.Lacks err) : GoesOn err s (runShChk s) := by
  obtain ⟨beyond, bytes⟩ := lacks
  simp only [State.LacksBytes, hd] at bytes
  obtain ⟨hcap, hlen⟩ := bytes
  refine ⟨by rw [tick, hd], ?_, .of_eq ?_, ?_⟩ <;> rw [runShChk_fits hcap]
  · refine .transfers (.tms rfl) (by simp) ((byteLen_exact s.bitCnt).trans_le hcap) ⟨fun _ => beyond (by simp [hd]), ?_⟩
    rw [← byteLen_exact] at hlen
    simpa [State.LacksBytes, State.receivedCount] using hlen
  · rfl
  · simp only [State.actionsToGo, State.statesToGo, State.goto_sets, State.goto_keeps, hd]
    split <;> omega

/-- A read that lacks bytes in a frame that lacks bytes fails with the reason for the frame's decoding error. -/
theorem TransferIn.awaitsByte (hT : TransferIn s dst n reason onDone) (hb : s.busy = true) (hN : s.frN = n)
    (lacks : s.Lacks err) (hn : s.frGot < s.frN) (hrx : s.link.rx = []) : AwaitsByte err s := by
  have htag : s.dstate = .sTag ↔ err = .truncatedTag := by
    refine ⟨fun hd => ?_, fun herr => of_not_not fun hd => lacks.beyondTag hd herr⟩
    have htwo : n = 2 := by cases hT <;> simp_all
    have hshort : ((s.heldBytes .tag).take s.receivedCount ++ s.link.rx).length < 2 := by
      simp only [State.receivedCount, hb, hrx, List.append_nil, List.length_take, if_true]
      omega
    have bytes := lacks.bytes
    simp only [State.LacksBytes, hd] at bytes
    rw [decode_of_length_lt hshort] at bytes
    cases bytes
    rfl
  refine ⟨⟨dst, n, onDone, ?_⟩, hb, hn, hrx⟩
  simpa only [← htag, ← hT.reason_eq] using hT

end

/-- In a frame that lacks bytes W goes on inside it, until it awaits the next byte. -/
theorem InFrame.goesOn_or_awaits {err : DecodeError} {s : State} (h : InFrame err s) :
    (∃ t, GoesOn err s t) ∨ AwaitsByte err s := by
  cases h with
  | checks hd lacks => exact .inl ⟨_, goesOn_checks hd lacks⟩
  | transfers hT registers fits lacks =>
    by_cases hb : s.busy = true
    · obtain ⟨hdst, hN, hle⟩ := registers hb
      by_cases hn : s.frGot < s.frN
      · by_cases hrx : s.link.rx = []
        · exact .inr (hT.awaitsByte hb hN lacks hn hrx)
        · exact .inl (hT.goesOn_reads hb hdst hN fits lacks hn hrx)
      · exact .inl ⟨_, hT.goesOn_completes hb hN (by omega) fits lacks⟩
    · exact .inl ⟨_, hT.goesOn_begins fits lacks (by simpa using hb)⟩

/-- W comes to await the next byte, with every byte there is consumed. -/
theorem InFrame.reaches_awaitsByte {err : DecodeError} {s : State} (h : InFrame err s) :
    ∃ k t, ticks k s = .next t ∧ ReadsOnly s t ∧ AwaitsByte err t := by
  rcases h.goesOn_or_awaits with ⟨t, ht⟩ | hs
  · obtain ⟨k, u, hu, hreads, hawaits⟩ := ht.inFrame.reaches_awaitsByte
    exact ⟨k + 1, u, by rw [ticks, ht.tick_eq, andThen_next, hu], ht.readsOnly.trans hreads, hawaits⟩
  · exact ⟨0, s, rfl, .of_eq rfl, hs⟩
termination_by s.actionsToGo
decreasing_by exact ht.progress

/-- A stream that ends while W awaits a byte ends the session (R85, R236). -/
theorem AwaitsByte.ticks_of_rxEnd {err : DecodeError} {s : State} (h : AwaitsByte err s) {e : Nat}
    (he : s.link.rxEnd = some e) : ticks 2 s = .next
      (((s.emit (.rx (s.frN - s.frGot) (-(e : Int)) [])).raise
        (if err = .truncatedTag then .tagRxEnd else .rxFail)).endSession) := by
  obtain ⟨_, _, _, hT⟩ := h.transfer
  rw [ticks, hT.tick_fails h.busy h.lacks h.rx he, andThen_next, ticks_one]
  rfl

/-- Settles O39: W comes to a read that lacks bytes, and the read and the termination step are two actions more. -/
theorem truncatedFrameEndsTheSession : Obligations.TruncatedFrameEndsTheSession := by
  intro s err e hd hb hdec he
  obtain ⟨k, t, ht, hreads, hawaits⟩ := (inFrame_of_decode hd hb hdec).reaches_awaitsByte
  obtain ⟨evs, htrace, hevs⟩ := hreads.trace
  have hall : ticks (k + 2) s = ticks 2 t := by rw [ticks_add, ht, andThen_next]
  refine ⟨k + 2, _, evs ++ [.rx (t.frN - t.frGot) (-(e : Int)) []],
    hall.trans (hawaits.ticks_of_rxEnd (hreads.rxEnd.trans he)), rfl, rfl, rfl, rfl, by simp [htrace], ?_, hawaits.rx,
    hreads.got, hreads.lines, hreads.tdoBuf⟩
  simpa [or_imp, forall_and, Event.isRx] using hevs

/-- Settles O40: W comes to a read that lacks bytes, and a read H does not answer holds it there. -/
theorem unfinishedFrameWaits : Obligations.UnfinishedFrameWaits := by
  intro s err hd hb hdec he
  obtain ⟨k, t, ht, hreads, hawaits⟩ := (inFrame_of_decode hd hb hdec).reaches_awaitsByte
  obtain ⟨_, _, _, hT⟩ := hawaits.transfer
  refine ⟨k, t, ht, ?_, hawaits.busy, hreads.sessActive, hreads.stream, hawaits.rx, hreads.got, hreads.lines⟩
  rw [step_of_busy hawaits.busy, hT.tick_waits hawaits.busy hawaits.lacks hawaits.rx (hreads.rxEnd.trans he)]

/-! ### Frames and their bytes -/

/-- A tag that selects a command is that command's, byte for byte (R117). -/
theorem commandOfTag_eq_some {t0 t1 : Byte} {c : Command} (h : commandOfTag t0 t1 = some c) :
    [t0, t1] = match c with
      | .getinfo => [0x67, 0x65]
      | .settck => [0x73, 0x65]
      | .shift => [0x73, 0x68] := by
  unfold commandOfTag at h
  split at h
  case isTrue ht => cases h; simp [ht]
  case isFalse =>
    split at h
    case isTrue ht => cases h; simp [ht]
    case isFalse =>
      split at h <;> cases h
      simp [*]

/-- A tag that selects no command is that of an invalid frame (R117). -/
theorem tagIsCommand_of_commandOfTag {t0 t1 : Byte} (h : commandOfTag t0 t1 = none) :
    WellFormed.tagIsCommand #v[t0, t1] = false := by
  simp only [WellFormed.tagIsCommand, Bool.or_eq_false_iff, beq_eq_false_iff_ne]
  refine ⟨⟨?_, ?_⟩, ?_⟩ <;> intro he <;> simp at he <;> rw [he.1, he.2] at h <;> cases h

theorem encode_of_decodeGetinfo {bytes : List Byte} {i : Instr} {rest : List Byte}
    (h : decodeGetinfo bytes = .ok (i, rest)) :
    ∃ suffix, i = .getinfo suffix ∧ suffix.toList ++ rest = bytes := by
  unfold decodeGetinfo at h
  split at h <;> cases h
  exact ⟨_, rfl, rfl⟩

theorem encode_of_decodeSettck {bytes : List Byte} {i : Instr} {rest : List Byte}
    (h : decodeSettck bytes = .ok (i, rest)) :
    ∃ suffix period, i = .settck suffix period ∧ suffix.toList ++ (le32bytes period).toList ++ rest = bytes := by
  unfold decodeSettck at h
  split at h <;> cases h
  refine ⟨_, _, rfl, ?_⟩
  rw [le32bytes_le32]
  rfl

theorem encode_of_decodePayload {capacity : Nat} {suffix : Vector Byte 4} {n : BitVec 32} {bytes : List Byte}
    {i : Instr} {rest : List Byte} (h : decodePayload capacity suffix n bytes = .ok (i, rest)) :
    ∃ tms tdi, i = .shift suffix n tms tdi ∧ WellFormed capacity i ∧ tms ++ tdi ++ rest = bytes := by
  simp only [decodePayload] at h
  split at h
  case isFalse hcap =>
    cases h
    exact ⟨[], [], rfl, by simp [WellFormed, Instr.wellFormed, WellFormed.vectorsFit, hcap], rfl⟩
  case isTrue hcap =>
    split at h
    case isTrue => cases h
    case isFalse =>
      split at h <;> cases h
      refine ⟨_, _, rfl, ?_, ?_⟩
      · simp only [WellFormed, Instr.wellFormed, WellFormed.vectorsFit, hcap, if_true, Bool.and_eq_true, beq_iff_eq,
          List.length_take, List.length_drop]
        omega
      · rw [Nat.two_mul, ← List.drop_drop, List.append_assoc, List.take_append_drop, List.take_append_drop]

theorem encode_of_decodeShift {capacity : Nat} {bytes : List Byte} {i : Instr} {rest : List Byte}
    (h : decodeShift capacity bytes = .ok (i, rest)) :
    ∃ suffix n tms tdi, i = .shift suffix n tms tdi ∧ WellFormed capacity i ∧
      suffix.toList ++ (le32bytes n).toList ++ tms ++ tdi ++ rest = bytes := by
  unfold decodeShift at h
  split at h
  case h_2 => cases h
  case h_1 =>
    obtain ⟨tms, tdi, hi, hwf, rfl⟩ := encode_of_decodePayload h
    refine ⟨_, _, tms, tdi, hi, hwf, ?_⟩
    rw [le32bytes_le32]
    simp

/-- What the decoder gives is well formed, and its frame is the bytes consumed (30_encoding.md R121). -/
theorem wellFormed_and_encode_of_decode {capacity : Nat} {bytes : List Byte} {i : Instr} {rest : List Byte}
    (h : decode capacity bytes = .ok (i, rest)) : WellFormed capacity i ∧ encode i ++ rest = bytes := by
  unfold decode at h
  split at h
  case h_2 => cases h
  case h_1 t0 t1 behind =>
    have htag {c : Command} (hc : commandOfTag t0 t1 = some c) := commandOfTag_eq_some hc
    split at h
    case h_1 hc =>
      obtain ⟨suffix, rfl, rfl⟩ := encode_of_decodeGetinfo h
      exact ⟨rfl, congrArg (· ++ (suffix.toList ++ rest)) (htag hc).symm⟩
    case h_2 hc =>
      obtain ⟨suffix, period, rfl, rfl⟩ := encode_of_decodeSettck h
      refine ⟨rfl, ?_⟩
      simpa [encode] using (htag hc).symm
    case h_3 hc =>
      obtain ⟨suffix, n, tms, tdi, rfl, hwf, rfl⟩ := encode_of_decodeShift h
      refine ⟨hwf, ?_⟩
      simpa [encode] using (htag hc).symm
    case h_4 hc =>
      cases h
      exact ⟨by simp [WellFormed, Instr.wellFormed, tagIsCommand_of_commandOfTag hc], rfl⟩

/-- Vectors that fit are given back, with the bytes behind them. -/
theorem decodePayload_append {capacity : Nat} {suffix : Vector Byte 4} {n : BitVec 32} {tms tdi : List Byte}
    (h : WellFormed capacity (.shift suffix n tms tdi)) (rest : List Byte) :
    decodePayload capacity suffix n (tms ++ tdi ++ rest) = .ok (.shift suffix n tms tdi, rest) := by
  simp only [WellFormed, Instr.wellFormed, WellFormed.vectorsFit] at h
  unfold decodePayload
  split at h
  case isTrue hcap =>
    simp only [Bool.and_eq_true, beq_iff_eq] at h
    obtain ⟨htms, htdi⟩ := h
    simp only [hcap, if_true, List.length_append]
    rw [if_neg (by omega), if_neg (by omega)]
    simp [← htms, Nat.two_mul, ← List.drop_drop, htms.trans htdi.symm]
  case isFalse hcap =>
    simp only [Bool.and_eq_true, List.isEmpty_iff] at h
    obtain ⟨rfl, rfl⟩ := h
    simp [hcap]

/-- The decoder gives a well-formed command back from its frame, whatever stands behind it. -/
theorem decode_encode_append {capacity : Nat} {i : Instr} (hi : WellFormed capacity i) (rest : List Byte) :
    decode capacity (encode i ++ rest) = .ok (i, rest) := by
  cases i with
  | getinfo suffix => simp [encode, decode, commandOfTag, toList_vector6, decodeGetinfo, vector6_eta]
  | settck suffix period =>
    simp [encode, decode, commandOfTag, toList_vector5, toList_vector4, decodeSettck, vector5_eta, le32_le32bytes]
  | shift suffix n tms tdi =>
    have h := decodePayload_append hi rest
    simpa [encode, decode, commandOfTag, toList_vector4, decodeShift, vector4_eta, le32_le32bytes] using h
  | invalid tag =>
    have htag : WellFormed.tagIsCommand tag = false := by simpa [WellFormed, Instr.wellFormed] using hi
    simp [encode, toList_vector2, decode, commandOfTag_of_invalid htag, vector2_eta]

/-- When the last bytes complete a frame, some of them belong to it. -/
theorem rest_length_lt_of_completes {capacity : Nat} {bytes last : List Byte} {err : DecodeError} {i : Instr}
    {rest : List Byte} (herr : decode capacity bytes = .error err)
    (hok : decode capacity (bytes ++ last) = .ok (i, rest)) : rest.length < last.length := by
  obtain ⟨hi, heq⟩ := wellFormed_and_encode_of_decode hok
  have short : bytes.length < (encode i).length := by
    by_contra hle
    obtain ⟨tail, rfl⟩ : encode i <+: bytes :=
      List.prefix_of_prefix_length_le ⟨rest, heq⟩ (List.prefix_append _ _) (Nat.le_of_not_lt hle)
    rw [decode_encode_append hi] at herr
    cases herr
  have := congrArg List.length heq
  simp only [List.length_append] at this
  omega

/-! ### A command reads its frame only -/

theorem respWrite_rx {bytes : List Byte} {s t : State} (h : respWrite bytes s = .next t) : t.link.rx = s.link.rx := by
  cases responseAction_of_respWrite h <;> rfl

theorem finish_rx {s t : State} (h : finish s = .next t) : t.link.rx = s.link.rx := by
  cases h
  split <;> rfl

/-- A command leaves the bytes behind its frame on the stream. -/
theorem exec_rx {s t : State} {i : Instr} (hi : WellFormed s.cfg.capacityBytes i) (h : exec i s = .next t) :
    t.link.rx = s.link.rx := by
  rcases exec_responds_or_ends hi with ⟨u, resp, hu⟩ | ⟨_, u, hu, hrx⟩
  · rw [hu.exec_eq, hu.tick_eq] at h
    obtain ⟨v, hv, hfin⟩ := andThen_eq_next.mp h
    obtain ⟨w, hw, hv⟩ := andThen_eq_next.mp hv
    cases hv
    rw [finish_rx hfin, afterWrite_keeps]
    exact (respWrite_rx hw).trans (by rw [hu.link])
  · cases hu.symm.trans h
    exact hrx

/-! ### A frame in pieces -/

/-- With `more` behind what H has sent, W comes to the answer `o`, but for its reads, however H splits them. -/
def Completes (o : Result State) (more : List Byte) (s : State) : Prop :=
  ∀ splits, ∃ k, SameAnswer o (ticks k (s.withMore more splits))

/-- At a frame boundary, W comes to what the command answers (R8, R45, R164). -/
theorem completes_exec {s : State} {more : List Byte} {i : Instr} {rest : List Byte} (hd : s.dstate = .sTag)
    (hb : s.busy = false) (hok : decode s.cfg.capacityBytes (s.link.rx ++ more) = .ok (i, rest)) :
    Completes (exec i (s.withRx rest)) more s := by
  intro splits
  obtain ⟨hi, heq⟩ := wellFormed_and_encode_of_decode hok
  obtain ⟨k, hk, _⟩ := reach_exec i ((s.withRx rest).resplit splits s.trace)
  refine ⟨k, ?_⟩
  have hs : ((s.withRx rest).resplit splits s.trace).beginFrame (encode i) = s.withMore more splits := by
    simp only [State.beginFrame, State.withMore, State.resplit, State.withRx, heq, ← hd, ← hb]
  rw [← hs, hk]
  exact sameAnswer_exec (s := s.withRx rest) hi splits

/-- The bytes H has sent do not complete the frame W is in, not with those of `soon` either; those of `last` do, and
then W comes to the answer `o`, with less than `last` left on the stream. -/
structure BetweenPieces (err : DecodeError) (o : Result State) (soon last : List Byte) (s : State) : Prop where
  rxEnd : s.link.rxEnd = none
  inFrame : ∀ splits, InFrame err (s.withMore soon splits)
  completes : Completes o (soon ++ last) s
  leaves : ∀ t, o = .next t → t.link.rx.length < last.length

theorem InFrame.dstate_ne_wait {err : DecodeError} {s : State} (h : InFrame err s) : s.dstate ≠ .sWait := by
  cases h with
  | transfers hT => exact hT.dstate_ne_wait
  | checks hd => simp [hd]

/-- W's next action in a frame that lacks bytes answers a next state, still in such a frame. -/
theorem InFrame.tick_next {err : DecodeError} {s : State} (h : InFrame err s) (he : s.link.rxEnd = none) :
    ∃ t, tick s = .next t ∧ InFrame err t := by
  rcases h.goesOn_or_awaits with ⟨t, ht⟩ | hs
  · exact ⟨t, ht.tick_eq, ht.inFrame⟩
  · obtain ⟨_, _, _, hT⟩ := hs.transfer
    exact ⟨s, hT.tick_waits hs.busy hs.lacks hs.rx he, h⟩

section

variable {err : DecodeError} {o : Result State} {soon last : List Byte} {s : State}

/-- An action that does not wait is the first of those that lead to the answer. -/
theorem BetweenPieces.completes_tick (h : BetweenPieces err o soon last s) {t : State} (ht : tick s = .next t)
    (hmore : ∀ more splits, ∃ before,
      tick (s.withMore more before) = andThen (tick s) fun t => .next (t.withMore more splits)) :
    Completes o (soon ++ last) t := by
  intro splits
  obtain ⟨before, hbefore⟩ := hmore (soon ++ last) splits
  obtain ⟨k, hk⟩ := h.completes before
  rw [ht, andThen_next] at hbefore
  cases k with
  | succ k =>
    rw [ticks, hbefore, andThen_next] at hk
    exact ⟨k, hk⟩
  | zero =>
    rcases hk with ⟨u, _, ho, hu, splits', tr, rfl, _⟩ | ⟨_, _, hu⟩
    · have hlen := h.leaves u ho
      have hrx : s.link.rx ++ (soon ++ last) = u.link.rx := congrArg (·.link.rx) (Host.Outcome.next.inj hu)
      rw [← hrx] at hlen
      simp only [List.length_append] at hlen
      omega
    · cases hu

theorem BetweenPieces.tick (h : BetweenPieces err o soon last s) :
    ∃ t, tick s = .next t ∧ BetweenPieces err o soon last t := by
  have hd : s.dstate ≠ .sWait := (h.inFrame []).dstate_ne_wait
  rcases tick_withMore s h.rxEnd hd with hwait | hmore
  · exact ⟨s, hwait, h⟩
  · obtain ⟨before, hbefore⟩ := hmore soon []
    obtain ⟨t', ht', _⟩ := (h.inFrame before).tick_next h.rxEnd
    obtain ⟨t, ht, _⟩ := andThen_eq_next.mp (hbefore.symm.trans ht')
    refine ⟨t, ht, (tick_rxEnd hd ht).trans h.rxEnd, fun splits => ?_, h.completes_tick ht hmore, h.leaves⟩
    obtain ⟨before, hbefore⟩ := hmore soon splits
    obtain ⟨u, hu, hin⟩ := (h.inFrame before).tick_next h.rxEnd
    rw [hbefore, ht] at hu
    cases hu
    exact hin

theorem BetweenPieces.ticks (h : BetweenPieces err o soon last s) (k : Nat) :
    ∃ t, ticks k s = .next t ∧ BetweenPieces err o soon last t := by
  induction k generalizing s with
  | zero => exact ⟨s, rfl, h⟩
  | succ k ih =>
    obtain ⟨t, ht, hbetween⟩ := h.tick
    obtain ⟨u, hu, hbetween⟩ := ih hbetween
    exact ⟨u, by rw [Machine.ticks, ht, andThen_next, hu], hbetween⟩

/-- What H sends next was to come soon. -/
theorem BetweenPieces.hostSends {piece : List Byte} (h : BetweenPieces err o (piece ++ soon) last s) :
    BetweenPieces err o soon last (s.hostSends piece) where
  rxEnd := h.rxEnd
  inFrame splits := by simpa [State.withMore, State.hostSends] using h.inFrame splits
  completes splits := by simpa [State.withMore, State.hostSends] using h.completes splits
  leaves := h.leaves

end

/-- Once the last piece is sent, W comes to the answer. -/
theorem BetweenPieces.completes_of_pieces {err : DecodeError} {o : Result State} {last : Nat × List Byte} :
    ∀ {pieces : List (Nat × List Byte)} {s : State},
      BetweenPieces err o (pieces.flatMap Prod.snd) last.2 s →
      ∃ t k, State.hostSendsInPieces (pieces ++ [last]) s = .next t ∧ SameAnswer o (Machine.ticks k t)
  | [], s, h => by
    obtain ⟨t, ht, hbetween⟩ := h.ticks last.1
    obtain ⟨k, hk⟩ := hbetween.completes t.link.splits
    exact ⟨t.hostSends last.2, k, by simp [State.hostSendsInPieces, ht], hk⟩
  | (j, piece) :: pieces, s, h => by
    obtain ⟨t, ht, hbetween⟩ := h.ticks j
    obtain ⟨u, k, hu, hk⟩ := (BetweenPieces.hostSends hbetween).completes_of_pieces
    exact ⟨u, k, by rw [List.cons_append, State.hostSendsInPieces, ht, andThen_next, hu], hk⟩

/-- Settles O16: between the pieces W stays inside the frame, and what leads to the answer from there is what is left of
the command's own actions. -/
theorem frameInPiecesIsTheWholeFrame : Obligations.FrameInPiecesIsTheWholeFrame := by
  intro s pieces last err i rest hd hb he herr hok
  have hi := (wellFormed_and_encode_of_decode hok).1
  have start : BetweenPieces err (exec i (s.withRx rest)) (pieces.flatMap Prod.snd) last.2 s := by
    refine ⟨he, fun splits => inFrame_of_decode hd hb herr, completes_exec hd hb ?_, fun t ht => ?_⟩
    · rwa [← List.append_assoc]
    · rw [exec_rx (s := s.withRx rest) hi ht]
      exact rest_length_lt_of_completes herr hok
  obtain ⟨t, k, ht, ⟨v, _, hv, hu, splits, tr, rfl, hfilter, hdata⟩ | ⟨r, hr, hk⟩⟩ := start.completes_of_pieces
  · exact ⟨t, k, ht, .inl ⟨_, v, hu, hv, rfl, hfilter, hdata⟩⟩
  · exact ⟨t, k, ht, .inr ⟨r, hk, hr⟩⟩

end Sys2Proof.Machine
end

section
/-! PROOFS of 30_encoding.md: decoder and encoder are inverse (R112 to R115), the tag alone selects the command (R117,
R119), frame lengths (R121), the decimal spelling (R116), table words (R118), the assembly lines (R126, R127), and that
the padding bits of a shift's vectors have no effect (R115, R189). -/

namespace Sys2Proof.Machine

/-! ### Tags and frame lengths -/

/-- The frame of a well-formed command has the length R121 gives it. -/
theorem encode_length {capacity : Nat} {i : Instr} (hi : WellFormed capacity i) :
    (encode i).length = frameLength capacity i := by
  cases i with
  | getinfo suffix => exact Laws.EncodeLength.getinfo suffix capacity hi
  | settck suffix period => exact Laws.EncodeLength.settck suffix period capacity hi
  | shift suffix n tms tdi => exact Laws.EncodeLength.shift suffix n tms tdi capacity hi
  | invalid tag => exact Laws.EncodeLength.invalid tag capacity hi

/-- A tag is no command's exactly when it differs from all three (R117). -/
theorem tagIsCommand_eq_false_iff {t0 t1 : Byte} : WellFormed.tagIsCommand #v[t0, t1] = false ↔
    ¬ (t0 = 0x67 ∧ t1 = 0x65) ∧ ¬ (t0 = 0x73 ∧ t1 = 0x65) ∧ ¬ (t0 = 0x73 ∧ t1 = 0x68) := by
  simp [WellFormed.tagIsCommand, and_assoc]

/-- The tag bytes of a well-formed invalid frame are no command's. -/
theorem tag_of_wellFormed_invalid {capacity : Nat} {tag : Vector Byte 2} (h : WellFormed capacity (.invalid tag)) :
    ¬ (tag[0] = 0x67 ∧ tag[1] = 0x65) ∧ ¬ (tag[0] = 0x73 ∧ tag[1] = 0x65) ∧ ¬ (tag[0] = 0x73 ∧ tag[1] = 0x68) := by
  rw [← tagIsCommand_eq_false_iff, vector2_eta]
  simpa [WellFormed, Instr.wellFormed] using h

/-- The constructor of a well-formed command is the one the first two bytes of its frame select (R117). -/
theorem constructor_of_tag {capacity : Nat} {t0 t1 : Byte} {bytes : List Byte} {i : Instr} {rest : List Byte}
    (hi : WellFormed capacity i) (heq : encode i ++ rest = t0 :: t1 :: bytes) :
    ((∃ x, i = .getinfo x) ↔ t0 = 0x67 ∧ t1 = 0x65) ∧
    ((∃ x p, i = .settck x p) ↔ t0 = 0x73 ∧ t1 = 0x65) ∧
    ((∃ x n t d, i = .shift x n t d) ↔ t0 = 0x73 ∧ t1 = 0x68) ∧
    (i = .invalid #v[t0, t1] ↔
      ¬ (t0 = 0x67 ∧ t1 = 0x65) ∧ ¬ (t0 = 0x73 ∧ t1 = 0x65) ∧ ¬ (t0 = 0x73 ∧ t1 = 0x68)) := by
  cases i with
  | getinfo suffix =>
    obtain ⟨rfl, rfl, _⟩ : 0x67 = t0 ∧ 0x65 = t1 ∧ _ := by simpa [encode] using heq
    simp
  | settck suffix period =>
    obtain ⟨rfl, rfl, _⟩ : 0x73 = t0 ∧ 0x65 = t1 ∧ _ := by simpa [encode] using heq
    simp
  | shift suffix n tms tdi =>
    obtain ⟨rfl, rfl, _⟩ : 0x73 = t0 ∧ 0x68 = t1 ∧ _ := by simpa [encode] using heq
    simp
  | invalid tag =>
    obtain ⟨rfl, rfl, _⟩ : tag[0] = t0 ∧ tag[1] = t1 ∧ _ := by simpa [encode, toList_vector2] using heq
    obtain ⟨hge, hse, hsh⟩ := tag_of_wellFormed_invalid hi
    simp only [reduceCtorEq, exists_false, hge, hse, hsh, vector2_eta, not_false_eq_true, and_self]

/-- The bit count of a shift stands in bytes 6 to 9 of its frame (R114). -/
theorem bitCount_of_shift_frame {suffix : Vector Byte 4} {n : BitVec 32} {tms tdi bytes rest : List Byte}
    (h : bytes = encode (.shift suffix n tms tdi) ++ rest) :
    le32 (bytes.getD 6 0) (bytes.getD 7 0) (bytes.getD 8 0) (bytes.getD 9 0) = n := by
  simp [h, encode, toList_vector4, le32_le32bytes]

/-! ### The obligations on frames -/

/-- Settles O4: by the decoder's lemma on a frame with bytes behind it. -/
theorem decodeOfEncode : Obligations.DecodeOfEncode := fun _ _ rest hi => decode_encode_append hi rest

/-- Settles O5: by the decoder's lemma on what it reads. -/
theorem encodeOfDecode : Obligations.EncodeOfDecode := fun _ _ _ _ h => wellFormed_and_encode_of_decode h

/-- Settles O6: the frame is the command's encoding, whose length the constructor gives; a shift's count stands in
bytes 6 to 9. -/
theorem frameLengthFromFirstBytes : Obligations.FrameLengthFromFirstBytes := by
  intro capacity bytes i rest h
  obtain ⟨hi, rfl⟩ := wellFormed_and_encode_of_decode h
  refine ⟨encode i, rfl, ?_⟩
  rw [encode_length hi]
  cases i with
  | getinfo suffix => simp [encode, frameLength]
  | settck suffix period => simp [encode, frameLength]
  | shift suffix n tms tdi =>
    rw [bitCount_of_shift_frame rfl]
    exact ⟨by simp [encode], by simp [encode], fun _ => rfl, by simp [encode]⟩
  | invalid tag =>
    have htake : (encode (.invalid tag) ++ rest).take 2 = [tag[0], tag[1]] := by simp [encode, toList_vector2]
    simp only [htake, List.cons.injEq, and_true, tag_of_wellFormed_invalid hi, false_implies, true_and]
    exact fun _ _ _ => rfl

/-- Settles O7: what the decoder reads is well formed with its frame in front, and the suffix of a frame is any. -/
theorem tagSelectsCommand : Obligations.TagSelectsCommand := by
  refine ⟨fun capacity t0 t1 bytes i rest h => ?_, fun _ _ _ _ _ _ _ _ => rfl, fun _ _ _ _ _ _ _ _ _ _ _ => rfl,
    fun capacity a b c d n0 n1 n2 n3 tms tdi rest => ⟨fun hcap htms htdi => ?_, fun hcap => ?_⟩⟩
  · obtain ⟨hi, heq⟩ := wellFormed_and_encode_of_decode h
    exact constructor_of_tag hi heq
  · exact decodePayload_append (by simp [WellFormed, Instr.wellFormed, WellFormed.vectorsFit, ceilDiv8, *]) rest
  · exact decodePayload_append (tms := []) (tdi := [])
      (by simp [WellFormed, Instr.wellFormed, WellFormed.vectorsFit, ceilDiv8, Nat.not_le.mpr hcap]) rest

/-- Settles O3: the decoder runs on each frame. -/
theorem specFramesDecode : Obligations.SpecFramesDecode := by
  unfold Obligations.SpecFramesDecode
  decide

/-! ### The decimal spelling -/

/-- Above 0, the loop puts the base-10 digits in front of what it has, most significant first (R116). -/
theorem decDigits_eq_digits : ∀ {fuel v : Nat} {acc : List Byte}, v < fuel → 0 < v →
    decDigits fuel v acc = ((Nat.digits 10 v).reverse.map fun d => BitVec.ofNat 8 (0x30 + d)) ++ acc
  | fuel + 1, v, acc, hfuel, hv => by
    rw [decDigits, Nat.digits_def' (by decide) hv]
    by_cases hlast : v / 10 = 0
    · simp [hlast]
    · rw [if_neg hlast, decDigits_eq_digits (by omega) (Nat.pos_of_ne_zero hlast)]
      simp

/-- Settles O9: 0 is one digit, and any other number goes by its digits. -/
theorem decIsDecimal : Obligations.DecIsDecimal := by
  refine ⟨rfl, fun v hv => ?_⟩
  rw [dec, decDigits_eq_digits (Nat.lt_succ_self v) hv, List.append_nil]

/-! ### Table words -/

/-- Bytes that are exactly a payload decode with nothing behind them (R121). -/
theorem exists_decodePayload {capacity : Nat} (suffix : Vector Byte 4) {n : BitVec 32} {bytes : List Byte}
    (h : bytes.length = if ceilDiv8 n.toNat ≤ capacity then 2 * ceilDiv8 n.toNat else 0) :
    ∃ i, decodePayload capacity suffix n bytes = .ok (i, []) := by
  have hsplit : bytes = bytes.take (ceilDiv8 n.toNat) ++ bytes.drop (ceilDiv8 n.toNat) ++ [] := by simp
  rw [hsplit]
  refine ⟨_, decodePayload_append ?_ []⟩
  simp only [WellFormed, Instr.wellFormed, WellFormed.vectorsFit]
  split at h
  case isTrue hcap =>
    rw [if_pos hcap, List.length_take, List.length_drop]
    simp only [Bool.and_eq_true, beq_iff_eq]
    omega
  case isFalse hcap =>
    simp [if_neg hcap, List.eq_nil_of_length_eq_zero h]

/-- A table word's frame is cut where R121 ends it, so it decodes with nothing behind it (R118, R124). -/
theorem exists_decode_tableFrame (capacity nbits w : Nat) :
    ∃ i, decode capacity (tableFrame capacity nbits w) = .ok (i, []) := by
  rcases hc : commandOfTag (tableByte nbits w 0) (tableByte nbits w 1) with _ | c
  case none =>
    have hlen : tableFrameLength capacity nbits w = 2 := by simp [tableFrameLength, hc]
    rw [tableFrame, hlen]
    exact ⟨.invalid #v[tableByte nbits w 0, tableByte nbits w 1], by simp [tableBytes, List.range_succ, decode, hc]⟩
  case some =>
    cases c with
    | getinfo =>
      have hlen : tableFrameLength capacity nbits w = 8 := by simp [tableFrameLength, hc]
      rw [tableFrame, hlen]
      simp [tableBytes, List.range_succ, decode, hc, decodeGetinfo]
    | settck =>
      have hlen : tableFrameLength capacity nbits w = 11 := by simp [tableFrameLength, hc]
      rw [tableFrame, hlen]
      simp [tableBytes, List.range_succ, decode, hc, decodeSettck]
    | shift =>
      obtain ⟨n, hn⟩ : ∃ n, n = le32 (tableByte nbits w 6) (tableByte nbits w 7) (tableByte nbits w 8)
        (tableByte nbits w 9) := ⟨_, rfl⟩
      have hlen : tableFrameLength capacity nbits w =
          10 + if ceilDiv8 n.toNat ≤ capacity then 2 * ceilDiv8 n.toNat else 0 := by
        simp only [tableFrameLength, hc, ← hn]
        split <;> rfl
      rw [tableFrame, hlen, tableBytes, List.range_add]
      simp only [List.range_succ, List.range_zero, List.map_cons, List.nil_append, List.cons_append, decode, hc,
        decodeShift, ← hn]
      exact exists_decodePayload _ (by simp)

/-- At a frame boundary with a whole frame, a step is its command, run without the frame's bytes (log 8). -/
theorem step_of_decode {s : State} {i : Instr} {rest : List Byte} (hd : s.dstate = .sTag) (hb : s.busy = false)
    (hok : decode s.cfg.capacityBytes s.link.rx = .ok (i, rest)) : step s = exec i (s.withRx rest) := by
  simp [step, frameAt, State.atFrameBoundary, hd, hb, hok]

/-- Settles O14: the word's frame decodes, and with H's bytes behind it the decoder gives the same command. -/
theorem tableWordRunsNext : Obligations.TableWordRunsNext := by
  intro s nbits w hcfg
  obtain ⟨i, hok⟩ := exists_decode_tableFrame Config.deployment.capacityBytes nbits w
  obtain ⟨hi, heq⟩ := wellFormed_and_encode_of_decode hok
  rw [List.append_nil] at heq
  refine ⟨i, by rw [decodeTableWord, hok], ?_⟩
  rw [step_of_decode (s := s.withFetchWord nbits w) (i := i) (rest := s.link.rx) rfl rfl]
  · rfl
  · simp only [State.withFetchWord, State.beginFrame, hcfg, ← heq]
    exact decode_encode_append hi _

/-! ### The assembly lines -/

/-- Bit `k` of the byte made of listed bits is the `k`-th of them, and 0 where there is none (R71). -/
theorem bitOf_byteOfBits : ∀ (bits : List Bool) {k : Nat}, k < 8 → bitOf (byteOfBits bits) k = bits.getD k false
  | [], k, _ => by simp [byteOfBits, bitOf]
  | b :: bs, 0, _ => by cases b <;> simp [byteOfBits, bitOf]
  | b :: bs, k + 1, hk => by
    have ih := bitOf_byteOfBits bs (k := k) (by omega)
    have hlow : (if b then 1 else 0 : Byte).getLsbD (k + 1) = false := by cases b <;> simp
    rw [bitOf, byteOfBits, BitVec.getLsbD_or, hlow, Bool.or_false, BitVec.getLsbD_shiftLeft]
    simpa [bitOf, hk] using ih

/-- A packed vector has the bytes its bits need (R127). -/
theorem length_packBits (bits : List Bool) : (packBits bits).length = ceilDiv8 bits.length := by simp [packBits]

/-- Bit `i` of a packed vector is the `i`-th listed bit, and its padding bits are 0 (R71, R127). -/
theorem vectorBit_packBits (bits : List Bool) (i : Nat) : vectorBit (packBits bits) i = bits.getD i false := by
  unfold vectorBit packBits
  by_cases hi : i / 8 < ceilDiv8 bits.length
  · rw [List.getD_eq_getElem?_getD, List.getElem?_map, List.getElem?_range hi, Option.map_some, Option.getD_some,
      bitOf_byteOfBits _ (Nat.mod_lt _ (by decide)), List.getD_eq_getElem?_getD, List.getElem?_take_of_lt
      (Nat.mod_lt _ (by decide)), List.getElem?_drop, Nat.div_add_mod, ← List.getD_eq_getElem?_getD]
  · have hge : bits.length ≤ i := by unfold ceilDiv8 at hi; omega
    rw [List.getD_eq_default _ _ (by simpa using hi), List.getD_eq_default _ _ hge]
    simp [bitOf]

/-- `SHIFT n, T, D` is its frame when both vectors have the bytes `n` bits need, and an error otherwise (R126). -/
theorem assembly_shift_eq_some_iff {n : BitVec 32} {t d : List Byte} {i : Instr} :
    Assembly.shift n t d = some i ↔
      (t.length = ceilDiv8 n.toNat ∧ d.length = ceilDiv8 n.toNat) ∧ i = .shift Assembly.ift n t d := by
  rw [Assembly.shift, Option.ite_none_right_eq_some, Option.some.injEq, eq_comm (a := i)]

/-- Settles O11: `SHIFT` by its check of the lengths, `SHIFTBITS` by the bits of packed vectors. -/
theorem assemblyExpandsToFrames : Obligations.AssemblyExpandsToFrames := by
  refine ⟨fun n t d => ?_, fun capacity n t d i hcap h => ?_, fun t d hlen hfits => ?_⟩
  · rw [Bool.eq_iff_iff, Option.isSome_iff_exists]
    simp [assembly_shift_eq_some_iff, ceilDiv8]
  · obtain ⟨⟨ht, hd⟩, rfl⟩ := assembly_shift_eq_some_iff.mp h
    refine ⟨?_, rfl⟩
    simp [WellFormed, Instr.wellFormed, WellFormed.vectorsFit, ht, hd, show ceilDiv8 n.toNat ≤ capacity from hcap]
  · have hn : (BitVec.ofNat 32 t.length).toNat = t.length := by
      rw [BitVec.toNat_ofNat, Nat.mod_eq_of_lt hfits]
    refine ⟨packBits t, packBits d, ?_, length_packBits t, ?_, vectorBit_packBits t, vectorBit_packBits d⟩
    · rw [Assembly.shiftbits, if_pos ⟨hlen, hfits⟩, assembly_shift_eq_some_iff, length_packBits, length_packBits, hn,
        hlen]
      exact ⟨⟨rfl, rfl⟩, rfl⟩
    · rw [length_packBits, hlen]
      rfl

/-! ### Padding bits -/

/-- What T presents depends on the levels TDI has at the reads only. -/
theorem Target.draws_congr {d d' : Nat → Bool} : ∀ {k i : Nat} (tg : Target) (idx : Nat),
    (∀ j, i ≤ j → j < i + k → d' j = d j) → Target.draws d' i k tg idx = Target.draws d i k tg idx
  | 0, _, _, _, _ => rfl
  | k + 1, i, tg, idx, h => by
    simp only [Target.draws, h i (by omega) (by omega)]
    rw [Target.draws_congr _ _ fun j hlo hhi => h j (by omega) (by omega)]

/-- A shift's events depend on the bits below its bit count only (R192). -/
theorem shiftEvents_congr {n : Nat} {t t' d d' : Nat → Bool} (s : Nat → Bool)
    (h : ∀ i, i < n → t' i = t i ∧ d' i = d i) : shiftEvents n t' d' s = shiftEvents n t d s := by
  simp only [shiftEvents]
  congr 2
  refine List.flatMap_congr fun i hi => ?_
  obtain ⟨ht, hd⟩ := h i (List.mem_range.mp hi)
  rw [ht, hd]

/-- Reads are no GPIO events. -/
theorem Receives.filter_isGpio {evs : List Event} {bytes : List Byte} (h : Receives evs bytes) :
    evs.filter Event.isGpio = [] := by
  rw [List.filter_eq_nil_iff]
  intro e he
  have := h.allReads e he
  cases e <;> simp_all [Event.isRead, Event.isGpio]

/-- Two states alike in what a shift does to T and H: the GPIO events, `TDO_BUF`, the lines, H's answers and bytes, and
the place of W. -/
structure AlikeOutside (t u : State) : Prop where
  gpio : u.trace.filter Event.isGpio = t.trace.filter Event.isGpio
  tdoBuf : u.tdoBuf = t.tdoBuf
  lines : u.lines = t.lines
  writes : u.link.writes = t.link.writes
  got : u.link.got = t.link.got
  dstate : u.dstate = t.dstate

/-- The same refusal, or states alike in what a shift does to T and H. -/
def AnswersAlikeOutside (o p : Result State) : Prop :=
  (∃ t u, o = .next t ∧ p = .next u ∧ AlikeOutside t u) ∨ ∃ r, o = .refused r ∧ p = .refused r

theorem AnswersAlikeOutside.bind {o p : Result State} {f : State → Result State} (h : AnswersAlikeOutside o p)
    (hf : ∀ t u, AlikeOutside t u → AnswersAlikeOutside (f t) (f u)) :
    AnswersAlikeOutside (andThen o f) (andThen p f) := by
  rcases h with ⟨t, u, rfl, rfl, htu⟩ | ⟨r, rfl, rfl⟩
  · exact hf t u htu
  · exact .inr ⟨r, rfl, rfl⟩

section

variable {t u : State}

theorem AlikeOutside.answers (h : AlikeOutside t u) : AnswersAlikeOutside (.next t) (.next u) :=
  .inl ⟨t, u, rfl, rfl, h⟩

theorem AlikeOutside.goto (h : AlikeOutside t u) (d : DState) : AlikeOutside (t.goto d) (u.goto d) :=
  { h with dstate := rfl }

theorem AlikeOutside.raise (h : AlikeOutside t u) (r : Reason) : AlikeOutside (t.raise r) (u.raise r) :=
  { h with dstate := rfl }

theorem AlikeOutside.drewFree (h : AlikeOutside t u) : AlikeOutside t.drewFree u.drewFree := { h with }

theorem AlikeOutside.wrote (h : AlikeOutside t u) (bytes : List Byte) (a : WriteAnswer) :
    AlikeOutside (t.wrote bytes a) (u.wrote bytes a) where
  gpio := by simp [h.gpio, Event.isGpio]
  tdoBuf := h.tdoBuf
  lines := h.lines
  writes := congrArg List.tail h.writes
  got := congrArg (· ++ a.received bytes) h.got
  dstate := h.dstate

/-- The response write goes by H's answers, which are the same (R86). -/
theorem AlikeOutside.respWrite (h : AlikeOutside t u) (bytes : List Byte) :
    AnswersAlikeOutside (respWrite bytes t) (respWrite bytes u) := by
  rcases respWrite_cases bytes t with ⟨rfl, _⟩ | ⟨hb, hw, ht⟩ | ⟨a, ws, hb, hw, hcase⟩
  · exact (h.goto .sTag).answers
  · rw [ht, respWrite_waits hb (h.writes.trans hw)]
    exact h.answers
  · have hu := h.writes.trans hw
    rcases hcase with ⟨hk, ht⟩ | ⟨hk, ht⟩ | ⟨h0, hk, ht⟩ | ⟨hk, ht⟩ <;> rw [ht]
    · rw [respWrite_ok hb hu hk]
      exact ((h.wrote bytes a).goto .sTag).answers
    · rw [respWrite_failTransport hb hu hk]
      exact ((h.wrote bytes a).raise .txFail).answers
    · rw [respWrite_failShort hb hu h0 hk]
      exact ((h.wrote bytes a).raise .shortWrite).answers
    · rw [respWrite_outOfRange hb hu hk]
      exact .inr ⟨_, rfl, rfl⟩

/-- `S_SH_RSP` with the same response. -/
theorem AlikeOutside.runShRsp (h : AlikeOutside t u) {resp : List Byte} (ht : tdoResponse t = .next resp)
    (hu : tdoResponse u = .next resp) : AnswersAlikeOutside (runShRsp t) (runShRsp u) := by
  rw [Machine.runShRsp, Machine.runShRsp, ht, hu]
  refine (h.respWrite resp).bind fun t u htu => ?_
  rw [htu.dstate]
  split
  · exact htu.answers
  · exact htu.drewFree.answers

/-- The `SessionEnd` event is no GPIO event. -/
theorem AlikeOutside.finish (h : AlikeOutside t u) : AnswersAlikeOutside (finish t) (finish u) := by
  unfold Machine.finish
  rw [h.dstate]
  split
  · exact AlikeOutside.answers { h with gpio := by simp [h.gpio, Event.isGpio], dstate := rfl }
  · exact h.answers

/-- Shifts whose paths stand before the same response end alike. -/
theorem AlikeOutside.shift_answers (h : AlikeOutside t u) {o p : Result State} (ho : o = .next t) (hp : p = .next u)
    (hd : t.dstate = .sShRsp) {resp : List Byte} (ht : tdoResponse t = .next resp) (hu : tdoResponse u = .next resp) :
    AnswersAlikeOutside (andThen (follow .sShRsp Machine.runShRsp o) Machine.finish)
      (andThen (follow .sShRsp Machine.runShRsp p) Machine.finish) := by
  rw [ho, hp, follow_next hd, follow_next (h.dstate.trans hd)]
  exact (h.runShRsp ht hu).bind fun _ _ h => h.finish

end

/-- Vectors that agree on the bits below the bit count do so in the buffers they are written to. -/
theorem bit_writeBytes_congr {capacity n : Nat} {m : Memory} {xs ys : List Byte} (hm : Memory.wf capacity m = true)
    (hcap : ceilDiv8 n ≤ capacity) (hx : xs.length = ceilDiv8 n) (hy : ys.length = ceilDiv8 n) {i : Nat} (hi : i < n)
    (h : vectorBit ys i = vectorBit xs i) : (m.writeBytes 0 ys).bit i = (m.writeBytes 0 xs).bit i := by
  have hbyte : i / 8 < ceilDiv8 n := by unfold ceilDiv8; omega
  rw [Memory.bit_writeBytes hm (by omega) (by omega), Memory.bit_writeBytes hm (by omega) (by omega), h]

/-- Settles O25: where both shifts stand before their responses they are alike outside the vector buffers, since only
bits below the bit count are driven; and from there H's answers decide. -/
theorem shiftIgnoresPaddingBits : Obligations.ShiftIgnoresPaddingBits := by
  intro s suffix n tms tdi tms' tdi' hcap hwfTms hwfTdi htms htdi htms' htdi' hbits
  obtain ⟨_, _, _, hreads, rfl, hpath⟩ := shift_path s suffix n tms tdi hcap htms htdi
  obtain ⟨_, _, _, hreads', rfl, hpath'⟩ := shift_path s suffix n tms' tdi' hcap htms' htdi'
  have hdriven : ∀ i, i < n.toNat →
      (s.tmsBuf.writeBytes 0 tms').bit i = (s.tmsBuf.writeBytes 0 tms).bit i ∧
      (s.tdiBuf.writeBytes 0 tdi').bit i = (s.tdiBuf.writeBytes 0 tdi).bit i := fun i hi =>
    ⟨bit_writeBytes_congr hwfTms hcap htms htms' hi (hbits i hi).1,
      bit_writeBytes_congr hwfTdi hcap htdi htdi' hi (hbits i hi).2⟩
  rw [Target.draws_congr s.target s.freeIdx fun i _ hi => (hdriven i (by simpa using hi)).2,
    shiftEvents_congr _ hdriven] at hpath'
  have hlen := (byteLen_exact n).trans_le hcap
  have answers : AnswersAlikeOutside (exec (.shift suffix n tms tdi) s) (exec (.shift suffix n tms' tdi') s) := by
    refine AlikeOutside.shift_answers ?_ hpath hpath' rfl (tdoResponse_eq hlen) (tdoResponse_eq hlen)
    exact {
      gpio := by simp only [List.filter_append, hreads.filter_isGpio, hreads'.filter_isGpio]
      tdoBuf := rfl, lines := rfl, writes := rfl, got := rfl, dstate := rfl }
  rcases answers with ⟨t, u, ht, hu, h⟩ | hrefused
  · exact .inl ⟨t, u, ht, hu, h.gpio, h.tdoBuf, h.got, h.dstate, h.lines⟩
  · exact .inr hrefused

end Sys2Proof.Machine
end

section
/-! PROOFS of 40_dispatcher.md: a step is the decoded command or one atomic action, and a command is its atomic actions
(R142, R164); dispatch, session start and the capacity check (R140, R143, R155); what each command answers and leaves
unchanged (R145 to R165); and that an answer depends on nothing an earlier command left (R168). -/

namespace Sys2Proof.Machine

/-! ### The step and the dispatcher's states -/

/-- Settles O12: where a frame decodes the step is its command, and otherwise `frameAt` finds none. -/
theorem stepRunsTheDecodedFrame : Obligations.StepRunsTheDecodedFrame := by
  refine ⟨fun s i rest hd hb hok => step_of_decode hd hb hok, fun s e herr => ?_, fun s h => ?_⟩
  · simp [step, frameAt, herr]
  · have hb : s.atFrameBoundary = false := by
      rcases h with h | h <;> simp [State.atFrameBoundary, h]
    simp [step, frameAt, hb]

/-- Settles O13: the frame the decoder read is the command's encoding, and from there the command is a number of atomic
actions. -/
theorem commandIsItsWorkerActions : Obligations.CommandIsItsWorkerActions := by
  intro s i rest hd hb hok
  obtain ⟨_, hframe⟩ := wellFormed_and_encode_of_decode hok
  obtain ⟨k, hk, _⟩ := reach_exec i (s.withRx rest)
  rw [withRx_beginFrame hd hb, hframe] at hk
  exact ⟨k, hk⟩

/-- Settles O10: the literal text is the string's ASCII codes, 15 bytes of it. -/
theorem getinfoResponseText : Obligations.GetinfoResponseText := by
  refine ⟨fun n => ⟨?_, ?_⟩, by decide⟩
  · have htext : versionText = "xvcServer_v1.0:".toList.map fun c => BitVec.ofNat 8 c.toNat := by decide
    rw [getinfoResponse, htext]
  · simp only [getinfoResponse, List.length_append, show versionText.length = 15 from rfl, List.length_singleton]
    omega

/-- A tag that is none of the three, compared as a whole, is none byte for byte (R117). -/
theorem tagIsCommand_eq_false {tag : Vector Byte 2} (h1 : tag ≠ #v[0x67, 0x65]) (h2 : tag ≠ #v[0x73, 0x65])
    (h3 : tag ≠ #v[0x73, 0x68]) : WellFormed.tagIsCommand tag = false := by
  simp only [WellFormed.tagIsCommand, Bool.or_eq_false_iff, beq_eq_false_iff_ne]
  exact ⟨⟨h1, h2⟩, h3⟩

/-- Settles O27: one case of the opcode map per tag. -/
theorem dispatchGoesByTag : Obligations.DispatchGoesByTag := fun _ =>
  ⟨afterTag_getinfo, afterTag_settck, afterTag_shift, fun h1 h2 h3 =>
    afterTag_invalid (commandOfTag_of_invalid (tagIsCommand_eq_false h1 h2 h3))⟩

/-- Settles O28: in `S_WAIT` a step takes the first stream offered. -/
theorem sessionStartTakesTheStream : Obligations.SessionStartTakesTheStream := by
  intro s o rest hd hoffers
  rw [step_of_sWait hd, runWait, hoffers]
  rfl

/-- In `S_SH_CHK` a step is the capacity check. -/
theorem step_of_sShChk {s : State} (h : s.dstate = .sShChk) : step s = .next (runShChk s) := by
  simp [step, frameAt, State.atFrameBoundary, tick, h]

/-- Settles O32: BYTELEN holds the exact ceiling, so the comparison is one of naturals. -/
theorem capacityCheckIsExact : Obligations.CapacityCheckIsExact := by
  intro s hd
  rw [step_of_sShChk hd]
  exact ⟨byteLen_exact s.bitCnt, fun h => congrArg _ (runShChk_oversize h), fun h => congrArg _ (runShChk_fits h)⟩

/-! ### The commands that end the session -/

/-- Settles O22: the path raises BAD_TAG after the two tag bytes, and the termination step follows. -/
theorem invalidTagEndsTheSession : Obligations.InvalidTagEndsTheSession := by
  intro s tag h1 h2 h3
  obtain ⟨evs, splits, hreads, hpath⟩ := invalid_path s (tagIsCommand_eq_false h1 h2 h3)
  refine ⟨evs, splits, by rwa [encode, toList_vector2] at hreads, ?_⟩
  exact andThen_eq_next.mpr ⟨_, hpath, finish_of_eq rfl⟩

/-- Settles O21: the path raises OVERSIZE after the header, and the termination step follows. -/
theorem oversizeShiftEndsTheSession : Obligations.OversizeShiftEndsTheSession := by
  intro s suffix n h
  obtain ⟨evs, splits, hreads, hpath⟩ := oversize_path s suffix n h
  exact ⟨evs, splits, hreads, follow_finish_of_raised hpath rfl (by decide)⟩

/-! ### The commands whose response H takes whole -/

/-- A response H takes whole: the answer is used up, H has every byte, and W is at the frame boundary (R86, R88). -/
theorem respWrite_sent {resp : List Byte} {s : State} {a : WriteAnswer} {ws : List WriteAnswer} (hne : resp ≠ [])
    (hw : s.link.writes = a :: ws) (hk : a.k = resp.length) :
    respWrite resp s = .next { s with
      dstate := .sTag, busy := false, link := { s.link with writes := ws, got := s.link.got ++ resp }
      trace := s.trace ++ [.tx resp a.k] } := by
  rw [respWrite_ok hne hw hk, State.goto, State.wrote, WriteAnswer.received_all hne hk, hw]
  rfl

/-- A command whose path stands before its response ends as the action there does, if that leaves W at the frame
boundary. -/
theorem follow_finish_of_sent {d : DState} {run : State → Result State} {o : Result State} {u t : State}
    (ho : o = .next u) (hd : u.dstate = d) (hrun : run u = .next t) (ht : t.dstate = .sTag) :
    andThen (follow d run o) finish = .next t := by
  rw [ho, follow_next hd, hrun, andThen_next, finish_of_ne (by simp [ht])]

/-- Settles O17: the path stands before the response, and H takes it whole. -/
theorem getinfoAnswersTheVersion : Obligations.GetinfoAnswersTheVersion := by
  intro s suffix a ws hw hk
  obtain ⟨evs, splits, hreads, hpath⟩ := getinfo_path s suffix
  exact ⟨evs, splits, hreads,
    follow_finish_of_sent hpath rfl (respWrite_sent (by simp [getinfoResponse]) hw hk) rfl⟩

/-- Settles O18: the path stands before the echo of PERIOD, and H takes it whole. -/
theorem settckEchoesThePeriod : Obligations.SettckEchoesThePeriod := by
  intro s suffix period a ws hw hk
  obtain ⟨evs, splits, hreads, hpath⟩ := settck_path s suffix period
  have hlen : (le32bytes period).toList.length = 4 := Vector.length_toList
  have hne : (le32bytes period).toList ≠ [] := List.ne_nil_of_length_pos (by omega)
  exact ⟨evs, splits, hreads,
    follow_finish_of_sent hpath rfl (respWrite_sent hne hw (by rw [hk, hlen]; rfl)) rfl⟩

/-- In `S_SH_RSP`, a response H takes whole: as for any response, and a free value has been drawn (R161, R162). -/
theorem runShRsp_sent {resp : List Byte} {s : State} {a : WriteAnswer} {ws : List WriteAnswer}
    (hresp : tdoResponse s = .next resp) (hne : resp ≠ []) (hw : s.link.writes = a :: ws) (hk : a.k = resp.length) :
    runShRsp s = .next { s with
      dstate := .sTag, busy := false, freeIdx := s.freeIdx + 1
      link := { s.link with writes := ws, got := s.link.got ++ resp }, trace := s.trace ++ [.tx resp a.k] } := by
  rw [runShRsp, hresp, andThen_next, respWrite_sent hne hw hk, andThen_next, if_neg (by simp)]
  rfl

/-- A buffer that took bytes at index 0 holds them there, and its earlier bytes behind them (R157, R158). -/
theorem Memory.read_writeBytes_zero {capacity : Nat} {m : Memory} {bs : List Byte}
    (hm : Memory.wf capacity m = true) (hb : bs.length ≤ capacity) (j : Nat) :
    (m.writeBytes 0 bs).read j = if j < bs.length then bs.getD j 0 else m.read j := by
  rw [Memory.read_writeBytes hm (by omega)]
  simp

/-- A vector whose bytes fit the buffers has at most `MAX_BITS` bits (R9). -/
theorem le_maxBits_of_ceilDiv8_le {c : Config} {n : Nat} (h : ceilDiv8 n ≤ c.capacityBytes) : n ≤ c.maxBits := by
  unfold ceilDiv8 at h
  unfold Config.maxBits
  omega

/-- A buffer that took samples at bit 0 holds them there, and its earlier bits behind them (R189). -/
theorem Memory.bit_writeBits_zero {c : Config} {m : Memory} {bs : List Bool} (hm : Memory.wf c.capacityBytes m = true)
    (hb : bs.length ≤ c.maxBits) (i : Nat) :
    (m.writeBits 0 bs).bit i = if i < bs.length then bs.getD i false else m.bit i := by
  rw [Memory.bit_writeBits hm fun j _ hj => div_lt_of_lt_maxBits hb (by omega)]
  simp

/-- Vectors within the capacity are driven bit for bit as H sent them (R71, R192). -/
theorem shiftEvents_writeBytes {capacity n : Nat} {tmsBuf tdiBuf : Memory} {tms tdi : List Byte}
    (hmTms : Memory.wf capacity tmsBuf = true) (hmTdi : Memory.wf capacity tdiBuf = true)
    (hcap : ceilDiv8 n ≤ capacity) (htms : tms.length = ceilDiv8 n) (htdi : tdi.length = ceilDiv8 n)
    (samples : Nat → Bool) : shiftEvents n (tmsBuf.writeBytes 0 tms).bit (tdiBuf.writeBytes 0 tdi).bit samples =
      shiftEvents n (vectorBit tms) (vectorBit tdi) samples :=
  shiftEvents_congr samples fun i hi => by
    have hbyte : i / 8 < ceilDiv8 n := by unfold ceilDiv8; omega
    exact ⟨Memory.bit_writeBytes hmTms (by omega) (by omega), Memory.bit_writeBytes hmTdi (by omega) (by omega)⟩

/-- The bits of the TDO response below the bit count are the samples (R161, R197). -/
theorem vectorBit_tdoResponse {c : Config} {m : Memory} {samples : List Bool} (free : Byte)
    (hm : Memory.wf c.capacityBytes m = true) (hb : samples.length ≤ c.maxBits) {i : Nat} (hi : i < samples.length) :
    vectorBit (withFreePadding samples.length free
      ((List.range (ceilDiv8 samples.length)).map (m.writeBits 0 samples).read)) i = samples.getD i false := by
  rw [vectorBit_withFreePadding (by simp) hi, vectorBit_range _ (by unfold ceilDiv8; omega),
    Memory.bit_writeBits_zero hm hb, if_pos hi]

/-- Under the wire loopback, sample `i` is the level TDI has there (R218). -/
theorem Target.draws_wireLoopback_getD (d : Nat → Bool) (idx : Nat) {n i : Nat} (hi : i < n) :
    (Target.draws d 0 n .wireLoopback idx).1.getD i false = d i := by
  simp [Target.draws_wireLoopback, hi]

/-- Settles O19: the path stands before the response, whose significant bits are the samples, and H takes it whole. -/
theorem shiftReturnsTheSamples : Obligations.ShiftReturnsTheSamples := by
  intro s suffix n tms tdi a ws hwfTms hwfTdi hwfTdo hpos hcap htms htdi hw hk
  obtain ⟨evs, splits, draws, hreads, hdraws, hpath⟩ := shift_path s suffix n tms tdi hcap htms htdi
  have hsamples : draws.1.length = n.toNat := by rw [hdraws, Target.draws_length]
  have hmax : draws.1.length ≤ s.cfg.maxBits := hsamples.trans_le (le_maxBits_of_ceilDiv8_le hcap)
  obtain ⟨resp, hresp⟩ : ∃ resp, resp = withFreePadding draws.1.length (Config.freePadding draws.2.2)
    ((List.range (ceilDiv8 draws.1.length)).map (s.tdoBuf.writeBits 0 draws.1).read) := ⟨_, rfl⟩
  have hlen : resp.length = ceilDiv8 n.toNat := by
    rw [hresp, withFreePadding_length, List.length_map, List.length_range, hsamples]
  rw [shiftEvents_writeBytes hwfTms hwfTdi hcap htms htdi] at hpath
  refine ⟨evs, splits, draws.1, s.tmsBuf.writeBytes 0 tms, s.tdiBuf.writeBytes 0 tdi, s.tdoBuf.writeBits 0 draws.1,
    resp, draws.2.1, draws.2.2 + 1, hreads, hsamples, hlen, fun i hi => ?_, fun j => ?_, fun j => ?_, fun i => ?_,
    fun hloop i hi => ?_, fun script hscript hlong => ?_, ?_⟩
  · rw [hresp]
    exact vectorBit_tdoResponse _ hwfTdo hmax (by omega)
  · rw [Memory.read_writeBytes_zero hwfTms (by omega), htms]
  · rw [Memory.read_writeBytes_zero hwfTdi (by omega), htdi]
  · rw [Memory.bit_writeBits_zero hwfTdo hmax, hsamples]
  · rw [hdraws, hloop, Target.draws_wireLoopback_getD _ _ hi, Memory.bit_writeBytes hwfTdi (by omega) (by omega)]
  · rw [hdraws, hscript, Target.draws_levels _ _ _ _ _ hlong]
    exact ⟨rfl, rfl⟩
  · refine follow_finish_of_sent hpath rfl (runShRsp_sent ?_ (List.ne_nil_of_length_pos ?_) hw ?_) rfl
    · rw [tdoResponse_eq ((byteLen_exact n).trans_le hcap), byteLen_exact, hresp, hsamples]
    · rw [hlen]; unfold ceilDiv8; omega
    · rw [hk, hlen]; rfl

/-- The padding bits of a merged byte are those of the free one (00_scope.md R20). -/
theorem bitOf_mergePadding_of_ge (n : Nat) (free v : Byte) {k : Nat} (hk : n % 8 ≤ k) (h8 : k < 8) :
    bitOf (mergePadding n free v) k = bitOf free k := by
  have hmask : ∀ r < 8, ∀ k < 8, r ≤ k → ((1#8 <<< r) - 1).getLsbD k = false := by decide
  have := hmask (n % 8) (by omega) k h8 hk
  simp only [bitOf, mergePadding, significantMask, BitVec.getLsbD_or, BitVec.getLsbD_and, BitVec.getLsbD_not, this, h8]
  simp

/-- The padding bits of a response are those of the free value (R161). -/
theorem vectorBit_withFreePadding_of_ge {n : Nat} {free : Byte} {bytes : List Byte} (hlen : bytes.length = ceilDiv8 n)
    {i : Nat} (hi : n ≤ i) (hlast : i / 8 < ceilDiv8 n) :
    vectorBit (withFreePadding n free bytes) i = bitOf free (i % 8) := by
  obtain ⟨hbyte, hge, hpad⟩ : ceilDiv8 n = i / 8 + 1 ∧ n % 8 ≤ i % 8 ∧ n % 8 ≠ 0 := by
    unfold ceilDiv8 at *
    omega
  rcases List.eq_nil_or_concat bytes with rfl | ⟨init, v, rfl⟩
  · simp [hbyte] at hlen
  · have hinit : i / 8 = init.length := by simpa [hbyte] using hlen.symm
    rw [withFreePadding, if_pos (by simp [hasPadding, hpad])]
    simpa [vectorBit, hinit] using bitOf_mergePadding_of_ge n free v hge (Nat.mod_lt _ (by decide))

/-- A response depends on the significant bits of its bytes, and on the free value. -/
theorem withFreePadding_congr {n : Nat} (free : Byte) {xs ys : List Byte} (hx : xs.length = ceilDiv8 n)
    (hy : ys.length = ceilDiv8 n) (h : ∀ i, i < n → vectorBit ys i = vectorBit xs i) :
    withFreePadding n free ys = withFreePadding n free xs := by
  refine bytes_ext (by rw [withFreePadding_length, withFreePadding_length, hx, hy]) fun i hi => ?_
  rw [withFreePadding_length, hy] at hi
  by_cases hin : i < n
  · rw [vectorBit_withFreePadding hy hin, vectorBit_withFreePadding hx hin, h i hin]
  · rw [vectorBit_withFreePadding_of_ge hy (by omega) (by omega),
      vectorBit_withFreePadding_of_ge hx (by omega) (by omega)]

/-- Two buffers that took the same vector hold the same bits below the bit count. -/
theorem bit_writeBytes_same {c c' n : Nat} {m m' : Memory} {bs : List Byte} (hm : Memory.wf c m = true)
    (hm' : Memory.wf c' m' = true) (hc : ceilDiv8 n ≤ c) (hc' : ceilDiv8 n ≤ c') (hb : bs.length = ceilDiv8 n)
    {i : Nat} (hi : i < n) : (m'.writeBytes 0 bs).bit i = (m.writeBytes 0 bs).bit i := by
  have hbyte : i / 8 < ceilDiv8 n := by unfold ceilDiv8; omega
  rw [Memory.bit_writeBytes hm (by omega) (by omega), Memory.bit_writeBytes hm' (by omega) (by omega)]

/-! ### An answer depends on nothing an earlier command left -/

/-- Two runs, from `s` to `t` and from `u` to `v`, that have gone alike: the same configuration, place of W, stream, T
and counter of free values, the same reason where a termination is raised, and the same events since `s` and `u`. -/
structure AgreeSince (s u t v : State) : Prop where
  cfg : v.cfg = t.cfg
  dstate : v.dstate = t.dstate
  link : v.link = t.link
  target : v.target = t.target
  freeIdx : v.freeIdx = t.freeIdx
  endReason : t.dstate = .sEnd → v.endReason = t.endReason
  trace : ∃ evs, t.trace = s.trace ++ evs ∧ v.trace = u.trace ++ evs

/-- The two runs agree at the frame boundary, the frame of `i` being what H sends next. -/
def AgreeBefore (s u : State) (i : Instr) : Prop :=
  AgreeSince s u (s.beginFrame (encode i)) (u.beginFrame (encode i))

/-- The two runs agree where they have both come to a next state. -/
def NextsAgree (s u : State) (o p : Result State) : Prop :=
  ∀ t v, o = .next t → p = .next v → AgreeSince s u t v

/-- The same refusal, or next states that agree. -/
def AnswersAgree (s u : State) (o p : Result State) : Prop :=
  (∃ t v, o = .next t ∧ p = .next v ∧ AgreeSince s u t v) ∨ ∃ r, o = .refused r ∧ p = .refused r

section

variable {s u x y : State} {o p : Result State}

theorem AgreeSince.append (h : AgreeSince s u x y) (es : List Event) :
    ∃ evs, x.trace ++ es = s.trace ++ evs ∧ y.trace ++ es = u.trace ++ evs := by
  obtain ⟨evs, hx, hy⟩ := h.trace
  exact ⟨evs ++ es, by rw [hx, List.append_assoc], by rw [hy, List.append_assoc]⟩

theorem AgreeSince.goto (h : AgreeSince s u x y) (d : DState) (hd : d ≠ .sEnd := by decide) :
    AgreeSince s u (x.goto d) (y.goto d) :=
  { h with dstate := rfl, endReason := fun he => absurd he hd }

theorem AgreeSince.raise (h : AgreeSince s u x y) (r : Reason) : AgreeSince s u (x.raise r) (y.raise r) :=
  { h with dstate := rfl, endReason := fun _ => rfl }

theorem AgreeSince.emit (h : AgreeSince s u x y) (e : Event) : AgreeSince s u (x.emit e) (y.emit e) :=
  { h with trace := h.append [e] }

theorem AgreeSince.wrote (h : AgreeSince s u x y) (bytes : List Byte) (a : WriteAnswer) :
    AgreeSince s u (x.wrote bytes a) (y.wrote bytes a) :=
  { h with link := by simp [h.link], trace := h.append [.tx bytes a.k] }

/-- The termination step records and reports the reason raised (R236). -/
theorem AgreeSince.endSession (h : AgreeSince s u x y) (hd : x.dstate = .sEnd) :
    AgreeSince s u x.endSession y.endSession :=
  { h with
    dstate := rfl, endReason := fun _ => h.endReason hd
    trace := by simpa [h.endReason hd] using h.append [.sessionEnd x.endReason] }

theorem AgreeSince.drewFree (h : AgreeSince s u x y) : AgreeSince s u x.drewFree y.drewFree :=
  { h with freeIdx := congrArg (· + 1) h.freeIdx }

/-- Dispatch reads TAG and nothing else (R143). -/
theorem AgreeSince.afterTag (h : AgreeSince s u x y) (htag : y.tag = x.tag) :
    AgreeSince s u (afterTag x) (afterTag y) := by
  unfold Machine.afterTag
  rw [htag]
  split
  · exact h.goto _
  · exact h.goto _
  · exact h.goto _
  · exact h.raise _

theorem AgreeSince.answers (h : AgreeSince s u x y) : AnswersAgree s u (.next x) (.next y) :=
  .inl ⟨x, y, rfl, rfl, h⟩

theorem AnswersAgree.bind {f g : State → Result State} (h : AnswersAgree s u o p)
    (hf : ∀ x y, AgreeSince s u x y → AnswersAgree s u (f x) (g y)) :
    AnswersAgree s u (andThen o f) (andThen p g) := by
  rcases h with ⟨x, y, rfl, rfl, h⟩ | ⟨r, rfl, rfl⟩
  · exact hf x y h
  · exact .inr ⟨r, rfl, rfl⟩

/-- Two paths that agree go on alike: into the next state both, or neither. -/
theorem NextsAgree.follow {d : DState} {run : State → Result State} (h : NextsAgree s u o p)
    (hr : ∀ x y, o = .next x → p = .next y → x.dstate = d → AgreeSince s u x y → NextsAgree s u (run x) (run y)) :
    NextsAgree s u (follow d run o) (follow d run p) := by
  intro t v ht hv
  obtain ⟨x, hx, ht⟩ := andThen_eq_next.mp ht
  obtain ⟨y, hy, hv⟩ := andThen_eq_next.mp hv
  have hxy := h x y hx hy
  rw [hxy.dstate] at hv
  split at ht
  case isTrue hd =>
    rw [if_pos hd] at hv
    exact hr x y hx hy hd hxy t v ht hv
  case isFalse hd =>
    rw [if_neg hd] at hv
    cases ht
    cases hv
    exact hxy

/-! #### The reads: a transfer goes by the stream and by how much it asks for, not by where its bytes go -/

theorem AgreeSince.frTurn (h : AgreeSince s u x y) (hn : y.frN = x.frN) (hg : y.frGot = x.frGot)
    {a b : Progress × State} (ha : frTurn x = .next a) (hb : frTurn y = .next b) :
    b.1 = a.1 ∧ b.2.frN = a.2.frN ∧ b.2.frGot = a.2.frGot ∧ AgreeSince s u a.2 b.2 := by
  have hask : y.frN - y.frGot = x.frN - x.frGot := by rw [hn, hg]
  unfold Machine.frTurn at ha hb
  rw [hask, h.link] at hb
  by_cases hlt : x.frGot < x.frN
  case neg =>
    rw [if_neg hlt] at ha
    rw [if_neg (by rwa [hn, hg])] at hb
    cases ha
    cases hb
    exact ⟨rfl, hn, hg, h⟩
  case pos =>
    rw [if_pos hlt] at ha
    rw [if_pos (by rwa [hn, hg])] at hb
    cases hread : streamRead (x.frN - x.frGot) x.link with
    | silent =>
      rw [hread] at ha hb
      cases ha
      cases hb
      exact ⟨rfl, hn, hg, h⟩
    | stop e =>
      rw [hread] at ha hb
      cases ha
      cases hb
      exact ⟨rfl, hn, hg, h.emit _⟩
    | bytes data after =>
      rw [hread] at ha hb
      obtain ⟨x', hx', ha⟩ := andThen_eq_next.mp ha
      obtain ⟨y', hy', hb⟩ := andThen_eq_next.mp hb
      cases ha
      cases hb
      have hread : AgreeSince s u { x with link := after } { y with link := after } := { h with link := rfl }
      rw [storeBytes_keeps hx', storeBytes_keeps hy']
      exact ⟨rfl, hn, congrArg (· + data.length) hg, { hread.emit _ with }⟩

theorem AgreeSince.frLoop : ∀ {fuel : Nat} {x y : State}, AgreeSince s u x y → y.frN = x.frN → y.frGot = x.frGot →
    ∀ {a b : Progress × State}, frLoop fuel x = .next a → frLoop fuel y = .next b →
      b.1 = a.1 ∧ AgreeSince s u a.2 b.2
  | 0, _, _, h, _, _, _, _, ha, hb => by
    cases ha
    cases hb
    exact ⟨rfl, h⟩
  | fuel + 1, _, _, h, hn, hg, a, b, ha, hb => by
    obtain ⟨⟨p, x'⟩, hx', ha⟩ := andThen_eq_next.mp ha
    obtain ⟨⟨q, y'⟩, hy', hb⟩ := andThen_eq_next.mp hb
    obtain ⟨rfl, hn', hg', h'⟩ := h.frTurn hn hg hx' hy'
    cases q
    case more => exact AgreeSince.frLoop h' hn' hg' ha hb
    all_goals
      cases ha
      cases hb
      exact ⟨rfl, h'⟩

theorem AgreeSince.frameRead (h : AgreeSince s u x y) {dst : FrDst} {n : Nat} {a b : Progress × State}
    (ha : frameRead dst n x = .next a) (hb : frameRead dst n y = .next b) : b.1 = a.1 ∧ AgreeSince s u a.2 b.2 :=
  AgreeSince.frLoop (x := frStart dst n x) (y := frStart dst n y) { h with } rfl rfl ha hb

theorem AgreeSince.frSettle (h : AgreeSince s u x y) {reason : Reason} {onDone : State → State}
    (hdone : AgreeSince s u (onDone x) (onDone y)) (q : Progress) :
    NextsAgree s u (frSettle reason onDone (q, x)) (frSettle reason onDone (q, y)) := by
  intro t v ht hv
  cases q <;> cases ht <;> cases hv
  case more => exact h
  case done => exact hdone
  case failed => exact h.raise reason
  case waiting => exact h

theorem AgreeSince.transfer (h : AgreeSince s u x y) {dst : FrDst} {n : Nat} {reason : Reason}
    {onDone : State → State} (hdone : ∀ x y, AgreeSince s u x y → AgreeSince s u (onDone x) (onDone y)) :
    NextsAgree s u (transfer dst n reason onDone x) (transfer dst n reason onDone y) := by
  intro t v ht hv
  obtain ⟨⟨q, x'⟩, hx, ht⟩ := andThen_eq_next.mp ht
  obtain ⟨⟨p, y'⟩, hy, hv⟩ := andThen_eq_next.mp hv
  obtain ⟨(rfl : p = q), h'⟩ := h.frameRead hx hy
  exact h'.frSettle (hdone _ _ h') _ t v ht hv

theorem AgreeSince.runSeArg (h : AgreeSince s u x y) : NextsAgree s u (runSeArg x) (runSeArg y) := by
  intro t v ht hv
  obtain ⟨⟨q, x'⟩, hx, ht⟩ := andThen_eq_next.mp ht
  obtain ⟨⟨p, y'⟩, hy, hv⟩ := andThen_eq_next.mp hv
  obtain ⟨(rfl : p = q), h'⟩ := h.frameRead hx hy
  cases p
  case done => exact h'.transfer (fun _ _ h => h.goto _) t v ht hv
  all_goals exact h'.frSettle h' _ t v ht hv

/-- The two tag bytes are the same, so both runs dispatch to the same state. -/
theorem AgreeSince.runTag (h : AgreeSince s u x y) {a b : Byte} {rest : List Byte}
    (hrx : x.link.rx = a :: b :: rest) : NextsAgree s u (runTag x) (runTag y) := by
  intro t v ht hv
  obtain ⟨_, _, _, hx⟩ := frameRead_complete (dst := .tag) (data := [a, b]) hrx (storeBytes_tag a b x)
  obtain ⟨_, _, _, hy⟩ := frameRead_complete (dst := .tag) (data := [a, b]) (by rw [h.link]; exact hrx)
    (storeBytes_tag a b y)
  obtain ⟨_, h'⟩ := h.frameRead hx hy
  rw [Machine.runTag, Machine.transfer, show (2 : Nat) = [a, b].length from rfl] at ht hv
  rw [hx] at ht
  rw [hy] at hv
  cases ht
  cases hv
  exact h'.afterTag rfl

theorem AgreeSince.runShTms (h : AgreeSince s u x y) (hlen : y.byteLen = x.byteLen) :
    NextsAgree s u (runShTms x) (runShTms y) := by
  rw [Machine.runShTms, Machine.runShTms, hlen]
  exact h.transfer fun _ _ h => h.goto _

theorem AgreeSince.runShTdi (h : AgreeSince s u x y) (hlen : y.byteLen = x.byteLen) :
    NextsAgree s u (runShTdi x) (runShTdi y) := by
  rw [Machine.runShTdi, Machine.runShTdi, hlen]
  exact h.transfer fun _ _ h => h.goto _

theorem runShTms_byteLen {t : State} (h : runShTms x = .next t) : t.byteLen = x.byteLen := by
  obtain ⟨⟨q, x'⟩, hx, ht⟩ := andThen_eq_next.mp h
  have hkeep : x'.byteLen = x.byteLen := by rw [frLoop_keeps _ hx]; rfl
  cases q <;> cases ht <;> exact hkeep

theorem runShChk_byteLen (x : State) : (runShChk x).byteLen = BitVec.ofNat 30 (ceilDiv8 x.bitCnt.toNat) := by
  unfold runShChk
  simp only
  split <;> rfl

theorem runShChk_dstate_fits (h : ceilDiv8 x.bitCnt.toNat ≤ x.cfg.capacityBytes) :
    (runShChk x).dstate = .sShTms := by
  rw [runShChk_fits h]
  rfl

/-- The capacity check goes by BITCNT and the capacity (R155). -/
theorem AgreeSince.runShChk (h : AgreeSince s u x y) (hn : y.bitCnt = x.bitCnt) :
    AgreeSince s u (runShChk x) (runShChk y) := by
  by_cases hcap : ceilDiv8 x.bitCnt.toNat ≤ x.cfg.capacityBytes
  · rw [runShChk_fits hcap, runShChk_fits (by rwa [hn, h.cfg])]
    exact { h.goto .sShTms with }
  · rw [runShChk_oversize (by omega), runShChk_oversize (by rw [hn, h.cfg]; omega)]
    exact { h.raise .oversize with }

/-- Above the capacity nothing of a shift runs after its capacity check (R156). -/
theorem follow_oversize (ho : o = .next x) (hd : x.dstate = .sShChk)
    (hover : x.cfg.capacityBytes < ceilDiv8 x.bitCnt.toNat) :
    (follow .sShRsp runShRsp <| follow .sShRun runShRun <| follow .sShTdi runShTdi <| follow .sShTms runShTms <|
      follow .sShChk (fun s => .next (runShChk s)) o) = .next (runShChk x) := by
  have hend : (runShChk x).dstate = .sEnd := by rw [runShChk_oversize hover]; rfl
  rw [ho, follow_next hd, follow_stop (by simp [hend]), follow_stop (by simp [hend]), follow_stop (by simp [hend]),
    follow_stop (by simp [hend])]

/-! #### The serializer: the same bits below the bit count are driven alike, and T answers alike -/

/-- A run of the serializer that answers a next state was within `MAX_BITS`. -/
theorem bitCnt_le_of_runShRun {t : State} (h : runShRun x = .next t) : x.bitCnt.toNat ≤ x.cfg.maxBits := by
  by_contra hn
  rw [Machine.runShRun, seStart, if_neg hn] at h
  cases h

theorem AgreeSince.runShRun (h : AgreeSince s u x y) (hd : x.dstate = .sShRun) {t v : State}
    (ht : runShRun x = .next t) (hv : runShRun y = .next v) (hn : v.bitCnt = t.bitCnt)
    (hbits : ∀ i, i < t.bitCnt.toNat → v.tmsBuf.bit i = t.tmsBuf.bit i ∧ v.tdiBuf.bit i = t.tdiBuf.bit i) :
    AgreeSince s u t v := by
  have hx := bitCnt_le_of_runShRun ht
  have hy := bitCnt_le_of_runShRun hv
  rw [runShRun_eq hd hx] at ht
  rw [runShRun_eq (h.dstate.trans hd) hy] at hv
  cases ht
  cases hv
  have hn : y.bitCnt = x.bitCnt := hn
  have hdraws : Target.draws y.tdiBuf.bit 0 y.bitCnt.toNat y.target y.freeIdx =
      Target.draws x.tdiBuf.bit 0 x.bitCnt.toNat x.target x.freeIdx := by
    rw [hn, h.target, h.freeIdx]
    exact Target.draws_congr _ _ fun i _ hi => (hbits i (by simpa using hi)).2
  have hevents : shiftEvents y.bitCnt.toNat y.tmsBuf.bit y.tdiBuf.bit
        (fun i => (Target.draws y.tdiBuf.bit 0 y.bitCnt.toNat y.target y.freeIdx).1.getD i false) =
      shiftEvents x.bitCnt.toNat x.tmsBuf.bit x.tdiBuf.bit
        (fun i => (Target.draws x.tdiBuf.bit 0 x.bitCnt.toNat x.target x.freeIdx).1.getD i false) := by
    rw [hdraws, hn, shiftEvents_congr _ hbits]
  exact { h with
    dstate := rfl
    target := congrArg (·.2.1) hdraws
    freeIdx := congrArg (·.2.2) hdraws
    endReason := fun he => by cases he
    trace := by rw [hevents]; exact h.append _ }

/-! #### The response and the end of the command -/

theorem AgreeSince.respWrite (h : AgreeSince s u x y) (bytes : List Byte) :
    AnswersAgree s u (respWrite bytes x) (respWrite bytes y) := by
  rcases respWrite_cases bytes x with ⟨rfl, _⟩ | ⟨hb, hw, hx⟩ | ⟨a, ws, hb, hw, hcase⟩
  · exact (h.goto .sTag).answers
  · rw [hx, respWrite_waits hb (by rwa [h.link])]
    exact h.answers
  · have hwy : y.link.writes = a :: ws := by rwa [h.link]
    rcases hcase with ⟨hk, hx⟩ | ⟨hk, hx⟩ | ⟨h0, hk, hx⟩ | ⟨hk, hx⟩ <;> rw [hx]
    · rw [respWrite_ok hb hwy hk]
      exact ((h.wrote bytes a).goto .sTag).answers
    · rw [respWrite_failTransport hb hwy hk]
      exact ((h.wrote bytes a).raise .txFail).answers
    · rw [respWrite_failShort hb hwy h0 hk]
      exact ((h.wrote bytes a).raise .shortWrite).answers
    · rw [respWrite_outOfRange hb hwy hk]
      exact .inr ⟨_, rfl, rfl⟩

theorem AgreeSince.runGeRsp (h : AgreeSince s u x y) : AnswersAgree s u (runGeRsp x) (runGeRsp y) := by
  rw [Machine.runGeRsp, Machine.runGeRsp, h.cfg]
  exact h.respWrite _

/-- A TDO response is made of the significant bits of `TDO_BUF` and a free value (R161). -/
theorem AgreeSince.runShRsp (h : AgreeSince s u x y) (hceil : x.byteLen.toNat = ceilDiv8 x.bitCnt.toNat)
    (hcap : x.byteLen.toNat ≤ x.cfg.capacityBytes) (hlen : y.byteLen = x.byteLen) (hn : y.bitCnt = x.bitCnt)
    (hbits : ∀ i, i < x.bitCnt.toNat → y.tdoBuf.bit i = x.tdoBuf.bit i) :
    AnswersAgree s u (runShRsp x) (runShRsp y) := by
  have hresp : withFreePadding x.bitCnt.toNat (Config.freePadding x.freeIdx)
        ((List.range x.byteLen.toNat).map y.tdoBuf.read) =
      withFreePadding x.bitCnt.toNat (Config.freePadding x.freeIdx)
        ((List.range x.byteLen.toNat).map x.tdoBuf.read) :=
    withFreePadding_congr _ (by simpa using hceil) (by simpa using hceil) fun i hi => by
      have hbyte : i / 8 < x.byteLen.toNat := by unfold ceilDiv8 at hceil; omega
      rw [vectorBit_range _ hbyte, vectorBit_range _ hbyte, hbits i hi]
  rw [Machine.runShRsp, Machine.runShRsp, tdoResponse_eq hcap, tdoResponse_eq (by rwa [hlen, h.cfg]), hn, hlen,
    h.freeIdx, hresp]
  refine (h.respWrite _).bind fun t v htv => ?_
  rw [htv.dstate]
  split
  · exact htv.answers
  · exact htv.drewFree.answers

theorem AnswersAgree.finish (h : AnswersAgree s u o p) : AnswersAgree s u (andThen o finish) (andThen p finish) :=
  h.bind fun x y hxy => by
    by_cases hd : x.dstate = .sEnd
    · rw [finish_of_eq hd, finish_of_eq (hxy.dstate.trans hd)]
      exact (hxy.endSession hd).answers
    · rw [finish_of_ne hd, finish_of_ne (by rwa [hxy.dstate])]
      exact hxy.answers

/-- Commands whose paths stand in the same response state end alike if their actions there do. -/
theorem AgreeSince.command {d : DState} {run : State → Result State} (h : AgreeSince s u x y) (ho : o = .next x)
    (hp : p = .next y) (hd : x.dstate = d) (hr : AnswersAgree s u (run x) (run y)) :
    AnswersAgree s u (andThen (follow d run o) finish) (andThen (follow d run p) finish) := by
  rw [ho, hp, follow_next hd, follow_next (h.dstate.trans hd)]
  exact hr.finish

/-! #### The commands, from two states at a frame boundary -/

theorem agree_exec_getinfo {suffix : Vector Byte 6}
    (h : AgreeBefore s u (.getinfo suffix)) :
    AnswersAgree s u (exec (.getinfo suffix) s) (exec (.getinfo suffix) u) := by
  obtain ⟨_, _, _, hs⟩ := getinfo_path s suffix
  obtain ⟨_, _, _, hu⟩ := getinfo_path u suffix
  have path := (h.runTag rfl).follow (d := .sGeSfx) (run := runGeSfx) fun _ _ _ _ _ h =>
    h.transfer fun _ _ h => h.goto _
  have hxy := path _ _ hs hu
  exact hxy.command hs hu rfl hxy.runGeRsp

theorem agree_exec_settck {suffix : Vector Byte 5} {period : BitVec 32}
    (h : AgreeBefore s u (.settck suffix period)) :
    AnswersAgree s u (exec (.settck suffix period) s) (exec (.settck suffix period) u) := by
  obtain ⟨_, _, _, hs⟩ := settck_path s suffix period
  obtain ⟨_, _, _, hu⟩ := settck_path u suffix period
  have path := (h.runTag rfl).follow (d := .sSeArg) (run := runSeArg) fun _ _ _ _ _ h => h.runSeArg
  have hxy := path _ _ hs hu
  exact hxy.command hs hu rfl (hxy.respWrite (le32bytes period).toList)

theorem agree_exec_invalid {tag : Vector Byte 2} (htag : WellFormed.tagIsCommand tag = false)
    (h : AgreeBefore s u (.invalid tag)) :
    AnswersAgree s u (exec (.invalid tag) s) (exec (.invalid tag) u) := by
  obtain ⟨_, _, _, hs⟩ := invalid_path s htag
  obtain ⟨_, _, _, hu⟩ := invalid_path u htag
  have hrx : (s.beginFrame (encode (.invalid tag))).link.rx = tag[0] :: tag[1] :: s.link.rx := by
    simp [encode, toList_vector2]
  exact AnswersAgree.finish (.inl ⟨_, _, hs, hu, h.runTag hrx _ _ hs hu⟩)

/-- The tag and the header of a shift (R153, R154). -/
theorem agree_shift_header {suffix : Vector Byte 4} {n : BitVec 32} {tms tdi : List Byte}
    (h : AgreeBefore s u (.shift suffix n tms tdi)) :
    NextsAgree s u (follow .sShHdr runShHdr (runTag (s.beginFrame (encode (.shift suffix n tms tdi)))))
      (follow .sShHdr runShHdr (runTag (u.beginFrame (encode (.shift suffix n tms tdi))))) :=
  (h.runTag rfl).follow fun _ _ _ _ _ h => h.transfer fun _ _ h => { h.goto .sShChk with }

/-- The two vectors of a shift (R157, R158). -/
theorem agree_shift_vectors (h : AgreeSince s u x y) (hlen : y.byteLen = x.byteLen) :
    NextsAgree s u (follow .sShTdi runShTdi (runShTms x)) (follow .sShTdi runShTdi (runShTms y)) :=
  NextsAgree.follow (h.runShTms hlen) fun _ _ hx hy _ h =>
    h.runShTdi (by rw [runShTms_byteLen hx, runShTms_byteLen hy, hlen])

/-- From the capacity check of a shift that fits to its response (R155 to R160). -/
theorem agree_shift_from_check {t v : State} (h : AgreeSince s u x y) (ho : o = .next x) (hp : p = .next y)
    (hd : x.dstate = .sShChk) (hn : y.bitCnt = x.bitCnt) (hcap : ceilDiv8 x.bitCnt.toNat ≤ x.cfg.capacityBytes)
    (ht : (follow .sShRun runShRun <| follow .sShTdi runShTdi <| follow .sShTms runShTms <|
      follow .sShChk (fun s => .next (runShChk s)) o) = .next t)
    (hv : (follow .sShRun runShRun <| follow .sShTdi runShTdi <| follow .sShTms runShTms <|
      follow .sShChk (fun s => .next (runShChk s)) p) = .next v)
    (hnt : v.bitCnt = t.bitCnt)
    (hbits : ∀ i, i < t.bitCnt.toNat → v.tmsBuf.bit i = t.tmsBuf.bit i ∧ v.tdiBuf.bit i = t.tdiBuf.bit i) :
    AgreeSince s u t v := by
  have hchk := h.runShChk hn
  have hfits := runShChk_dstate_fits hcap
  rw [ho, follow_next hd, follow_next hfits] at ht
  rw [hp, follow_next (h.dstate.trans hd), follow_next (hchk.dstate.trans hfits)] at hv
  have vectors := agree_shift_vectors hchk (by rw [runShChk_byteLen, runShChk_byteLen, hn])
  refine vectors.follow (d := .sShRun) (run := runShRun) (fun x y hx hy hd h t' v' ht' hv' => ?_) t v ht hv
  rw [hx, follow_next hd] at ht
  rw [hy, follow_next (h.dstate.trans hd)] at hv
  cases ht.symm.trans ht'
  cases hv.symm.trans hv'
  exact h.runShRun hd ht hv hnt hbits

/-- A shift above the capacity ends in its capacity check (R156). -/
theorem agree_exec_oversize {suffix : Vector Byte 4} {n : BitVec 32} (hover : s.cfg.capacityBytes < ceilDiv8 n.toNat)
    (h : AgreeBefore s u (.shift suffix n [] [])) :
    AnswersAgree s u (exec (.shift suffix n [] []) s) (exec (.shift suffix n [] []) u) := by
  obtain ⟨_, _, _, hs⟩ := shift_header_path s suffix n [] []
  obtain ⟨_, _, _, hu⟩ := shift_header_path u suffix n [] []
  have hcfg : u.cfg = s.cfg := h.cfg
  have hxy := (agree_shift_header h _ _ hs hu).runShChk rfl
  refine AnswersAgree.finish (.inl ⟨_, _, follow_oversize hs rfl hover, follow_oversize hu rfl ?_, hxy⟩)
  rwa [hcfg]

/-- A shift within the capacity: both runs drive the bits H sent, so T answers alike, and the responses are the same. -/
theorem agree_exec_shift {suffix : Vector Byte 4} {n : BitVec 32} {tms tdi : List Byte} (hs : s.Inv) (hu : u.Inv)
    (hcap : ceilDiv8 n.toNat ≤ s.cfg.capacityBytes) (htms : tms.length = ceilDiv8 n.toNat)
    (htdi : tdi.length = ceilDiv8 n.toNat)
    (h : AgreeBefore s u (.shift suffix n tms tdi)) :
    AnswersAgree s u (exec (.shift suffix n tms tdi) s) (exec (.shift suffix n tms tdi) u) := by
  have hcapu : ceilDiv8 n.toNat ≤ u.cfg.capacityBytes := h.cfg ▸ hcap
  obtain ⟨_, _, _, hhdr⟩ := shift_header_path s suffix n tms tdi
  obtain ⟨_, _, _, hhdru⟩ := shift_header_path u suffix n tms tdi
  obtain ⟨_, _, _, _, rfl, hpath⟩ := shift_path s suffix n tms tdi hcap htms htdi
  obtain ⟨_, _, _, _, rfl, hpathu⟩ := shift_path u suffix n tms tdi hcapu htms htdi
  have hbits : ∀ i, i < n.toNat →
      (u.tmsBuf.writeBytes 0 tms).bit i = (s.tmsBuf.writeBytes 0 tms).bit i ∧
      (u.tdiBuf.writeBytes 0 tdi).bit i = (s.tdiBuf.writeBytes 0 tdi).bit i := fun i hi =>
    ⟨bit_writeBytes_same hs.tmsWf hu.tmsWf hcap hcapu htms hi,
      bit_writeBytes_same hs.tdiWf hu.tdiWf hcap hcapu htdi hi⟩
  have hdraws : Target.draws (u.tdiBuf.writeBytes 0 tdi).bit 0 n.toNat u.target u.freeIdx =
      Target.draws (s.tdiBuf.writeBytes 0 tdi).bit 0 n.toNat s.target s.freeIdx := by
    rw [show u.target = s.target from h.target, show u.freeIdx = s.freeIdx from h.freeIdx]
    exact Target.draws_congr _ _ fun i _ hi => (hbits i (by simpa using hi)).2
  rw [hdraws] at hpathu
  have hxy := agree_shift_from_check (agree_shift_header h _ _ hhdr hhdru) hhdr hhdru rfl rfl hcap hpath
    hpathu rfl hbits
  have hceil := byteLen_exact n
  refine hxy.command hpath hpathu rfl (hxy.runShRsp hceil (hceil.trans_le hcap) rfl rfl fun i hi => ?_)
  have hmax := le_maxBits_of_ceilDiv8_le hcap
  have hmaxu := le_maxBits_of_ceilDiv8_le hcapu
  simp only [Memory.bit_writeBits_zero hs.tdoWf ((Target.draws_length ..).trans_le hmax),
    Memory.bit_writeBits_zero hu.tdoWf ((Target.draws_length ..).trans_le hmaxu), Target.draws_length]
  rw [if_pos (by exact hi), if_pos (by exact hi)]

end

/-- A shift frame has both vectors whole, or is above the capacity and has none (R115, R121). -/
theorem wellFormed_shift_cases {capacity : Nat} {suffix : Vector Byte 4} {n : BitVec 32} {tms tdi : List Byte}
    (h : WellFormed capacity (.shift suffix n tms tdi)) :
    (ceilDiv8 n.toNat ≤ capacity ∧ tms.length = ceilDiv8 n.toNat ∧ tdi.length = ceilDiv8 n.toNat) ∨
    (capacity < ceilDiv8 n.toNat ∧ tms = [] ∧ tdi = []) := by
  simp only [WellFormed, Instr.wellFormed, WellFormed.vectorsFit] at h
  split at h
  case isTrue hcap => exact .inl ⟨hcap, by simpa using h⟩
  case isFalse hcap => exact .inr ⟨Nat.lt_of_not_le hcap, by simpa using h⟩

/-- Settles O26: two states at a frame boundary agree there, and every command keeps it so. -/
theorem responsesDependOnTheirOwnFrame : Obligations.ResponsesDependOnTheirOwnFrame := by
  intro s u i hi hs hu hcfg hlink htarget hfree
  have h : AgreeBefore s u i := {
    cfg := hcfg, dstate := rfl, link := by simp [hlink], target := htarget, freeIdx := hfree
    endReason := fun he => by cases he
    trace := ⟨[], by simp⟩ }
  have answers : AnswersAgree s u (exec i s) (exec i u) := by
    cases i with
    | getinfo suffix => exact agree_exec_getinfo h
    | settck suffix period => exact agree_exec_settck h
    | shift suffix n tms tdi =>
      rcases wellFormed_shift_cases hi with ⟨hcap, htms, htdi⟩ | ⟨hover, rfl, rfl⟩
      · exact agree_exec_shift hs hu hcap htms htdi h
      · exact agree_exec_oversize hover h
    | invalid tag => exact agree_exec_invalid (by simpa [WellFormed, Instr.wellFormed] using hi) h
  rcases answers with ⟨t, v, ht, hv, h⟩ | hrefused
  · obtain ⟨evs, htr, hvr⟩ := h.trace
    exact .inl ⟨t, v, evs, ht, hv, htr, hvr, h.link, h.target, h.freeIdx, h.dstate⟩
  · exact .inr hrefused

end Sys2Proof.Machine
end

section
/-! PROOFS of 41_shift_engine.md: the idle invariant (R196), the shift of 0 bits (R186), the loopback (R198), the event
sequence of a run and its TCK edges (R192, R193), and the refusal above `MAX_BITS` (R189). -/

namespace Sys2Proof.Machine

/-! ### Actions that leave the lines alone -/

/-- From `s` to `t` the lines and T stay, and no event of the trace's growth is one of the GPIO's (R216). -/
structure LinesUntouched (s t : State) : Prop where
  lines : t.lines = s.lines
  target : t.target = s.target
  trace : ∃ evs, t.trace = s.trace ++ evs ∧ ∀ e ∈ evs, e.isGpio = false

theorem LinesUntouched.of_trace_eq {s t : State} (hl : t.lines = s.lines) (ht : t.target = s.target)
    (htr : t.trace = s.trace) : LinesUntouched s t := ⟨hl, ht, [], by simp [htr], by simp⟩

theorem LinesUntouched.of_event {s t : State} {e : Event} (he : e.isGpio = false) (hl : t.lines = s.lines)
    (ht : t.target = s.target) (htr : t.trace = s.trace ++ [e]) : LinesUntouched s t := ⟨hl, ht, [e], htr, by simp [he]⟩

theorem TransferAction.linesUntouched {s t : State} {dst : FrDst} {n : Nat} {reason : Reason} {onDone : State → State}
    (h : TransferAction dst n reason onDone s t) (hT : TransferIn s dst n reason onDone) : LinesUntouched s t := by
  cases h with
  | begins => exact .of_trace_eq rfl rfl rfl
  | waits => exact .of_trace_eq rfl rfl rfl
  | fails => exact .of_event rfl rfl rfl rfl
  | reads r u _ _ _ _ hst => rw [storeBytes_keeps hst]; exact .of_event rfl rfl rfl rfl
  | completes =>
    cases hT with
    | tag => rw [afterTag_keeps]; exact .of_trace_eq rfl rfl rfl
    | _ => exact .of_trace_eq rfl rfl rfl

theorem ResponseAction.linesUntouched {bytes : List Byte} {s t : State} (h : ResponseAction bytes s t) :
    LinesUntouched s t := by
  cases h with
  | skips => exact .of_trace_eq rfl rfl rfl
  | waits => exact .of_trace_eq rfl rfl rfl
  | sent => exact .of_event rfl rfl rfl rfl
  | failsTransport => exact .of_event rfl rfl rfl rfl
  | failsShort => exact .of_event rfl rfl rfl rfl

/-- An atomic action is an operation of the serializer, or is outside mid-shift and leaves the lines alone (R216). -/
theorem WorkerAction.serializes_or_linesUntouched {s t : State} (h : WorkerAction s t) :
    ((s.dstate = .sShRun ∧ s.busy = true) ∧ SerializerAction s t) ∨
    (s.midShift = false ∧ LinesUntouched s t) := by
  cases h with
  | waits hd => exact .inr ⟨by simp [State.midShift, hd], .of_trace_eq rfl rfl rfl⟩
  | starts o rest hd => exact .inr ⟨by simp [State.midShift, hd], .of_event rfl rfl rfl rfl⟩
  | transfers hT ht => exact .inr ⟨by cases hT <;> simp [State.midShift, *], ht.linesUntouched hT⟩
  | responds hd ht => exact .inr ⟨by rcases hd with ⟨hd, _⟩ | ⟨hd, _⟩ <;> simp [State.midShift, hd], ht.linesUntouched⟩
  | checks hd => exact .inr ⟨by simp [State.midShift, hd], by rw [runShChk_keeps]; exact .of_trace_eq rfl rfl rfl⟩
  | startsShift _ hb => exact .inr ⟨by simp [State.midShift, hb], .of_trace_eq rfl rfl rfl⟩
  | shifts hd hb ht => exact .inl ⟨⟨hd, hb⟩, ht⟩
  | respondsTdo hd _ ht =>
    have hu := ht.linesUntouched
    refine .inr ⟨by simp [State.midShift, hd], ?_⟩
    split
    · exact hu
    · exact ⟨hu.lines, hu.target, hu.trace⟩
  | ends hd => exact .inr ⟨by simp [State.midShift, hd], .of_event rfl rfl rfl rfl⟩

/-! ### The idle invariant -/

theorem Event.isSetClr_of_not_isGpio {e : Event} (h : e.isGpio = false) : e.isSetClr = false := by
  cases e with
  | setClr => cases h
  | _ => rfl

/-- Where the lines are left alone, no line is driven either. -/
theorem LinesUntouched.any_isSetClr {s t : State} (h : LinesUntouched s t) :
    t.trace.any Event.isSetClr = s.trace.any Event.isSetClr := by
  obtain ⟨evs, htr, hevs⟩ := h.trace
  have hnone : evs.any Event.isSetClr = false := by
    simpa using fun e he => Event.isSetClr_of_not_isGpio (hevs e he)
  rw [htr, List.any_append, hnone, Bool.or_false]

/-- The loop test never leads to the return, only to the next bit or to the exit idle update (R180). -/
theorem loopPhase_ne_pDone (s : State) (i : Nat) : loopPhase s i ≠ .pDone := by
  unfold loopPhase
  split <;> simp

/-- Inside the serializer, before its return, the lines may have any levels. -/
theorem idleOutsideShifts_of_phase {t : State} (hd : t.dstate = .sShRun) (hb : t.busy = true)
    (hp : t.sePhase ≠ .pDone) : t.IdleOutsideShifts := fun hm => by
  simp [State.midShift, hd, hb, hp] at hm

/-- The idle updates leave the lines idle, the other operations of a bit stay in mid-shift, and the return finds the
lines as the exit idle update left them (R181, R191). -/
theorem SerializerAction.keeps_idleOutsideShifts {s t : State} (h : SerializerAction s t) (hd : s.dstate = .sShRun)
    (hb : s.busy = true) (hs : s.IdleOutsideShifts) : t.IdleOutsideShifts := by
  cases h with
  | idleIn => exact fun _ _ => rfl
  | drive => exact idleOutsideShifts_of_phase hd hb (by simp)
  | sample => exact idleOutsideShifts_of_phase hd hb (by simp)
  | raise => exact idleOutsideShifts_of_phase hd hb (loopPhase_ne_pDone s _)
  | idleOut => exact fun _ _ => rfl
  | returns hp => exact fun _ hdriven => hs (by simp [State.midShift, hp]) hdriven

theorem LinesUntouched.keeps_idleOutsideShifts {s t : State} (h : LinesUntouched s t) (hm : s.midShift = false)
    (hs : s.IdleOutsideShifts) : t.IdleOutsideShifts := fun _ hdriven =>
  h.lines.trans (hs hm (h.any_isSetClr ▸ hdriven))

theorem WorkerAction.keeps_idleOutsideShifts {s t : State} (hs : s.IdleOutsideShifts) (h : WorkerAction s t) :
    t.IdleOutsideShifts := by
  rcases h.serializes_or_linesUntouched with ⟨⟨hd, hb⟩, hser⟩ | ⟨hm, huntouched⟩
  · exact hser.keeps_idleOutsideShifts hd hb hs
  · exact huntouched.keeps_idleOutsideShifts hm hs

/-- Settles O52: every atomic action keeps the idle invariant, which does not speak of H's side of the stream. -/
theorem stepKeepsIdleOutsideShifts : Obligations.StepKeepsIdleOutsideShifts := fun _ _ hs h =>
  step_keeps (fun _ _ => WorkerAction.keeps_idleOutsideShifts) (fun _ => hs) h

/-! ### The events of a run -/

/-- A kind of event that every bit makes `k` of and every idle update `m` of. -/
theorem countP_shiftEvents {p : Event → Bool} {k m : Nat} (hbit : ∀ t d s, (bitEvents t d s).countP p = k)
    (hidle : [idleEvent].countP p = m) (n : Nat) (t d s : Nat → Bool) :
    (shiftEvents n t d s).countP p = k * n + 2 * m := by
  simp only [shiftEvents, List.countP_append, List.countP_flatMap, Function.comp_def, hbit, hidle, List.map_const',
    List.length_range, List.sum_replicate, smul_eq_mul]
  ring

theorem isGpio_of_mem_shiftEvents {n : Nat} {t d s : Nat → Bool} : ∀ e ∈ shiftEvents n t d s, e.isGpio = true := by
  have hbit : ∀ t d s, ∀ e ∈ bitEvents t d s, e.isGpio = true := by simp [bitEvents, Event.isGpio]
  intro e he
  simp only [shiftEvents, List.mem_append, List.mem_singleton, List.mem_flatMap] at he
  rcases he with (rfl | ⟨i, -, he⟩) | rfl
  · rfl
  · exact hbit _ _ _ e he
  · rfl

/-- Settles O45: the run's own equation, its events counted, and the bits of `TDO_BUF` read back. -/
theorem serializerEventSequence : Obligations.SerializerEventSequence := by
  intro s hd hn hwf
  have hlen := Target.draws_length s.tdiBuf.bit s.bitCnt.toNat 0 s.target s.freeIdx
  have hmax := hlen.trans_le hn
  refine ⟨_, _, _, _, _, hlen, rfl, ?_, ?_, isGpio_of_mem_shiftEvents,
    Memory.wf_writeBits hwf fun j _ hj => div_lt_of_lt_maxBits hmax (by omega), fun i => ?_, runShRun_eq hd hn⟩
  · exact countP_shiftEvents (k := 2) (m := 1) (fun _ _ _ => rfl) rfl ..
  · simpa using countP_shiftEvents (p := Event.isSample) (k := 1) (m := 0) (fun _ _ _ => rfl) rfl ..
  · rw [Memory.bit_writeBits_zero hwf hmax, hlen]

/-- Settles O47: the call compares the bit count with `MAX_BITS` before the first operation. -/
theorem serializerRefusesAboveMaxBits : Obligations.SerializerRefusesAboveMaxBits := by
  intro s h
  have hn : ¬ s.bitCnt.toNat ≤ s.cfg.maxBits := Nat.not_le.mpr h
  rw [runShRun, seStart, if_neg hn, andThen_refused]

/-! ### The edges of TCK -/

/-- A bit drives TCK low and then raises it. -/
theorem risingEdges_bitEvents (tck t d s : Bool) (rest : List Event) :
    risingEdges tck (bitEvents t d s ++ rest) = 1 + risingEdges true rest := by
  simp [bitEvents, risingEdges]

/-- A bit's drive is a falling edge where TCK was high. -/
theorem fallingEdges_bitEvents (tck t d s : Bool) (rest : List Event) :
    fallingEdges tck (bitEvents t d s ++ rest) = (if tck then 1 else 0) + fallingEdges true rest := by
  simp [bitEvents, fallingEdges]

theorem risingEdges_idleEvent (tck : Bool) (rest : List Event) :
    risingEdges tck (idleEvent :: rest) = risingEdges false rest := by
  simp [idleEvent, Lines.idle, risingEdges]

/-- An idle update is a falling edge where TCK was high. -/
theorem fallingEdges_idleEvent (tck : Bool) (rest : List Event) :
    fallingEdges tck (idleEvent :: rest) = (if tck then 1 else 0) + fallingEdges false rest := by
  simp [idleEvent, Lines.idle, fallingEdges]

/-- Bits and the exit idle update: one rising edge a bit. -/
theorem risingEdges_bits (t d s : Nat → Bool) : ∀ (is : List Nat) (tck : Bool),
    risingEdges tck (is.flatMap (fun i => bitEvents (t i) (d i) (s i)) ++ [idleEvent]) = is.length
  | [], tck => by simp [risingEdges_idleEvent, risingEdges]
  | i :: is, tck => by
    rw [List.flatMap_cons, List.append_assoc, risingEdges_bitEvents, risingEdges_bits, List.length_cons, Nat.add_comm]

/-- Bits and the exit idle update: the TCK each bit raises falls at the next of them, and so does a TCK high before. -/
theorem fallingEdges_bits (t d s : Nat → Bool) : ∀ (is : List Nat) (tck : Bool),
    fallingEdges tck (is.flatMap (fun i => bitEvents (t i) (d i) (s i)) ++ [idleEvent]) =
      (if tck then 1 else 0) + is.length
  | [], tck => by simp [fallingEdges_idleEvent, fallingEdges]
  | i :: is, tck => by
    rw [List.flatMap_cons, List.append_assoc, fallingEdges_bitEvents, fallingEdges_bits, if_pos rfl, List.length_cons,
      Nat.add_comm 1]

theorem risingEdges_shiftEvents (n : Nat) (t d s : Nat → Bool) (tck : Bool) :
    risingEdges tck (shiftEvents n t d s) = n := by
  rw [shiftEvents, List.append_assoc, List.singleton_append, risingEdges_idleEvent, risingEdges_bits,
    List.length_range]

theorem fallingEdges_shiftEvents (n : Nat) (t d s : Nat → Bool) (tck : Bool) :
    fallingEdges tck (shiftEvents n t d s) = n + (if tck then 1 else 0) := by
  rw [shiftEvents, List.append_assoc, List.singleton_append, fallingEdges_idleEvent, fallingEdges_bits,
    List.length_range]
  simp [Nat.add_comm]

/-- Settles O46: the edges of the run's events. -/
theorem tckEdgesOfAShift : Obligations.TckEdgesOfAShift := fun _ hd hn =>
  ⟨_, _, runShRun_eq hd hn, rfl, risingEdges_shiftEvents .., fallingEdges_shiftEvents ..⟩

/-! ### The shift of 0 bits, and the loopback -/

/-- In `S_SH_RSP` with nothing to write, H is not asked (R87, R163); the counter of free values moves on all the same. -/
theorem runShRsp_empty {s : State} (hresp : tdoResponse s = .next []) :
    runShRsp s = .next { s with dstate := .sTag, busy := false, freeIdx := s.freeIdx + 1 } := by
  rw [runShRsp, hresp, andThen_next, respWrite_nil, andThen_next, if_neg (by simp)]
  rfl

/-- A response of 0 bytes has no last byte for padding. -/
theorem tdoResponse_of_byteLen_zero {s : State} (h : s.byteLen = 0) : tdoResponse s = .next [] := by
  rw [tdoResponse_eq (by simp [h]), h]
  simp [withFreePadding]

/-- Settles O20: the path with empty vectors, on which no bit is drawn, and a response of 0 bytes. -/
theorem shiftOfZeroBits : Obligations.ShiftOfZeroBits := by
  intro s suffix
  obtain ⟨evs, splits, _, hreads, rfl, hpath⟩ := shift_path s suffix 0 [] [] (Nat.zero_le _) rfl rfl
  exact ⟨evs, splits, s.freeIdx + 1, hreads,
    follow_finish_of_sent hpath rfl (runShRsp_empty (tdoResponse_of_byteLen_zero rfl)) rfl⟩

/-- Settles O24: the samples of a shift are its TDI bits under the loopback, and bits determine bytes where none is
padding; a shift of 0 bits has the empty vector as its response. -/
theorem loopbackReturnsTdi : Obligations.LoopbackReturnsTdi := by
  intro s suffix n tms tdi a ws hs hloop hcap htms htdi hw hk
  rcases Nat.eq_zero_or_pos n.toNat with hzero | hpos
  · obtain rfl : n = 0 := BitVec.eq_of_toNat_eq hzero
    obtain rfl : tms = [] := List.eq_nil_of_length_eq_zero htms
    obtain rfl : tdi = [] := List.eq_nil_of_length_eq_zero htdi
    obtain ⟨_, _, _, _, hexec⟩ := shiftOfZeroBits s suffix
    exact ⟨_, [], hexec, rfl, by simp, rfl, fun _ _ => rfl, fun _ => rfl⟩
  · obtain ⟨_, _, _, _, _, _, resp, _, _, _, _, hlen, hresp, _, _, _, hsamples, _, hexec⟩ :=
      shiftReturnsTheSamples s suffix n tms tdi a ws hs.tmsWf hs.tdiWf hs.tdoWf hpos hcap htms htdi hw hk
    have hbits : ∀ i, i < n.toNat → vectorBit resp i = vectorBit tdi i := fun i hi =>
      (hresp i hi).trans (hsamples hloop i hi)
    refine ⟨_, resp, hexec, rfl, rfl, hlen, hbits, fun hmul => bytes_ext (hlen.trans htdi.symm) fun i hi => ?_⟩
    exact hbits i (by omega)

end Sys2Proof.Machine
end

section
/-! PROOFS of 42_gpio_interface.md: an update of the lines is atomic (R211, R212), a TDO read changes nothing of the
block (R213, R218), and only the serializer touches the lines (R216). -/

namespace Sys2Proof.Machine

/-! ### One update of the lines -/

/-- The sets are disjoint exactly when no line is in both (R212). -/
theorem LineSet.disjoint_eq_true_iff {a c : LineSet} : a.disjoint c = true ↔
    ¬ (a.tck = true ∧ c.tck = true) ∧ ¬ (a.tms = true ∧ c.tms = true) ∧ ¬ (a.tdi = true ∧ c.tdi = true) := by
  simp [LineSet.disjoint, and_assoc, imp_iff_not_or]

theorem levelAfter_of_set {inS : Bool} (inC old : Bool) (h : inS = true) : levelAfter inS inC old = true := by
  rw [h]; rfl

theorem levelAfter_of_clear {inS inC : Bool} (old : Bool) (hdisj : ¬ (inS = true ∧ inC = true)) (h : inC = true) :
    levelAfter inS inC old = false := by
  obtain rfl : inS = false := by simpa [h] using hdisj
  rw [h]; rfl

theorem levelAfter_of_neither {inS inC : Bool} (old : Bool) (hs : inS = false) (hc : inC = false) :
    levelAfter inS inC old = old := by rw [hs, hc]; rfl

/-- Settles O43: the update goes line by line, and is refused exactly where a line is in both sets. -/
theorem gpioUpdateIsAtomic : Obligations.GpioUpdateIsAtomic := by
  intro s a c
  constructor
  · intro htck htms htdi
    exact ⟨s.lines.update a c, gpioSetClr_of_disjoint (LineSet.disjoint_eq_true_iff.mpr ⟨htck, htms, htdi⟩),
      levelAfter_of_set _ _, levelAfter_of_clear _ htck, levelAfter_of_neither _,
      levelAfter_of_set _ _, levelAfter_of_clear _ htms, levelAfter_of_neither _,
      levelAfter_of_set _ _, levelAfter_of_clear _ htdi, levelAfter_of_neither _⟩
  · intro hmeet
    refine gpioSetClr_of_overlap (Bool.eq_false_iff.mpr fun hdisj => ?_)
    obtain ⟨htck, htms, htdi⟩ := LineSet.disjoint_eq_true_iff.mp hdisj
    exact hmeet.elim htck fun h => h.elim htms htdi

/-! ### One TDO read -/

/-- Settles O44: a read is a draw from T, which gives the script's next level, or TDI's under the wire loopback. -/
theorem gpioReadChangesNothing : Obligations.GpioReadChangesNothing := by
  intro s
  rw [gpioRead_eq]
  refine ⟨⟨_, _, rfl⟩, fun b rest hlevels => ?_, fun hloop => ?_⟩
  · rw [hlevels]; exact ⟨rfl, rfl⟩
  · rw [hloop]; exact ⟨rfl, rfl⟩

/-! ### Who touches the lines -/

/-- A step that answers a next state is an atomic action, or the command whose frame stands at W's frame boundary. -/
theorem tick_or_exec_of_step {s t : State} (h : step s = .next t) :
    tick s = .next t ∨ ∃ i rest, frameAt s = some (i, rest) ∧ exec i (s.withRx rest) = .next t := by
  unfold step at h
  split at h
  case h_1 i rest hframe => exact .inr ⟨i, rest, hframe, h⟩
  case h_2 => exact .inl h

/-- The frame at W's frame boundary is that of a well-formed command. -/
theorem wellFormed_of_frameAt {s : State} {i : Instr} {rest : List Byte} (h : frameAt s = some (i, rest)) :
    WellFormed s.cfg.capacityBytes i := by
  unfold frameAt at h
  split at h
  case isFalse => cases h
  case isTrue =>
    split at h <;> cases h
    exact (wellFormed_and_encode_of_decode ‹_›).1

theorem finish_lines {s t : State} (h : finish s = .next t) : t.lines = s.lines := by
  cases h
  split <;> rfl

/-- The response of a command, and the termination it may end in, leave the lines as its path left them. -/
theorem lines_of_response {d : DState} {run : State → Result State} {o : Result State} {u t : State}
    {bytes : List Byte} (ho : o = .next u) (hd : u.dstate = d) (hrun : run u = respWrite bytes u)
    (h : andThen (follow d run o) finish = .next t) : t.lines = u.lines := by
  rw [ho, follow_next hd, hrun] at h
  obtain ⟨v, hv, hfin⟩ := andThen_eq_next.mp h
  exact (finish_lines hfin).trans (responseAction_of_respWrite hv).linesUntouched.lines

/-- A command that is no SHIFT leaves the lines alone: its path reads H's bytes, and at most a response follows. -/
theorem exec_shift_or_lines {s t : State} {i : Instr} (hi : WellFormed s.cfg.capacityBytes i)
    (h : exec i s = .next t) : (∃ suffix n tms tdi, i = .shift suffix n tms tdi) ∨ t.lines = s.lines := by
  cases i with
  | getinfo suffix =>
    obtain ⟨_, _, _, hpath⟩ := getinfo_path s suffix
    have hlines : t.lines = _ := lines_of_response (run := runGeRsp) hpath rfl rfl h
    exact .inr hlines
  | settck suffix period =>
    obtain ⟨_, _, _, hpath⟩ := settck_path s suffix period
    have hlines : t.lines = _ := lines_of_response (run := runSeRsp) hpath rfl rfl h
    exact .inr hlines
  | shift suffix n tms tdi => exact .inl ⟨suffix, n, tms, tdi, rfl⟩
  | invalid tag =>
    obtain ⟨_, _, _, hpath⟩ := invalid_path s (by simpa [WellFormed, Instr.wellFormed] using hi)
    obtain ⟨u, hu, hfin⟩ := andThen_eq_next.mp h
    cases hpath.symm.trans hu
    have hlines : t.lines = _ := finish_lines hfin
    exact .inr hlines

/-- Outside `S_SH_RUN` no atomic action is one of the serializer. -/
theorem linesUntouched_of_tick {s t : State} (h : tick s = .next t) (hd : s.dstate ≠ .sShRun) : LinesUntouched s t := by
  rcases (workerAction_of_tick h).serializes_or_linesUntouched with ⟨⟨hrun, _⟩, _⟩ | ⟨_, huntouched⟩
  · exact absurd hrun hd
  · exact huntouched

/-- Settles O53: outside the serializer an atomic action leaves the lines alone, and so does a command but SHIFT. -/
theorem onlyTheSerializerTouchesTheLines : Obligations.OnlyTheSerializerTouchesTheLines := by
  constructor
  · intro s t h hd
    obtain ⟨hlines, htarget, htrace⟩ := linesUntouched_of_tick h hd
    exact ⟨hlines, htarget, htrace⟩
  · intro s t h hchange
    rcases tick_or_exec_of_step h with htick | ⟨i, rest, hframe, hexec⟩
    · exact .inl (by_contra fun hd => hchange (linesUntouched_of_tick htick hd).lines)
    · have hi := wellFormed_of_frameAt hframe
      rcases exec_shift_or_lines (s := s.withRx rest) hi hexec with ⟨suffix, n, tms, tdi, rfl⟩ | hlines
      · exact .inr ⟨suffix, n, tms, tdi, rest, hframe⟩
      · exact absurd hlines hchange

end Sys2Proof.Machine
end

section
/-! PROOFS of 60_exceptions.md: from a good state nothing faults (R235), sessions start and end one after the other (R32,
R247), which states raise which reasons (R230), the termination step and the wait after it (R236, R241, R255), the codes
(R31, R230), and what the environment does between two steps (R257, R246, R213). -/

namespace Sys2Proof.Machine

/-! ### No action from a good state faults -/

/-- The answers the block can give in a good state: a next state, or the refusal that H's answer above the request causes
(R90, R235). -/
def AllowedAnswer (o : Result State) : Prop := (∃ t, o = .next t) ∨ o = .refused .writeAboveRequest

theorem AllowedAnswer.next (t : State) : AllowedAnswer (.next t) := .inl ⟨t, rfl⟩

theorem AllowedAnswer.andThen {o : Result State} {f : State → Result State} (h : AllowedAnswer o)
    (hf : ∀ t, o = .next t → AllowedAnswer (f t)) : AllowedAnswer (andThen o f) := by
  rcases h with ⟨t, rfl⟩ | rfl
  · exact hf t rfl
  · exact .inr rfl

/-- A turn of a transfer stores bytes that fit their destination (R92). -/
theorem TransferIn.allowedAnswer {dst : FrDst} {n : Nat} {reason : Reason} {onDone : State → State} {s : State}
    (hT : TransferIn s dst n reason onDone) (hs : s.Inv) : AllowedAnswer (transferTick dst n reason onDone s) := by
  unfold transferTick
  split
  case isTrue hb =>
    obtain ⟨hdst, hN, hgot⟩ := hT.registers hs hb
    have hfits : FitsDst s.frDst s.frN s := by rw [hdst, hN]; exact hT.fits hs
    obtain ⟨p, t, hturn, -⟩ := frTurn_fits hfits hgot
    rw [hturn, andThen_next]
    cases p <;> exact .next _
  case isFalse => exact .next _

/-- A response write is refused only for an answer above the request (R90). -/
theorem allowedAnswer_respWrite (bytes : List Byte) (s : State) : AllowedAnswer (respWrite bytes s) := by
  rcases respWrite_cases bytes s with ⟨-, h⟩ | ⟨-, -, h⟩ | ⟨a, ws, -, -, ⟨-, h⟩ | ⟨-, h⟩ | ⟨-, -, h⟩ | ⟨-, h⟩⟩
  · exact .inl ⟨_, h⟩
  · exact .inl ⟨_, h⟩
  · exact .inl ⟨_, h⟩
  · exact .inl ⟨_, h⟩
  · exact .inl ⟨_, h⟩
  · exact .inr h

/-- The bit the serializer is at lies in a byte that exists (R92, R189). -/
theorem seI_div_lt_capacity {s : State} (hs : s.Inv) (hd : s.dstate = .sShRun) (hi : s.seI < s.bitCnt.toNat) :
    s.seI / 8 < s.cfg.capacityBytes :=
  div_lt_of_lt_maxBits (bitCnt_le_maxBits hs (by rw [hd]; rfl)) hi

/-- An operation of the serializer reads and writes bits below the bit count, and its line sets are disjoint (R212). -/
theorem allowedAnswer_seTick {s : State} (hs : s.Inv) (hd : s.dstate = .sShRun) (hb : s.busy = true) :
    AllowedAnswer (seTick s) := by
  have hfits := hs.busyFits hb
  simp only [State.BusyFits, hd] at hfits
  unfold seTick
  cases hp : s.sePhase with
  | pDrive =>
    have hi := seI_div_lt_capacity hs hd (by simpa [hp] using hfits)
    simp only [bitRead_of_lt hi, andThen_next, driveUpdate_eq]
    exact .next _
  | pSample =>
    have hi := seI_div_lt_capacity hs hd (by simpa [hp] using hfits)
    simp only [gpioRead_eq]
    rw [bitWrite_of_lt (by exact hi)]
    exact .next _
  | pIdleIn => exact .next _
  | pRaise => exact .next _
  | pIdleOut => exact .next _
  | pDone => exact .next _

/-- The serializer is called with a checked bit count only (R189). -/
theorem allowedAnswer_seStart {s : State} (hs : s.Inv) (hd : s.dstate = .sShRun) : AllowedAnswer (seStart s) := by
  rw [seStart, if_pos (bitCnt_le_maxBits hs (by rw [hd]; rfl))]
  exact .next _

/-- The TDO response reads bytes below the checked byte length (R92). -/
theorem allowedAnswer_runShRsp {s : State} (hs : s.Inv) (hd : s.dstate = .sShRsp) : AllowedAnswer (runShRsp s) := by
  obtain ⟨-, hcap⟩ := hs.lengthChecked (by rw [hd]; rfl)
  rw [runShRsp, tdoResponse_eq hcap, andThen_next]
  exact (allowedAnswer_respWrite _ s).andThen fun _ _ => .next _

theorem allowedAnswer_tick {s : State} (hs : s.Inv) : AllowedAnswer (tick s) := by
  unfold tick
  cases hd : s.dstate with
  | sWait => exact .next _
  | sTag => exact (TransferIn.tag hd).allowedAnswer hs
  | sGeSfx => exact (TransferIn.geSuffix hd).allowedAnswer hs
  | sGeRsp => exact allowedAnswer_respWrite _ s
  | sSeArg =>
    simp only [seArgTick_eq]
    split
    case isTrue h => exact (TransferIn.sePeriod hd h.1 h.2).allowedAnswer hs
    case isFalse h => exact (TransferIn.seSuffix hd (by simpa using h)).allowedAnswer hs
  | sSeRsp => exact allowedAnswer_respWrite _ s
  | sShHdr => exact (TransferIn.header hd).allowedAnswer hs
  | sShChk => exact .next _
  | sShTms => exact (TransferIn.tms hd).allowedAnswer hs
  | sShTdi => exact (TransferIn.tdi hd).allowedAnswer hs
  | sShRun =>
    dsimp only
    split
    case isTrue hb => exact allowedAnswer_seTick hs hd hb
    case isFalse => exact allowedAnswer_seStart hs hd
  | sShRsp => exact allowedAnswer_runShRsp hs hd
  | sEnd => exact .next _

theorem allowedAnswer_ticks : ∀ (k : Nat) {s : State}, s.Inv → AllowedAnswer (ticks k s)
  | 0, s, _ => .next s
  | k + 1, _, hs => (allowedAnswer_tick hs).andThen fun _ ht =>
    allowedAnswer_ticks k ((workerAction_of_tick ht).keeps_inv hs)

/-! ### A step outside `S_WAIT` -/

theorem atFrameBoundary_of_frameAt {s : State} {r : Instr × List Byte} (h : frameAt s = some r) :
    s.dstate = .sTag ∧ s.busy = false := by
  unfold frameAt at h
  split at h
  case isTrue hb => simpa [State.atFrameBoundary] using hb
  case isFalse => cases h

/-- Outside `S_WAIT` a step, whatever it answers, is a number of atomic actions from the same state but for H's side of
the stream, and W is not in `S_WAIT` between them. -/
theorem reach_step {s : State} (hd : s.dstate ≠ .sWait) : ∃ l, Reach { s with link := l } (step s) := by
  unfold step
  split
  case h_1 i rest hframe =>
    obtain ⟨htag, hb⟩ := atFrameBoundary_of_frameAt hframe
    exact ⟨_, withRx_beginFrame htag hb _ _ ▸ reach_exec i (s.withRx rest)⟩
  case h_2 => exact ⟨s.link, Reach.tick hd⟩

/-- Settles O50: in `S_WAIT` a step is that state's action, and elsewhere a number of atomic actions, which all keep the
invariant. -/
theorem goodStatesStep : Obligations.GoodStatesStep := by
  intro s hs
  by_cases hd : s.dstate = .sWait
  · exact .inl ⟨_, step_of_sWait hd⟩
  · obtain ⟨l, k, hk, -⟩ := reach_step hd
    exact hk ▸ allowedAnswer_ticks k (hs.congr rfl)

/-- Settles O51: every step of a run leads from a good state to a good one, or is refused. -/
theorem runsNeverFault : Obligations.RunsNeverFault := by
  intro s hs k r
  induction k generalizing s with
  | zero => simp [Host.Core.run]
  | succ k ih =>
    rcases goodStatesStep s hs with ⟨t, ht⟩ | hrefused
    · simpa [Host.Core.run, core, ht] using ih t (stepKeepsInvariant s t hs ht)
    · simp [Host.Core.run, core, hrefused]

/-! ### The reasons -/

/-- A transfer terminates with its own reason, or by what follows it (R85). -/
theorem TransferAction.endReason_cases {dst : FrDst} {n : Nat} {reason : Reason} {onDone : State → State} {s t : State}
    (h : TransferAction dst n reason onDone s t) (hs : s.dstate ≠ .sEnd) (ht : t.dstate = .sEnd) :
    t.endReason = reason ∨ t = onDone s := by
  cases h with
  | begins => exact absurd ht hs
  | waits => exact absurd ht hs
  | fails => exact .inl rfl
  | reads r u _ _ _ _ hst =>
    rw [storeBytes_keeps hst] at ht
    exact absurd ht hs
  | completes => exact .inr rfl

/-- A response that terminates the session failed or was short (R86). -/
theorem ResponseAction.endReason_cases {bytes : List Byte} {s t : State} (h : ResponseAction bytes s t)
    (hs : s.dstate ≠ .sEnd) (ht : t.dstate = .sEnd) : t.endReason = .txFail ∨ t.endReason = .shortWrite := by
  cases h with
  | skips => cases ht
  | waits => exact absurd ht hs
  | sent => cases ht
  | failsTransport => exact .inl rfl
  | failsShort => exact .inr rfl

/-- Dispatch terminates for an invalid tag only (R165). -/
theorem afterTag_endReason {s : State} (h : (afterTag s).dstate = .sEnd) : (afterTag s).endReason = .badTag := by
  revert h
  unfold afterTag
  split
  · exact fun h => nomatch h
  · exact fun h => nomatch h
  · exact fun h => nomatch h
  · exact fun _ => rfl

/-- The capacity check terminates for an oversize shift only (R156). -/
theorem runShChk_endReason {s : State} (h : (runShChk s).dstate = .sEnd) : (runShChk s).endReason = .oversize := by
  by_cases hcap : ceilDiv8 s.bitCnt.toNat ≤ s.cfg.capacityBytes
  · rw [runShChk_fits hcap] at h
    cases h
  · rw [runShChk_oversize (Nat.lt_of_not_le hcap)]; rfl

/-- Settles O34: a transfer raises its own reason, and of what follows the transfers only dispatch can raise one. -/
theorem reasonsByState : Obligations.ReasonsByState := by
  intro s t h ht
  cases workerAction_of_tick h with
  | waits hd => cases hd.symm.trans ht
  | starts => cases ht
  | transfers hT hact =>
    rcases hact.endReason_cases (by cases hT <;> simp [*]) ht with hr | rfl
    · cases hT <;> simp [*]
    · cases hT with
      | tag hd => exact .inl ⟨hd, .inr (afterTag_endReason ht)⟩
      | seSuffix hd => cases hd.symm.trans ht
      | _ => cases ht
  | responds hd hact =>
    have hr := hact.endReason_cases (by rcases hd with ⟨hd, _⟩ | ⟨hd, _⟩ <;> simp [hd]) ht
    rcases hd with ⟨hd, _⟩ | ⟨hd, _⟩ <;> simp [hd, hr]
  | checks hd => exact .inr (.inr (.inr ⟨hd, runShChk_endReason ht⟩))
  | startsShift hd => cases hd.symm.trans ht
  | shifts hd _ hact => rcases hact.dstate_cases with h | h <;> simp [h, hd] at ht
  | @respondsTdo _ u hd _ hact =>
    have hu : u.dstate = .sEnd := by split at ht <;> exact ht
    have hr := hact.endReason_cases (by simp [hd]) hu
    simpa [hd, hu] using hr
  | ends => cases ht

/-! ### Sessions -/

/-- A session's start or its end. -/
def Event.isSession : Event → Bool
  | .sessionStart => true
  | .sessionEnd _ => true
  | _ => false

/-- From `s` to `t` no session starts and none ends. -/
def SameSession (s t : State) : Prop := ∃ evs, t.trace = s.trace ++ evs ∧ ∀ e ∈ evs, e.isSession = false

/-- From `s` to `t` no session starts, and one ends at the last event. -/
def EndsSession (s t : State) : Prop := ∃ u, SameSession s u ∧ t = u.endSession

theorem SameSession.of_trace_eq {s t : State} (h : t.trace = s.trace) : SameSession s t := ⟨[], by simp [h], by simp⟩

theorem SameSession.of_event {s t : State} {e : Event} (he : e.isSession = false) (h : t.trace = s.trace ++ [e]) :
    SameSession s t := ⟨[e], h, by simp [he]⟩

theorem SameSession.trans {s t u : State} (h : SameSession s t) (h' : SameSession t u) : SameSession s u := by
  obtain ⟨evs, htr, hevs⟩ := h
  obtain ⟨evs', htr', hevs'⟩ := h'
  exact ⟨evs ++ evs', by rw [htr', htr, List.append_assoc], List.forall_mem_append.mpr ⟨hevs, hevs'⟩⟩

theorem TransferAction.sameSession {s t : State} {dst : FrDst} {n : Nat} {reason : Reason} {onDone : State → State}
    (h : TransferAction dst n reason onDone s t) (hT : TransferIn s dst n reason onDone) : SameSession s t := by
  cases h with
  | begins => exact .of_trace_eq rfl
  | waits => exact .of_trace_eq rfl
  | fails => exact .of_event rfl rfl
  | reads => exact .of_event rfl rfl
  | completes =>
    cases hT with
    | tag => rw [afterTag_keeps]; exact .of_trace_eq rfl
    | _ => exact .of_trace_eq rfl

theorem ResponseAction.sameSession {bytes : List Byte} {s t : State} (h : ResponseAction bytes s t) :
    SameSession s t := by
  cases h with
  | skips => exact .of_trace_eq rfl
  | waits => exact .of_trace_eq rfl
  | sent => exact .of_event rfl rfl
  | failsTransport => exact .of_event rfl rfl
  | failsShort => exact .of_event rfl rfl

theorem SerializerAction.sameSession {s t : State} (h : SerializerAction s t) : SameSession s t := by
  cases h with
  | returns => exact .of_trace_eq rfl
  | _ => exact .of_event rfl rfl

/-- Outside `S_WAIT` an atomic action starts no session, and only the termination step ends one (R236). -/
theorem WorkerAction.sameSession_or_endsSession {s t : State} (h : WorkerAction s t) (hw : s.dstate ≠ .sWait) :
    SameSession s t ∨ EndsSession s t := by
  cases h with
  | waits hd => exact absurd hd hw
  | starts o rest hd => exact absurd hd hw
  | transfers hT ht => exact .inl (ht.sameSession hT)
  | responds _ ht => exact .inl ht.sameSession
  | checks => rw [runShChk_keeps]; exact .inl (.of_trace_eq rfl)
  | startsShift => exact .inl (.of_trace_eq rfl)
  | shifts _ _ ht => exact .inl ht.sameSession
  | respondsTdo _ _ ht =>
    split
    · exact .inl ht.sameSession
    · exact .inl (ht.sameSession.trans (.of_trace_eq rfl))
  | ends => exact .inr ⟨s, .of_trace_eq rfl, rfl⟩

/-- A number of atomic actions with W outside `S_WAIT` before each of them: once a session has ended, none follows. -/
theorem ticks_sameSession_or_endsSession : ∀ {k : Nat} {s t : State}, ticks k s = .next t →
    (∀ j < k, ∀ u, ticks j s = .next u → u.dstate ≠ .sWait) → SameSession s t ∨ EndsSession s t
  | 0, _, _, h, _ => by cases h; exact .inl (.of_trace_eq rfl)
  | k + 1, s, t, h, hw => by
    obtain ⟨u, hu, hrest⟩ := andThen_eq_next.mp h
    have hlater : ∀ j < k, ∀ v, ticks j u = .next v → v.dstate ≠ .sWait := fun j hj v hv =>
      hw (j + 1) (by omega) v (by rw [ticks, hu, andThen_next, hv])
    rcases (workerAction_of_tick hu).sameSession_or_endsSession (hw 0 (by omega) s rfl) with hsame | hends
    · rcases ticks_sameSession_or_endsSession hrest hlater with h' | ⟨v, h', rfl⟩
      · exact .inl (hsame.trans h')
      · exact .inr ⟨v, hsame.trans h', rfl⟩
    · have hwait : u.dstate = .sWait := by obtain ⟨v, -, rfl⟩ := hends; rfl
      obtain rfl : k = 0 := Nat.eq_zero_of_not_pos fun hk => hlater 0 hk u rfl hwait
      cases hrest
      exact .inr hends

/-- Settles O55: in `S_WAIT` a step starts a session or waits; elsewhere a session is active, and the step keeps it or
ends it at the last event. -/
theorem sessionsNeverOverlap : Obligations.SessionsNeverOverlap := by
  intro s t hs h
  have hactive := hs.session
  by_cases hd : s.dstate = .sWait
  · cases (step_of_sWait hd).symm.trans h
    unfold runWait
    split
    · exact ⟨[], by simp⟩
    · exact ⟨[.sessionStart], by simp [hactive, hd]⟩
  · obtain ⟨l, k, hk, hw⟩ := reach_step hd
    rcases ticks_sameSession_or_endsSession (hk.trans h) hw with ⟨evs, htr, hevs⟩ | ⟨u, ⟨evs, htr, hevs⟩, rfl⟩
    · refine ⟨evs, htr, fun hstart => ?_, fun r hend => ?_⟩
      · cases hevs _ hstart
      · cases hevs _ hend
    · have hnone : ∀ q, .sessionEnd q ∉ evs := fun q hq => by cases hevs _ hq
      have htrace : u.endSession.trace = s.trace ++ (evs ++ [.sessionEnd u.endReason]) := by
        rw [← List.append_assoc, ← htr]; rfl
      refine ⟨_, htrace, fun hstart => ?_, fun r hend => ?_⟩
      · have hmem : .sessionStart ∈ evs := by simpa using hstart
        cases hevs _ hmem
      · obtain rfl : r = u.endReason := by simpa [hnone r] using hend
        exact ⟨by simp [hactive, hd], rfl, rfl, evs, rfl, hnone⟩

/-! ### The termination step and the wait -/

/-- In `S_END` a step is the termination step. -/
theorem step_of_sEnd {s : State} (h : s.dstate = .sEnd) : step s = .next s.endSession := by
  simp [step, frameAt, State.atFrameBoundary, tick, h]

theorem step_of_no_offer {s : State} (hd : s.dstate = .sWait) (ho : s.offers = []) : step s = .next s := by
  rw [step_of_sWait hd, runWait, ho]

/-- Settles O29: the termination step leads to `S_WAIT` and takes none of A's streams. -/
theorem waitsWithoutAnOffer : Obligations.WaitsWithoutAnOffer :=
  ⟨fun _ => step_of_no_offer, fun _ hd ho => ⟨_, step_of_sEnd hd, rfl, rfl, step_of_no_offer rfl ho⟩⟩

/-- Settles O30: the raise and the termination step, written out. -/
theorem terminationStep : Obligations.TerminationStep :=
  ⟨fun _ _ => ⟨rfl, rfl⟩, fun _ hd => step_of_sEnd hd⟩

/-! ### The codes -/

/-- The termination reasons in the order of their codes (R230). -/
def Reason.all : List Reason := [.none, .tagRxEnd, .rxFail, .txFail, .shortWrite, .badTag, .oversize]

/-- The dispatcher's states in the order of their codes (R31). -/
def DState.all : List DState :=
  [.sWait, .sTag, .sGeSfx, .sGeRsp, .sSeArg, .sSeRsp, .sShHdr, .sShChk, .sShTms, .sShTdi, .sShRun, .sShRsp, .sEnd]

theorem Reason.all_getElem?_code (r : Reason) : Reason.all[r.code]? = some r := by cases r <;> rfl

theorem DState.all_getElem?_code (d : DState) : DState.all[d.code.toNat]? = some d := by cases d <;> rfl

theorem Reason.code_injective {q r : Reason} (h : q.code = r.code) : q = r :=
  Option.some.inj (by rw [← Reason.all_getElem?_code q, h, Reason.all_getElem?_code])

theorem DState.code_injective {d e : DState} (h : d.code = e.code) : d = e :=
  Option.some.inj (by rw [← DState.all_getElem?_code d, h, DState.all_getElem?_code])

theorem DState.code_lt (d : DState) : d.code.toNat < 13 :=
  (List.getElem?_eq_some_iff.mp (DState.all_getElem?_code d)).1

/-- Settles O31: the codes number the two lists, so each code has one owner. -/
theorem codesOfReasonsAndStates : Obligations.CodesOfReasonsAndStates :=
  ⟨rfl, rfl, fun _ _ => Reason.code_injective, DState.code_lt, fun _ _ => DState.code_injective⟩

/-! ### The environment's moves -/

/-- T presents levels: only T's side changes (R213). -/
theorem targetPresents_eq (s : State) (levels : List Bool) :
    s.targetPresents levels = { s with target := (s.targetPresents levels).target } := by
  unfold State.targetPresents
  split <;> rfl

/-- Settles O48: each move changes the fields its definition names, and the invariant speaks of none of them. -/
theorem environmentChangesItsOwnSideOnly : Obligations.EnvironmentChangesItsOwnSideOnly := by
  intro s bytes e counts a o levels
  refine ⟨rfl, rfl, rfl, rfl, rfl, ⟨_, targetPresents_eq s levels⟩, rfl, fun hs => ?_⟩
  refine ⟨hs.congr rfl, hs.congr rfl, hs.congr rfl, hs.congr rfl, hs.congr rfl, ?_, hs.congr rfl⟩
  rw [targetPresents_eq]
  exact hs.congr rfl

end Sys2Proof.Machine
end
